-- ==== Sys2Proof/Word.lean ====
section
/-! DEFINITION. The two bit-vector widths of the hardware: the 32-bit word of every port, register and bus access
(00_scope R8 `ADDR_W`, 10_state R32, R37, 20_memory R73) and the 8-bit byte of the flash array (10_state R48). -/

namespace Sys2Proof

/-- A 32-bit word: a port word, a register value, a flash address or a program value. -/
abbrev Word := BitVec 32

/-- One byte of the flash array. -/
abbrev Byte := BitVec 8

end Sys2Proof
end

