-- ==== Sys2Proof/Config.lean ====
section
/-! DEFINITION. What is fixed for one machine: the constants of 00_scope R8, the record of its parameters (the `OPEN` ones
and the four with a default), the derived constants of R9, and the free values behind every `draw` of R15. -/

namespace Sys2Proof

namespace Config

/-- `KEY1` (00_scope R8). -/
def key1 : Word := 0x45670123#32

/-- `KEY2` (00_scope R8). -/
def key2 : Word := 0xCDEF89AB#32

/-- `PAGE_SIZE`, bytes (00_scope R8). -/
def pageSize : Nat := 2048

/-- `WORD_BYTES` (00_scope R8). -/
def wordBytes : Nat := 4

/-- `FLASH_REG_BASE` (00_scope R8): used by encodings only. -/
def flashRegBase : Word := 0x40022000#32

/-- The address of `KEYR` (10_state R45: offset 0x04). -/
def keyrAddr : Word := flashRegBase + 0x04#32

/-- The address of `SR` (10_state R45: offset 0x0C). -/
def srAddr : Word := flashRegBase + 0x0C#32

/-- The address of `CR` (10_state R45: offset 0x10). -/
def crAddr : Word := flashRegBase + 0x10#32

/-- The address of `AR` (10_state R45: offset 0x14). -/
def arAddr : Word := flashRegBase + 0x14#32

/-- The free value behind a draw of a truth value (00_scope R15). It has no body: nothing is known of it.
Its argument is the number of the draw, counted by `State.draws`. -/
opaque drawBool : Nat → Bool

/-- The free value behind a draw of a 32-bit word (00_scope R15). -/
opaque drawWord : Nat → Word

/-- The free value behind a draw of one byte for each address of a range (00_scope R15). -/
opaque drawByte : Nat → Nat → Byte

end Config

/-- The values of the parameter `KEYR_LOCKOUT_WRITE` (00_scope R8, 44_regif_actions R238). -/
inductive LockoutWrite where
  | ignored
  | fault
deriving DecidableEq, Repr

/-- The implementation parameters of 00_scope R8 that are not constants of the hardware. A machine carries one such
record, and no step changes it. -/
structure Config where
  /-- `FLASH_BASE`, OPEN -/
  flashBase : Word
  /-- `FLASH_SIZE` in bytes, OPEN -/
  flashSize : Nat
  /-- `POLL_LIMIT`, OPEN -/
  pollLimit : Nat
  /-- `WRP_PAGES`, OPEN: the write-protected page indices -/
  wrpPages : List Nat
  /-- `PROGRAM_STRT`, default false -/
  programStrt : Bool
  /-- `SPLIT_COMPLETION`, default false -/
  splitCompletion : Bool
  /-- `KEYR_LOCKOUT_WRITE`, default ignored -/
  keyrLockoutWrite : LockoutWrite
  /-- `MACRO_MAY_REJECT`, default false -/
  macroMayReject : Bool
deriving DecidableEq, Repr

namespace Config

/-- `FLASH_BASE` as an unbounded natural number (00_scope R12). -/
def base (c : Config) : Nat := c.flashBase.toNat

/-- `FLASH_END`, an unbounded natural number that may equal 2^32 (00_scope R9). -/
def flashEnd (c : Config) : Nat := c.base + c.flashSize

/-- `NUM_PAGES` (00_scope R9). -/
def numPages (c : Config) : Nat := c.flashSize / pageSize

/-- Whether the `len` bytes from `a` all lie in the flash array (10_state R48). -/
def contains (c : Config) (a len : Nat) : Bool :=
  decide (c.base ≤ a) && decide (a + len ≤ c.flashEnd)

/-- The conditions 00_scope R8 puts on the parameters. -/
def wf (c : Config) : Bool :=
  decide (c.base % pageSize = 0) && decide (0 < c.flashSize) && decide (c.flashSize % pageSize = 0)
    && decide (c.flashEnd ≤ 2 ^ 32) && decide (1 ≤ c.pollLimit)
    && c.wrpPages.all (fun p => decide (p < c.numPages)) && decide c.wrpPages.Nodup

/-- Configuration EX of 95_test_vectors section 0. DESIGN CHOICE (log entry 1): the parameters that `State.reset` carries,
because the spec leaves four of them OPEN. -/
def ex : Config where
  flashBase := 0x08000000#32
  flashSize := 0x40000
  pollLimit := 8
  wrpPages := [0]
  programStrt := false
  splitCompletion := false
  keyrLockoutWrite := .ignored
  macroMayReject := false

end Config

end Sys2Proof
end

