-- ==== Sys2Proof/Syntax.lean ====
section
/-! DEFINITION. The instructions: one constructor for each row of spec/opcode_table.json, two commands of the command port
(30_encoding R100, R101) and fourteen bus actions (30_encoding R106). -/

namespace Sys2Proof

/-- The sixteen rows of the opcode table. -/
inductive Instr where
  /-- `ERASE_PAGE` (41_erase_page R160): the frame's `ADDR`, and its `DATA` word, which an erase ignores -/
  | erasePage (addr data : Word)
  /-- `PROGRAM_WORD` (42_program_word R180): the frame's `ADDR` and `DATA` -/
  | programWord (addr value : Word)
  /-- `RD_SR` (44_regif_actions R231) -/
  | rdSr
  /-- `RD_CR` (44_regif_actions R232) -/
  | rdCr
  /-- `WR_KEYR(KEY1)` (44_regif_actions R235) -/
  | wrKeyrKey1
  /-- `WR_KEYR(KEY2)` (44_regif_actions R235) -/
  | wrKeyrKey2
  /-- `W1C_SR(0x20)` (44_regif_actions R239) -/
  | w1cSrEop
  /-- `W1C_SR(0x10)` (44_regif_actions R239) -/
  | w1cSrWrprterr
  /-- `W1C_SR(0x30)` (44_regif_actions R239) -/
  | w1cSrBoth
  /-- `SET_PER` (44_regif_actions R241) -/
  | setPer
  /-- `SET_PG` (44_regif_actions R241) -/
  | setPg
  /-- `CLR_PER` (44_regif_actions R241) -/
  | clrPer
  /-- `CLR_PG` (44_regif_actions R241) -/
  | clrPg
  /-- `SET_STRT` (44_regif_actions R242) -/
  | setStrt
  /-- `WR_AR(a)` (44_regif_actions R243) -/
  | wrAr (addr : Word)
  /-- `WR_MEM32(a, v)` (44_regif_actions R245) -/
  | wrMem32 (addr value : Word)
deriving DecidableEq, Repr

namespace Instr

/-- Whether the instruction is one of the two commands of the command port; the others are bus actions. -/
def isCommand : Instr → Bool
  | .erasePage _ _ => true
  | .programWord _ _ => true
  | .rdSr => false
  | .rdCr => false
  | .wrKeyrKey1 => false
  | .wrKeyrKey2 => false
  | .w1cSrEop => false
  | .w1cSrWrprterr => false
  | .w1cSrBoth => false
  | .setPer => false
  | .setPg => false
  | .clrPer => false
  | .clrPg => false
  | .setStrt => false
  | .wrAr _ => false
  | .wrMem32 _ _ => false

end Instr

end Sys2Proof
end

