-- ==== Sys2Proof/WellFormed.lean ====
section
/-! DEFINITION. Which instruction terms have an encoding on a machine with the given parameters. -/

namespace Sys2Proof

/-- Whether an address is one of the four register addresses of 10_state R45. -/
def isRegisterAddr (a : Word) : Bool :=
  a == Config.keyrAddr || a == Config.srAddr || a == Config.crAddr || a == Config.arAddr

namespace Instr

/-- The three checks on the payload write's address (20_memory R70, R74, 30_encoding R106): word-aligned, inside the flash
array, and not one of the registers' addresses. -/
def payloadAddrOk (c : Config) (a : Word) : Bool :=
  decide (a.toNat % Config.wordBytes = 0) && c.contains a.toNat Config.wordBytes && !isRegisterAddr a

/-- A well-formed instruction. The operands of the commands and of `WR_AR` are taken whole (30_encoding R102), so every value
has an encoding; only the payload write's address is restricted. -/
def wf (c : Config) : Instr → Bool
  | .erasePage _ _ => true
  | .programWord _ _ => true
  | .rdSr => true
  | .rdCr => true
  | .wrKeyrKey1 => true
  | .wrKeyrKey2 => true
  | .w1cSrEop => true
  | .w1cSrWrprterr => true
  | .w1cSrBoth => true
  | .setPer => true
  | .setPg => true
  | .clrPer => true
  | .clrPg => true
  | .setStrt => true
  | .wrAr _ => true
  | .wrMem32 a _ => payloadAddrOk c a

end Instr

end Sys2Proof
end

