-- ==== Sys2Proof/Decode.lean ====
section
/-! DEFINITION. The decoder and the encoder of 30_encoding: the 96-bit command frame (R100 to R103), the eleven bus actions
as bus accesses (R106), the assembler syntax of R108, and the words the host's opcode table gives. -/

namespace Sys2Proof

/-- The command frame of 30_encoding R100: three 32-bit words. -/
structure Frame where
  cmd : Word
  addr : Word
  data : Word
deriving DecidableEq, Repr

/-- One access on the bus-master port (00_scope R14). A `modify32` changes the bits of `mask` to those of `value` and leaves
the others; `mask` and `value` are the opcode table's mask and match columns. -/
inductive BusAccess where
  | read32 (addr : Word)
  | write32 (addr data : Word)
  | modify32 (addr mask value : Word)
deriving DecidableEq, Repr

/-- The encoded form of an instruction: a frame on the command port or an access on the bus-master port. -/
inductive Encoding where
  | frame (f : Frame)
  | bus (b : BusAccess)
deriving DecidableEq, Repr

/-- Why an encoding is rejected. -/
inductive DecodeError where
  /-- `CMD[31:2]` is not 0 (30_encoding R101, R103) -/
  | reservedBits
  /-- `CMD[1:0]` is `0b00` or `0b11` (30_encoding R101, R103) -/
  | reservedOp
  /-- a read of an address other than `SR` and `CR` (30_encoding R106) -/
  | unknownRead
  /-- a register write with a value that is none of the actions' values (30_encoding R106) -/
  | unknownRegisterValue
  /-- a write to an address that is neither a register nor a word of the flash array (20_memory R71, R74) -/
  | notAnArrayWord
  /-- a modify of an address other than `CR`, or of bits other than one of the actions' fields (30_encoding R106) -/
  | unknownModify
deriving DecidableEq, Repr

/-- `ERASE_PAGE`'s opcode field (30_encoding R101). -/
def opErase : BitVec 2 := 0b01#2

/-- `PROGRAM_WORD`'s opcode field (30_encoding R101). -/
def opProgram : BitVec 2 := 0b10#2

/-- `CMD[1:0]` (30_encoding R101). -/
def cmdOp (cmd : Word) : BitVec 2 := cmd.extractLsb' 0 2

/-- `CMD[31:2]` (30_encoding R101). -/
def cmdRes (cmd : Word) : BitVec 30 := cmd.extractLsb' 2 30

/-- 40_entry_unlock R132. -/
def legalCmd (cmd : Word) : Bool :=
  cmdRes cmd == 0#30 && (cmdOp cmd == opErase || cmdOp cmd == opProgram)

/-- The command-frame decoder, total on all 96-bit frames (30_encoding R101, R102, R103). -/
def decodeFrame (f : Frame) : Except DecodeError Instr :=
  if cmdRes f.cmd = 0#30 then
    if cmdOp f.cmd = opErase then .ok (.erasePage f.addr f.data)
    else if cmdOp f.cmd = opProgram then .ok (.programWord f.addr f.data)
    else .error .reservedOp
  else .error .reservedBits

/-- A 32-bit write, by its address: the key port, the status register, the address register, then the flash array
(30_encoding R106). -/
def decodeWrite (c : Config) (a v : Word) : Except DecodeError Instr :=
  if a = Config.keyrAddr then
    if v = Config.key1 then .ok .wrKeyrKey1
    else if v = Config.key2 then .ok .wrKeyrKey2
    else .error .unknownRegisterValue
  else if a = Config.srAddr then
    if v = 0x20#32 then .ok .w1cSrEop
    else if v = 0x10#32 then .ok .w1cSrWrprterr
    else if v = 0x30#32 then .ok .w1cSrBoth
    else .error .unknownRegisterValue
  else if a = Config.arAddr then .ok (.wrAr v)
  else if a = Config.crAddr then .error .unknownRegisterValue
  else if Instr.payloadAddrOk c a = true then .ok (.wrMem32 a v)
  else .error .notAnArrayWord

/-- A read-modify-write of one field of `CR`, by the table's mask and match (30_encoding R106). -/
def decodeModify (a mask value : Word) : Except DecodeError Instr :=
  if a = Config.crAddr then
    if mask = 0x2#32 then
      if value = 0x2#32 then .ok .setPer else if value = 0#32 then .ok .clrPer else .error .unknownModify
    else if mask = 0x1#32 then
      if value = 0x1#32 then .ok .setPg else if value = 0#32 then .ok .clrPg else .error .unknownModify
    else if mask = 0x40#32 then
      if value = 0x40#32 then .ok .setStrt else .error .unknownModify
    else .error .unknownModify
  else .error .unknownModify

/-- The bus-access decoder: exactly the actions of 30_encoding R106, and nothing else. -/
def decodeBus (c : Config) : BusAccess → Except DecodeError Instr
  | .read32 a =>
    if a = Config.srAddr then .ok .rdSr
    else if a = Config.crAddr then .ok .rdCr
    else .error .unknownRead
  | .write32 a v => decodeWrite c a v
  | .modify32 a mask value => decodeModify a mask value

/-- The decoder, total on every encoding. -/
def decode (c : Config) : Encoding → Except DecodeError Instr
  | .frame f => decodeFrame f
  | .bus b => decodeBus c b

/-- The encoder, from the tables of 30_encoding R101 and R106. -/
def encode : Instr → Encoding
  | .erasePage a d => .frame ⟨0x1#32, a, d⟩
  | .programWord a v => .frame ⟨0x2#32, a, v⟩
  | .rdSr => .bus (.read32 Config.srAddr)
  | .rdCr => .bus (.read32 Config.crAddr)
  | .wrKeyrKey1 => .bus (.write32 Config.keyrAddr Config.key1)
  | .wrKeyrKey2 => .bus (.write32 Config.keyrAddr Config.key2)
  | .w1cSrEop => .bus (.write32 Config.srAddr 0x20#32)
  | .w1cSrWrprterr => .bus (.write32 Config.srAddr 0x10#32)
  | .w1cSrBoth => .bus (.write32 Config.srAddr 0x30#32)
  | .setPer => .bus (.modify32 Config.crAddr 0x2#32 0x2#32)
  | .setPg => .bus (.modify32 Config.crAddr 0x1#32 0x1#32)
  | .clrPer => .bus (.modify32 Config.crAddr 0x2#32 0#32)
  | .clrPg => .bus (.modify32 Config.crAddr 0x1#32 0#32)
  | .setStrt => .bus (.modify32 Config.crAddr 0x40#32 0x40#32)
  | .wrAr a => .bus (.write32 Config.arAddr a)
  | .wrMem32 a v => .bus (.write32 a v)

/-- The data word an access puts on the bus when the register it modifies holds `old`; `none` for a read
(30_encoding R106, last column). -/
def BusAccess.written (old : Word) : BusAccess → Option Word
  | .read32 _ => none
  | .write32 _ v => some v
  | .modify32 _ mask value => some ((old &&& ~~~mask) ||| value)

/-! ### Assembler syntax (30_encoding R108) -/

/-- The value of one digit in a base of 10 or 16. -/
def digitValue (hex : Bool) (ch : Char) : Option Nat :=
  let n := ch.toNat
  if 48 ≤ n ∧ n ≤ 57 then some (n - 48)
  else if hex = true ∧ 97 ≤ n ∧ n ≤ 102 then some (n - 87)
  else if hex = true ∧ 65 ≤ n ∧ n ≤ 70 then some (n - 55)
  else none

/-- Digits with `_` as a separator only; `seen` says whether a digit has been read. -/
def literalDigits (hex : Bool) (acc : Nat) (seen : Bool) : List Char → Option Nat
  | [] => if seen then some acc else none
  | ch :: rest =>
    if ch = '_' then literalDigits hex acc seen rest
    else match digitValue hex ch with
      | some d => literalDigits hex (acc * (if hex then 16 else 10) + d) true rest
      | none => none

/-- A 32-bit unsigned literal, decimal or hexadecimal with the prefix `0x`; one that does not fit is refused. -/
def literal (cs : List Char) : Option Word :=
  let value := match cs with
    | '0' :: 'x' :: rest => literalDigits true 0 false rest
    | _ => literalDigits false 0 false cs
  match value with
  | some v => if v < 2 ^ 32 then some (BitVec.ofNat 32 v) else none
  | none => none

/-- Splits a line at blanks; a comma is a token of its own. -/
def tokens (cur : List Char) : List Char → List (List Char)
  | [] => if cur.isEmpty then [] else [cur.reverse]
  | ch :: rest =>
    if ch = ' ' ∨ ch = '\t' then
      if cur.isEmpty then tokens [] rest else cur.reverse :: tokens [] rest
    else if ch = ',' then
      if cur.isEmpty then [','] :: tokens [] rest else cur.reverse :: [','] :: tokens [] rest
    else tokens (ch :: cur) rest

/-- The spelling of the first operation. -/
def erasePageName : List Char := ['e', 'r', 'a', 's', 'e', '_', 'p', 'a', 'g', 'e']

/-- The spelling of the second operation. -/
def programWordName : List Char := ['p', 'r', 'o', 'g', 'r', 'a', 'm', '_', 'w', 'o', 'r', 'd']

/-- One line of a host program; an erase is assembled with a `DATA` word of 0. -/
def assembleLine (line : List Char) : Option Frame :=
  match tokens [] line with
  | [op, a] =>
    if op = erasePageName then (literal a).map (fun x => ⟨0x1#32, x, 0#32⟩) else none
  | [op, a, comma, v] =>
    if op = programWordName ∧ comma = [','] then
      match literal a, literal v with
      | some x, some y => some ⟨0x2#32, x, y⟩
      | _, _ => none
    else none
  | _ => none

/-- A host program: a list of command lines (30_encoding R108, 60_exceptions R286). -/
def assemble : List (List Char) → Option (List Frame)
  | [] => some []
  | line :: rest =>
    match assembleLine line, assemble rest with
    | some f, some fs => some (f :: fs)
    | _, _ => none

/-! ### The opcode table's words -/

/-- The frame whose bits, numbered from the least significant bit of its first word, are `w`. -/
def frameOfBits (w : Nat) : Frame :=
  ⟨BitVec.ofNat 32 w, BitVec.ofNat 32 (w / 2 ^ 32), BitVec.ofNat 32 (w / 2 ^ 64)⟩

/-- The bus action of a table row that gives every bit of its data word. -/
def tableDataWord (w : Nat) : Option Instr :=
  if w = 0x45670123 then some .wrKeyrKey1
  else if w = 0xCDEF89AB then some .wrKeyrKey2
  else if w = 0x20 then some .w1cSrEop
  else if w = 0x10 then some .w1cSrWrprterr
  else if w = 0x30 then some .w1cSrBoth
  else none

/-- The bus action of a table row that gives only the bit of the `CR` field it modifies. The rows `CLR_PER` and `CLR_PG`
both read 0 with the table's free bits at 0; the first of them is answered. -/
def tableFieldWord (w : Nat) : Option Instr :=
  if w = 0x2 then some .setPer
  else if w = 0x1 then some .setPg
  else if w = 0x40 then some .setStrt
  else if w = 0 then some .clrPer
  else none

/-- The instruction of an opcode-table word. The table's `bus_action` rows give the data word and not the access's address,
so a word alone does not say which format it is of. DESIGN CHOICE (log entry 20): a word of 32 bits or more is a command frame
if the frame decoder reads it, and else a bus action's data word; a shorter word is the field of a `CR` modify. -/
def decodeTableWord (nbits w : Nat) : Option Instr :=
  if nbits < 32 then tableFieldWord w
  else match decodeFrame (frameOfBits w) with
    | .ok i => some i
    | .error _ => (tableDataWord w).orElse (fun _ => tableFieldWord w)

end Sys2Proof
end

