-- ==== Sys2Proof/Machine/State.lean ====
section
/-! DEFINITION. The state of the whole machine as plain data: the sequencer's registers (10_state section 1), the two ports
(section 2), the environment (section 3), the parameters, and the four fields that are the model's own. -/

namespace Sys2Proof.Machine

/-- The seventeen states of the sequencer (10_state R31). Their codes are `Fsm.code`. -/
inductive Fsm where
  | idle
  | chkBusy
  | chkLock
  | key1
  | key2
  | rechkLock
  | scrub
  | setEn
  | latchAddr
  | start
  | payload
  | poll
  | chkEop
  | clrEop
  | clrErr
  | clrEn
  | respond
deriving DecidableEq, Repr

/-- The eight outcomes of a command (30_encoding R104). All eight values of the 3-bit field are used. -/
inductive CmdOutcome where
  | success
  | busy
  | eraseFailed
  | programFailed
  | unlockFailed
  | timeout
  | invalidAddress
  | invalidCommand
deriving DecidableEq, Repr

/-- The key-sequence state of the unlock-key port (10_state R40). -/
inductive KeyState where
  | locked
  | key1Seen
  | unlocked
  | lockedOut
deriving DecidableEq, Repr

/-- The operation the flash macro has in flight (10_state R47). -/
inductive Inflight where
  | none
  | erase (page : Nat)
  | program (addr value : Word)
deriving DecidableEq, Repr

/-- The three latched status flags as a group: used for the flags a completion raises and for those it owes
(44_regif_actions R255, R257). -/
structure StatusFlags where
  eop : Bool
  wrprterr : Bool
  pgerr : Bool
deriving DecidableEq, Repr

/-- The stored fields of `CR` (10_state R45). `LOCK` is not among them: it is a function of `key` (R41). -/
structure ControlReg where
  pg : Bool
  per : Bool
  mer : Bool
  optpg : Bool
  opter : Bool
  strt : Bool
  optwre : Bool
  errie : Bool
  eopie : Bool
  oblLaunch : Bool
deriving DecidableEq, Repr

/-- The four registers of the flash peripheral that the spec gives (20_memory R70). -/
inductive Reg where
  | keyr
  | sr
  | cr
  | ar
deriving DecidableEq, Repr

/-- One move of one agent (00_scope R16). A list of these in the state is the interleaving still to come. -/
inductive Move where
  /-- the sequencer takes its step (43_poll_classify R200) -/
  | sequencer
  /-- the flash macro takes its step (44_regif_actions R255, R257) -/
  | completion
  /-- the host writes a frame and sets `cmd_pending` (60_exceptions R285) -/
  | issue (cmd addr data : Word)
  /-- the host reads `rsp_valid` (60_exceptions R285) -/
  | pollValid
  /-- the host collects the outcome from `RSP` (60_exceptions R285) -/
  | collect
  /-- the host reads `RSP` without taking it as an outcome (93_implementation_defined I12) -/
  | readRsp
  /-- the host, or another agent, reads `width` bytes of the array (20_memory R78) -/
  | readFlash (addr : Word) (width : Nat)
  /-- the host asserts a device reset (70_reset_and_hazards R300) -/
  | deviceReset
  /-- a register read by an agent other than the sequencer -/
  | foreignRead (r : Reg)
  /-- a register write by an agent other than the sequencer -/
  | foreignWrite (r : Reg) (value : Word)
  /-- a write of `width` bytes to the array by an agent other than the sequencer -/
  | foreignArrayWrite (addr : Word) (width : Nat) (value : Word)
deriving DecidableEq, Repr

/-- The flash array as the bytes that differ from the erased value, addresses strictly rising (`Memory.wf`). -/
abbrev Memory := List Host.Cell

/-- The sequencer's own registers (10_state R31 to R36). -/
structure Fcs where
  /-- `st`, the FSM state register; codes 17 to 31 are unused -/
  st : BitVec 5
  /-- `c_op` -/
  cOp : BitVec 2
  /-- `c_addr` -/
  cAddr : Word
  /-- `c_data` -/
  cData : Word
  /-- `n`, the poll counter, a natural number -/
  n : Nat
  /-- `stale` -/
  stale : Bool
  /-- `cap_eop` -/
  capEop : Bool
  /-- `cap_wrp` -/
  capWrp : Bool
  /-- `out`, the pending outcome -/
  out : CmdOutcome
deriving DecidableEq, Repr

/-- The command port and the response port (10_state R37, R38). -/
structure Ports where
  cmd : Word
  addr : Word
  data : Word
  cmdPending : Bool
  rsp : Word
  rspValid : Bool
deriving DecidableEq, Repr

/-- The environment (10_state section 3): the register interface, the flash macro and the flash array. -/
structure Flash where
  /-- `key` -/
  key : KeyState
  /-- `SR.BSY` -/
  bsy : Bool
  /-- `SR.EOP` -/
  eop : Bool
  /-- `SR.WRPRTERR` -/
  wrprterr : Bool
  /-- `SR.PGERR` -/
  pgerr : Bool
  /-- `CR` but for `LOCK` -/
  cr : ControlReg
  /-- `AR` -/
  ar : Word
  /-- `inflight` -/
  inflight : Inflight
  /-- the flags owed between the two steps of a split completion (44_regif_actions R257) -/
  owed : StatusFlags
  /-- `mem` -/
  mem : Memory
deriving DecidableEq, Repr

/-- The whole machine. -/
structure State where
  fcs : Fcs
  port : Ports
  flash : Flash
  /-- the parameters of 00_scope R8; no step changes them -/
  cfg : Config
  /-- the model's own: the value the sequencer's last bus read returned (43_poll_classify R200) -/
  busData : Word
  /-- the model's own: the value the last read by the host or another agent returned -/
  hostData : Word
  /-- the model's own: how many draws have been taken (the argument of `Config.drawBool`, `drawWord`, `drawByte`) -/
  draws : Nat
  /-- the model's own: the moves of the agents still to come; when it is empty the sequencer moves -/
  moves : List Move
  /-- the model's own: whether the first power-up, which draws the array's contents, is done (10_state R52) -/
  poweredUp : Bool
deriving DecidableEq, Repr

/-- Why the machine stops (60_exceptions R277). A fault is never cleared and a faulted state is never final. Every one is safe:
the model stops where the hardware is excluded, or stands for a bus error. -/
inductive Fault where
  /-- raised by a sequencer step with `st` outside 0 to 16, or at a (state, `c_op`) pair no command reaches
  (10_state R31, 43_poll_classify R201); safe -/
  | illegalFsmState
  /-- raised by a `KEYR` write while `LockedOut`, only with `KEYR_LOCKOUT_WRITE = fault` (44_regif_actions R238); safe -/
  | keyWriteWhileLockedOut
  /-- raised by an array write that 44_regif_actions R245 does not admit (R246); safe -/
  | unexpectedFlashWrite
  /-- raised by a misaligned 32-bit array write (20_memory R74); safe -/
  | misalignedFlashWrite
  /-- raised by a host move that 60_exceptions R285 forbids; safe -/
  | hostProtocolViolation
deriving DecidableEq, Repr

/-- What the model gives no meaning to (00_scope R15). -/
inductive Refusal where
  /-- an instruction of the opcode table without a meaning; raised by no arm of this model; safe -/
  | notModelled (mnemonic : String)
  /-- raised by a read of the array that 20_memory R78 does not describe: a width other than 1, 2 and 4, a misaligned one, or
  one not inside the array; safe -/
  | arrayReadNotDescribed
deriving DecidableEq, Repr

/-- No status flag. -/
def StatusFlags.clear : StatusFlags := ⟨false, false, false⟩

/-- Every stored `CR` field 0 (10_state R51). -/
def ControlReg.clear : ControlReg := ⟨false, false, false, false, false, false, false, false, false, false⟩

/-- The sequencer's registers after reset (10_state R50). `c_op`, `c_addr` and `c_data` are unspecified there; 0 is a
DESIGN CHOICE (log entry 2). -/
def Fcs.reset : Fcs := ⟨0#5, 0#2, 0#32, 0#32, 0, false, false, false, .success⟩

/-- The ports after reset (10_state R50). `CMD`, `ADDR` and `DATA` are unspecified there; 0 is a DESIGN CHOICE
(log entry 2). -/
def Ports.reset : Ports := ⟨0#32, 0#32, 0#32, false, 0#32, false⟩

/-- The environment's reset values (10_state R51) around given array contents. -/
def Flash.reset (mem : Memory) : Flash :=
  ⟨.locked, false, false, false, false, ControlReg.clear, 0#32, .none, StatusFlags.clear, mem⟩

/-- The machine right after reset, before its first power-up: the array lists nothing, and the first step, whatever is
scheduled, is the power-up that draws its contents (10_state R52, log entry 3). The parameters are configuration EX
(log entry 1). -/
def State.reset : State where
  fcs := Fcs.reset
  port := Ports.reset
  flash := Flash.reset []
  cfg := Config.ex
  busData := 0#32
  hostData := 0#32
  draws := 0
  moves := []
  poweredUp := false

end Sys2Proof.Machine
end

