-- ==== Sys2Proof/Machine/Ops.lean ====
section
/-! DEFINITION. The named operations that every step is made of: the codes of the sequencer's states, the parts of the state,
`goto` and `finish` (the shared way a command ends, the hardware's only exception mechanism, 60_exceptions R270), the draws,
and the flash array's memory. -/

namespace Sys2Proof.Machine

/-! ### The codes of the sequencer's states (10_state R31) -/

/-- The code of a state. -/
def Fsm.code : Fsm → BitVec 5
  | .idle => 0#5
  | .chkBusy => 1#5
  | .chkLock => 2#5
  | .key1 => 3#5
  | .key2 => 4#5
  | .rechkLock => 5#5
  | .scrub => 6#5
  | .setEn => 7#5
  | .latchAddr => 8#5
  | .start => 9#5
  | .payload => 10#5
  | .poll => 11#5
  | .chkEop => 12#5
  | .clrEop => 13#5
  | .clrErr => 14#5
  | .clrEn => 15#5
  | .respond => 16#5

/-- The state a code names; the codes 17 to 31 name none. -/
def Fsm.ofCode (b : BitVec 5) : Option Fsm :=
  match b.toNat with
  | 0 => some .idle
  | 1 => some .chkBusy
  | 2 => some .chkLock
  | 3 => some .key1
  | 4 => some .key2
  | 5 => some .rechkLock
  | 6 => some .scrub
  | 7 => some .setEn
  | 8 => some .latchAddr
  | 9 => some .start
  | 10 => some .payload
  | 11 => some .poll
  | 12 => some .chkEop
  | 13 => some .clrEop
  | 14 => some .clrErr
  | 15 => some .clrEn
  | 16 => some .respond
  | _ => none

/-! ### The parts of the state -/

/-- Replaces the sequencer's registers. -/
def State.setFcs (s : State) (f : Fcs) : State := { s with fcs := f }

/-- Replaces the ports. -/
def State.setPort (s : State) (p : Ports) : State := { s with port := p }

/-- Replaces the environment. -/
def State.setFlash (s : State) (f : Flash) : State := { s with flash := f }

/-- Records the value a bus read of the sequencer returned. -/
def State.setBusData (s : State) (w : Word) : State := { s with busData := w }

/-- Records the value a read of the host or of another agent returned. -/
def State.setHostData (s : State) (w : Word) : State := { s with hostData := w }

/-- Replaces the schedule of moves. -/
def State.setMoves (s : State) (ms : List Move) : State := { s with moves := ms }

/-- Records that the first power-up is done (10_state R52). -/
def State.setPowered (s : State) : State := { s with poweredUp := true }

/-- Counts `k` more draws as taken (00_scope R15). -/
def State.drawn (s : State) (k : Nat) : State := { s with draws := s.draws + k }

/-- `goto q` (00_scope R13). -/
def State.goto (s : State) (q : Fsm) : State := s.setFcs { s.fcs with st := q.code }

/-- `finish(o)`: the pending outcome is `o` and the response step is next (43_poll_classify R217). -/
def State.finish (s : State) (o : CmdOutcome) : State :=
  s.setFcs { s.fcs with out := o, st := Fsm.respond.code }

/-- The outcome `o` is pending and the enable bit is still to be cleared (43_poll_classify R217, R203). -/
def State.conclude (s : State) (o : CmdOutcome) (q : Fsm) : State :=
  s.setFcs { s.fcs with out := o, st := q.code }

/-! ### The draws (00_scope R15) -/

/-- The truth value of the next draw but `k`. -/
def State.nextBool (s : State) (k : Nat) : Bool := Config.drawBool (s.draws + k)

/-- The word of the next draw. -/
def State.nextWord (s : State) : Word := Config.drawWord s.draws

/-- The byte of the next draw for an address. -/
def State.nextByte (s : State) (a : Nat) : Byte := Config.drawByte s.draws a

/-! ### The flash array (10_state R48, 20_memory R72) -/

namespace Memory

/-- The erased value of a byte (10_state R48), which is also what an address that is not listed reads as (log entry 3). -/
def erased : Byte := 0xFF#8

/-- The byte at an address. -/
def read : Memory → Nat → Byte
  | [], _ => erased
  | (k, b) :: m, a => if k = a then b else read m a

/-- Writes one byte and keeps the canonical form: an erased byte is not listed. -/
def write : Memory → Nat → Byte → Memory
  | [], a, b => if b = erased then [] else [(a, b)]
  | (k, v) :: m, a, b =>
    if a < k then (if b = erased then (k, v) :: m else (a, b) :: (k, v) :: m)
    else if a = k then (if b = erased then m else (a, b) :: m)
    else (k, v) :: write m a b

/-- Replaces each of the `len` bytes from `a` by `f` of its address and its old value. -/
def update (f : Nat → Byte → Byte) (m : Memory) (a : Nat) : Nat → Memory
  | 0 => m
  | len + 1 => update f (write m a (f a (read m a))) (a + 1) len

/-- Makes each of the `len` bytes from `a` the erased value (44_regif_actions R255). -/
def eraseRange (m : Memory) (a len : Nat) : Memory :=
  m.filter (fun c => !(decide (a ≤ c.1) && decide (c.1 < a + len)))

/-- The 32-bit word at `a`, little-endian (20_memory R72). -/
def readWord (m : Memory) (a : Nat) : Word :=
  read m (a + 3) ++ read m (a + 2) ++ read m (a + 1) ++ read m a

/-- Byte `i` of a word: `w[8i+7 : 8i]` (20_memory R72). -/
def wordByte (w : Word) (i : Nat) : Byte := w.extractLsb' (8 * i) 8

/-- `word(a) <- w`: byte `a + i` becomes `w[8i+7 : 8i]` (20_memory R72, 44_regif_actions R255). -/
def writeWord (m : Memory) (a : Nat) (w : Word) : Memory :=
  update (fun x _ => wordByte w (x - a)) m a Config.wordBytes

/-- Strictly rising addresses, all at least `lo`, and no erased byte listed. -/
def wfFrom (lo : Nat) : Memory → Bool
  | [] => true
  | (k, b) :: m => decide (lo ≤ k) && b != erased && wfFrom (k + 1) m

/-- The canonical form of a memory. -/
def wf (m : Memory) : Bool := wfFrom 0 m

/-- Whether every listed byte lies inside the flash array (10_state R48). -/
def within (c : Config) (m : Memory) : Bool := m.all (fun cell => c.contains cell.1 1)

end Memory

end Sys2Proof.Machine
end

