-- ==== Sys2Proof/Machine/Operands.lean ====
section
/-! DEFINITION. The operands of commands and operations: address validation, pages, the bytes an operation in flight covers,
the acceptance of a frame, and the operands a bus action takes from the sequencer. -/

namespace Sys2Proof.Machine

/-- `page_of(a)` (00_scope R9). -/
def pageOf (c : Config) (a : Nat) : Nat := (a - c.base) / Config.pageSize

/-- `page_base(p)` (00_scope R9). -/
def pageBase (c : Config) (p : Nat) : Nat := c.base + p * Config.pageSize

/-- `valid_addr` on unbounded naturals (40_entry_unlock R133). No operation is named by the opcodes `0b00` and `0b11`. -/
def validAddr (c : Config) (op : BitVec 2) (a : Word) : Bool :=
  if op = opErase then
    decide (a.toNat % Config.pageSize = 0) && decide (c.base ≤ a.toNat)
      && decide (a.toNat + Config.pageSize ≤ c.flashEnd)
  else if op = opProgram then
    decide (a.toNat % Config.wordBytes = 0) && decide (c.base ≤ a.toNat)
      && decide (a.toNat + Config.wordBytes ≤ c.flashEnd)
  else false

/-- Whether `FLASH_BASE <= a < FLASH_END` (44_regif_actions R242). -/
def inArray (c : Config) (a : Nat) : Bool := decide (c.base ≤ a) && decide (a < c.flashEnd)

/-- The first byte and the number of bytes an operation in flight covers (20_memory R78). -/
def coveredRange (c : Config) : Inflight → Nat × Nat
  | .none => (0, 0)
  | .erase p => (pageBase c p, Config.pageSize)
  | .program a _ => (a.toNat, Config.wordBytes)

/-- Whether an operation in flight covers any of the `len` bytes from `a` (20_memory R78). -/
def covers (c : Config) (op : Inflight) (a len : Nat) : Bool :=
  let r := coveredRange c op
  decide (r.1 < a + len) && decide (a < r.1 + r.2)

/-- What every acceptance writes (40_entry_unlock R131, before the checks). -/
def accept (op : BitVec 2) (addr data : Word) (s : State) : State :=
  (s.setFcs { s.fcs with cOp := op, cAddr := addr, cData := data, n := 0, capEop := false, capWrp := false }).setPort
    { s.port with cmdPending := false, rspValid := false }

/-- The address check that ends an acceptance (40_entry_unlock R131, R133). -/
def validateAddr (s : State) : State :=
  if validAddr s.cfg s.fcs.cOp s.fcs.cAddr = true then s.goto .chkBusy else s.finish .invalidAddress

/-- The acceptance of an illegal frame (40_entry_unlock R131, R132). -/
def acceptIllegal (f : Frame) (s : State) : State :=
  (accept (cmdOp f.cmd) f.addr f.data s).finish .invalidCommand

/-- The frame on the command port (30_encoding R100). -/
def portFrame (s : State) : Frame := ⟨s.port.cmd, s.port.addr, s.port.data⟩

/-- Whether a pair of a state and an opcode can be reached by a command: outside `IDLE` and `RESPOND` the opcode is one of the
two, `PAYLOAD` belongs to a program, and `START` to an erase or, with `PROGRAM_STRT`, to a program (43_poll_classify R201). -/
def pairReachable (c : Config) (q : Fsm) (op : BitVec 2) : Bool :=
  match q with
  | .idle => true
  | .respond => true
  | .start => op == opErase || (op == opProgram && c.programStrt)
  | .payload => op == opProgram
  | _ => op == opErase || op == opProgram

/-- The bus action the sequencer issues in a state, with its operands (43_poll_classify R201); `none` in `IDLE` and `RESPOND`,
which issue none, and at an unreachable pair. -/
def busAction (c : Config) (f : Fcs) (q : Fsm) : Option Instr :=
  if pairReachable c q f.cOp = true then
    match q with
    | .idle => none
    | .chkBusy => some .rdSr
    | .chkLock => some .rdCr
    | .key1 => some .wrKeyrKey1
    | .key2 => some .wrKeyrKey2
    | .rechkLock => some .rdCr
    | .scrub => some .w1cSrBoth
    | .setEn => if f.cOp = opErase then some .setPer else some .setPg
    | .latchAddr => some (.wrAr f.cAddr)
    | .start => some .setStrt
    | .payload => some (.wrMem32 f.cAddr f.cData)
    | .poll => some .rdSr
    | .chkEop => some .rdSr
    | .clrEop => if f.capWrp = true then some .w1cSrBoth else some .w1cSrEop
    | .clrErr => some .w1cSrWrprterr
    | .clrEn => if f.cOp = opErase then some .clrPer else some .clrPg
    | .respond => none
  else none

end Sys2Proof.Machine
end

