-- ==== Sys2Proof/Machine/Flags.lean ====
section
/-! DEFINITION. Every flag computation: the words `SR`, `CR` and `RSP` and the bits read from them, write-1-to-clear, the
flags a completion raises, and the classification of an outcome. -/

namespace Sys2Proof.Machine

/-! ### The status register (10_state R45, 44_regif_actions R231) -/

/-- `zext_32({EOP, WRPRTERR, 0, PGERR, 0, BSY})`. -/
def srBits (eop wrprterr pgerr bsy : Bool) : Word :=
  (BitVec.ofBool eop ++ BitVec.ofBool wrprterr ++ 0#1 ++ BitVec.ofBool pgerr ++ 0#1 ++ BitVec.ofBool bsy).setWidth 32

/-- The value of `SR`. -/
def srWord (f : Flash) : Word := srBits f.eop f.wrprterr f.pgerr f.bsy

/-- `sr.BSY`. -/
def srBsy (w : Word) : Bool := w.getLsbD 0

/-- `sr.WRPRTERR`. -/
def srWrprterr (w : Word) : Bool := w.getLsbD 4

/-- `sr.EOP`. -/
def srEop (w : Word) : Bool := w.getLsbD 5

/-- Write-1-to-clear (44_regif_actions R239): bits 5, 4 and 2 clear their flags; every other bit is ignored. -/
def w1cSr (m : Word) (f : Flash) : Flash :=
  { f with
    eop := f.eop && !m.getLsbD 5
    wrprterr := f.wrprterr && !m.getLsbD 4
    pgerr := f.pgerr && !m.getLsbD 2 }

/-! ### The lock and the control register (10_state R41, R45) -/

/-- `LOCK` as a function of `key` (10_state R41). -/
def lockOf : KeyState → Bool
  | .locked => true
  | .key1Seen => true
  | .unlocked => false
  | .lockedOut => true

/-- `CR`'s bits 13 down to 0: `OBL_LAUNCH`, `EOPIE`, 0, `ERRIE`, `OPTWRE`, 0, `LOCK`, `STRT`, `OPTER`, `OPTPG`, 0, `MER`,
`PER`, `PG`. -/
def crBits (r : ControlReg) (lock : Bool) : Word :=
  (BitVec.ofBool r.oblLaunch ++ BitVec.ofBool r.eopie ++ 0#1 ++ BitVec.ofBool r.errie ++ BitVec.ofBool r.optwre ++ 0#1
    ++ BitVec.ofBool lock ++ BitVec.ofBool r.strt ++ BitVec.ofBool r.opter ++ BitVec.ofBool r.optpg ++ 0#1
    ++ BitVec.ofBool r.mer ++ BitVec.ofBool r.per ++ BitVec.ofBool r.pg).setWidth 32

/-- The value of `CR`. -/
def crWord (f : Flash) : Word := crBits f.cr (lockOf f.key)

/-- `cr.LOCK`. -/
def crLock (w : Word) : Bool := w.getLsbD 7

/-- The stored fields after a whole-word write of `CR`: every field takes its bit, but `STRT` is set by a 1 and not cleared
by a 0 (10_state R45). -/
def crFromWord (old : ControlReg) (w : Word) : ControlReg where
  pg := w.getLsbD 0
  per := w.getLsbD 1
  mer := w.getLsbD 2
  optpg := w.getLsbD 4
  opter := w.getLsbD 5
  strt := old.strt || w.getLsbD 6
  optwre := w.getLsbD 9
  errie := w.getLsbD 10
  eopie := w.getLsbD 12
  oblLaunch := w.getLsbD 13

/-- `RegModify(CR, ...)` (44_regif_actions R240, R241): while `LOCK = 0` the fields change as `g` says, and while `LOCK = 1`
none does. -/
def modifyCr (g : ControlReg → ControlReg) (f : Flash) : Flash :=
  if lockOf f.key = true then f else { f with cr := g f.cr }

/-! ### The flags a completion raises (44_regif_actions R255 to R257) -/

/-- Sets the flags named and leaves the others. -/
def raiseFlags (x : StatusFlags) (f : Flash) : Flash :=
  { f with eop := f.eop || x.eop, wrprterr := f.wrprterr || x.wrprterr, pgerr := f.pgerr || x.pgerr }

/-! ### Outcomes and the response word (30_encoding R104, R105) -/

/-- The 3-bit outcome code. -/
def CmdOutcome.code : CmdOutcome → BitVec 3
  | .success => 0#3
  | .busy => 1#3
  | .eraseFailed => 2#3
  | .programFailed => 3#3
  | .unlockFailed => 4#3
  | .timeout => 5#3
  | .invalidAddress => 6#3
  | .invalidCommand => 7#3

/-- Whether the outcome was classified in `CHK_EOP`, so that `WRP` is reported (43_poll_classify R216). -/
def CmdOutcome.classified : CmdOutcome → Bool
  | .success => true
  | .busy => false
  | .eraseFailed => true
  | .programFailed => true
  | .unlockFailed => false
  | .timeout => false
  | .invalidAddress => false
  | .invalidCommand => false

/-- `zext_32({WRP, OUTCOME})`. -/
def rspWord (wrp : Bool) (o : CmdOutcome) : Word := (BitVec.ofBool wrp ++ o.code).setWidth 32

/-- The `wrp` of 43_poll_classify R216. -/
def rspWrp (f : Fcs) : Bool := f.out.classified && f.capWrp

/-- `Failed(c_op)` (43_poll_classify R201). -/
def failedOutcome (op : BitVec 2) : CmdOutcome := if op = opErase then .eraseFailed else .programFailed

/-- The outcome of the classification table (43_poll_classify R208). -/
def classifyOutcome (eop : Bool) (op : BitVec 2) : CmdOutcome := if eop then .success else failedOutcome op

/-- The next state of the classification table (43_poll_classify R208). -/
def classifyNext (eop wrp : Bool) : Fsm := if eop then .clrEop else if wrp then .clrErr else .clrEn

end Sys2Proof.Machine
end

