-- ==== Sys2Proof/Machine/AddressPayload.lean ====
section
/-! DEFINITION. The address latch `WR_AR` and the payload write `WR_MEM32` (44_regif_actions R243, R245, R246). -/

namespace Sys2Proof.Machine

/-- `RegWrite(AR, a)`: `AR <- a` while `LOCK = 0` (44_regif_actions R243, 92_eei_decisions D39). -/
def latchAr (a : Word) (f : Flash) : Flash := if lockOf f.key = true then f else { f with ar := a }

/-- `WR_AR(a)` (41_erase_page R162, 42_program_word R182). -/
def execWrAr (addr : Word) (s : State) : Host.Outcome State Fault Refusal := .next (s.setFlash (latchAr addr s.flash))

/-- The condition under which an array write starts a program (44_regif_actions R245). -/
def programAdmitted (f : Flash) : Bool := !lockOf f.key && f.cr.pg && !f.cr.per && !f.bsy

/-- The fault of a write of `width` bytes to the array that is not admitted: a misaligned 32-bit one is that of 20_memory R74
(log entry 8), and every other one that of 44_regif_actions R246, one outside the array included (log entry 9). -/
def arrayWriteFault (a : Word) (width : Nat) : Fault :=
  if width = Config.wordBytes ∧ a.toNat % Config.wordBytes ≠ 0 then .misalignedFlashWrite else .unexpectedFlashWrite

/-- `MemWrite(a, 4, v)`, the sequencer's payload write (20_memory R74, 44_regif_actions R245, R246). The array's contents
change only when the flash macro completes. -/
def arrayWrite (a v : Word) (s : State) : Host.Outcome State Fault Refusal :=
  if a.toNat % Config.wordBytes = 0 ∧ s.cfg.contains a.toNat Config.wordBytes = true ∧ programAdmitted s.flash = true then
    .next (s.setFlash { s.flash with inflight := .program a v, bsy := true })
  else .fault (arrayWriteFault a Config.wordBytes)

/-- `WR_MEM32(a, v)` (42_program_word R183). -/
def execWrMem32 (addr value : Word) (s : State) : Host.Outcome State Fault Refusal :=
  arrayWrite addr value s

end Sys2Proof.Machine
end

