-- ==== Sys2Proof/Machine/ControlWrites.lean ====
section
/-! DEFINITION. The read-modify-writes of `CR` (44_regif_actions R240 to R242). -/

namespace Sys2Proof.Machine

/-- `SET_PER` (41_erase_page R161). -/
def execSetPer (s : State) : Host.Outcome State Fault Refusal :=
  .next (s.setFlash (modifyCr (fun r => { r with per := true }) s.flash))

/-- `SET_PG` (42_program_word R181). -/
def execSetPg (s : State) : Host.Outcome State Fault Refusal :=
  .next (s.setFlash (modifyCr (fun r => { r with pg := true }) s.flash))

/-- `CLR_PER` (43_poll_classify R213). -/
def execClrPer (s : State) : Host.Outcome State Fault Refusal :=
  .next (s.setFlash (modifyCr (fun r => { r with per := false }) s.flash))

/-- `CLR_PG` (43_poll_classify R213). -/
def execClrPg (s : State) : Host.Outcome State Fault Refusal :=
  .next (s.setFlash (modifyCr (fun r => { r with pg := false }) s.flash))

/-- Whether a start trigger starts an erase (44_regif_actions R242, the inner condition). -/
def eraseStarts (c : Config) (f : Flash) : Bool :=
  f.cr.per && !f.cr.pg && !f.bsy && inArray c f.ar.toNat

/-- What a start trigger does to the flash macro: it starts the erase of the page that holds `AR`, or nothing
(44_regif_actions R242). -/
def startErase (c : Config) (f : Flash) : Flash :=
  if eraseStarts c f = true then { f with inflight := .erase (pageOf c f.ar.toNat), bsy := true } else f

/-- `RegModify(CR, STRT <- 1)` (44_regif_actions R242). -/
def setStrtFlash (c : Config) (f : Flash) : Flash :=
  if lockOf f.key = true then f else startErase c { f with cr := { f.cr with strt := true } }

/-- `SET_STRT` (41_erase_page R163, 42_program_word R184). -/
def execSetStrt (s : State) : Host.Outcome State Fault Refusal :=
  .next (s.setFlash (setStrtFlash s.cfg s.flash))

end Sys2Proof.Machine
end

