-- ==== Sys2Proof/Machine/FlashMacro.lean ====
section
/-! DEFINITION. The flash macro (44_regif_actions R255 to R257): the completion of the operation in flight, atomic or in two
steps, what a device reset leaves of an interrupted operation (70_reset_and_hazards R303), and the first power-up
(10_state R52). -/

namespace Sys2Proof.Machine

/-- What a completion does to the array and which flags it raises. -/
structure Completion where
  mem : Memory
  flags : StatusFlags
deriving DecidableEq, Repr

/-- The flag of a success. -/
def flagsEop : StatusFlags := ⟨true, false, false⟩

/-- The flag of a write-protected operation. -/
def flagsWrprterr : StatusFlags := ⟨false, true, false⟩

/-- The flag of a program of a word that is not erased. -/
def flagsPgerr : StatusFlags := ⟨false, false, true⟩

/-- Whether the macro rejects an unprotected operation: a draw, and only with `MACRO_MAY_REJECT` (44_regif_actions R255). -/
def rejects (s : State) : Bool := s.cfg.macroMayReject && s.nextBool 0

/-- A word that programming has only partly reached: each bit is old or old AND new (44_regif_actions R255). -/
def partlyProgrammed (old v w : Word) : Word := old &&& (v ||| w)

/-- The completion of `Erase(p)` (44_regif_actions R255). -/
def completeErase (p : Nat) (s : State) : Completion :=
  if s.cfg.wrpPages.contains p = true then ⟨s.flash.mem, flagsWrprterr⟩
  else if rejects s = true then
    ⟨Memory.update (fun a b => b ||| s.nextByte a) s.flash.mem (pageBase s.cfg p) Config.pageSize, StatusFlags.clear⟩
  else ⟨Memory.eraseRange s.flash.mem (pageBase s.cfg p) Config.pageSize, flagsEop⟩

/-- The completion of `Program(a, v)` (44_regif_actions R255, R256). -/
def completeProgram (a v : Word) (s : State) : Completion :=
  let old := Memory.readWord s.flash.mem a.toNat
  if s.cfg.wrpPages.contains (pageOf s.cfg a.toNat) = true then ⟨s.flash.mem, flagsWrprterr⟩
  else if rejects s = true then
    ⟨Memory.writeWord s.flash.mem a.toNat (partlyProgrammed old v s.nextWord), StatusFlags.clear⟩
  else if old = 0xFFFFFFFF#32 then ⟨Memory.writeWord s.flash.mem a.toNat v, flagsEop⟩
  else if s.nextBool 1 = true then ⟨s.flash.mem, flagsPgerr⟩
  else ⟨Memory.writeWord s.flash.mem a.toNat (s.nextWord &&& old), flagsEop⟩

/-- The flags of a completion: raised at once, or owed under `SPLIT_COMPLETION` (44_regif_actions R257). -/
def raiseOrOwe (c : Config) (x : StatusFlags) (f : Flash) : Flash :=
  if c.splitCompletion = true then { f with owed := x } else raiseFlags x f

/-- The end of an operation: `BSY <- 0; STRT <- 0; inflight <- None`, with the completion's contents and flags
(44_regif_actions R255). Every completion counts two draws, whether it uses them or not. -/
def settle (r : Completion) (s : State) : State :=
  (s.setFlash (raiseOrOwe s.cfg r.flags
    { s.flash with mem := r.mem, bsy := false, cr := { s.flash.cr with strt := false }, inflight := .none })).drawn 2

/-- The second step of a split completion: the owed flags are set (44_regif_actions R257). -/
def payOwed (s : State) : State :=
  s.setFlash { raiseFlags s.flash.owed s.flash with owed := StatusFlags.clear }

/-- The flash macro's step. The macro does one thing after another: what it owes comes first (log entry 11). With nothing
owed and nothing in flight it has no step, and nothing changes. -/
def completionStep (s : State) : State :=
  if s.flash.owed = StatusFlags.clear then
    match s.flash.inflight with
    | .none => s
    | .erase p => settle (completeErase p s) s
    | .program a v => settle (completeProgram a v s) s
  else payOwed s

/-- The array after a device reset: each byte of an operation in flight is a draw (70_reset_and_hazards R303). -/
def resetMem (s : State) : Memory :=
  let r := coveredRange s.cfg s.flash.inflight
  Memory.update (fun a _ => s.nextByte a) s.flash.mem r.1 r.2

/-- The sequencer's registers after a device reset: 10_state R50, with a draw for each unspecified one
(93_implementation_defined I11). -/
def resetFcs (s : State) : Fcs :=
  { Fcs.reset with
    cOp := (Config.drawWord s.draws).extractLsb' 0 2
    cAddr := Config.drawWord (s.draws + 1)
    cData := Config.drawWord (s.draws + 2) }

/-- The ports after a device reset: 10_state R50, with a draw for each unspecified one (93_implementation_defined I11). -/
def resetPorts (s : State) : Ports :=
  { Ports.reset with
    cmd := Config.drawWord (s.draws + 3)
    addr := Config.drawWord (s.draws + 4)
    data := Config.drawWord (s.draws + 5) }

/-- The array at first power-up: every byte is a draw (10_state R52, 93_implementation_defined I10). -/
def powerUpMem (s : State) : Memory :=
  Memory.update (fun a _ => s.nextByte a) [] s.cfg.base s.cfg.flashSize

/-- The sequencer, the ports and the environment at their reset values, around given array contents, in one step. -/
def resetTo (mem : Memory) (s : State) : State :=
  (((s.setFcs (resetFcs s)).setPort (resetPorts s)).setFlash (Flash.reset mem)).drawn 6

/-- A device reset (70_reset_and_hazards R300 to R303). -/
def deviceReset (s : State) : State := resetTo (resetMem s) s

/-- The first power-up (10_state R52): a reset with the array's contents drawn, after which the machine is powered up. -/
def powerUp (s : State) : State := (resetTo (powerUpMem s) s).setPowered

end Sys2Proof.Machine
end

