-- ==== Sys2Proof/Machine/KeyPort.lean ====
section
/-! DEFINITION. The key port (44_regif_actions R235 to R238). -/

namespace Sys2Proof.Machine

/-- `next_key` while neither `Unlocked` nor `LockedOut` (44_regif_actions R236, first two rows). -/
def handshakeKey (key : KeyState) (k : Word) : KeyState :=
  match key with
  | .locked => if k = Config.key1 then .key1Seen else .lockedOut
  | .key1Seen => if k = Config.key2 then .unlocked else .lockedOut
  | .unlocked => .unlocked
  | .lockedOut => .lockedOut

/-- `RegWrite(KEYR, k)` (44_regif_actions R235, R236, R238). A write while `Unlocked` draws its result from
`Unlocked` and `LockedOut`. -/
def keyWrite (k : Word) (s : State) : Host.Outcome State Fault Refusal :=
  match s.flash.key with
  | .locked => .next (s.setFlash { s.flash with key := handshakeKey .locked k })
  | .key1Seen => .next (s.setFlash { s.flash with key := handshakeKey .key1Seen k })
  | .unlocked =>
    .next ((s.setFlash { s.flash with key := if s.nextBool 0 then .unlocked else .lockedOut }).drawn 1)
  | .lockedOut =>
    match s.cfg.keyrLockoutWrite with
    | .ignored => .next s
    | .fault => .fault .keyWriteWhileLockedOut

/-- `WR_KEYR(KEY1)` (40_entry_unlock R139). -/
def execWrKeyrKey1 (s : State) : Host.Outcome State Fault Refusal := keyWrite Config.key1 s

/-- `WR_KEYR(KEY2)` (40_entry_unlock R140). -/
def execWrKeyrKey2 (s : State) : Host.Outcome State Fault Refusal := keyWrite Config.key2 s

end Sys2Proof.Machine
end

