-- ==== Sys2Proof/Machine/BusReads.lean ====
section
/-! DEFINITION. The register reads `RD_SR` and `RD_CR` (44_regif_actions R231, R232). They change nothing but the read-data
value. -/

namespace Sys2Proof.Machine

/-- `RD_SR` (44_regif_actions R231). -/
def execRdSr (s : State) : Host.Outcome State Fault Refusal := .next (s.setBusData (srWord s.flash))

/-- `RD_CR` (44_regif_actions R232). -/
def execRdCr (s : State) : Host.Outcome State Fault Refusal := .next (s.setBusData (crWord s.flash))

end Sys2Proof.Machine
end

