-- ==== Sys2Proof/Machine/Commands.lean ====
section
/-! DEFINITION. The two commands (41_erase_page R160, 42_program_word R180). Executing a command is the step of `IDLE` that
accepts its frame (40_entry_unlock R131, R133); the steps after it are the bus actions, in the order of
43_poll_classify R201 (`Machine/Sequencer.lean`). -/

namespace Sys2Proof.Machine

/-- `ERASE_PAGE`: accepts the frame and checks the page address. -/
def execErasePage (addr data : Word) (s : State) : Host.Outcome State Fault Refusal :=
  .next (validateAddr (accept opErase addr data s))

/-- `PROGRAM_WORD`: accepts the frame and checks the word address. -/
def execProgramWord (addr value : Word) (s : State) : Host.Outcome State Fault Refusal :=
  .next (validateAddr (accept opProgram addr value s))

end Sys2Proof.Machine
end

