-- ==== Sys2Proof/Machine/StatusClears.lean ====
section
/-! DEFINITION. The status-register clears `W1C_SR(m)` (44_regif_actions R239). They are not gated by `LOCK`. -/

namespace Sys2Proof.Machine

/-- `W1C_SR(0x20)` (43_poll_classify R209). -/
def execW1cSrEop (s : State) : Host.Outcome State Fault Refusal := .next (s.setFlash (w1cSr 0x20#32 s.flash))

/-- `W1C_SR(0x10)` (43_poll_classify R211). -/
def execW1cSrWrprterr (s : State) : Host.Outcome State Fault Refusal := .next (s.setFlash (w1cSr 0x10#32 s.flash))

/-- `W1C_SR(0x30)` (40_entry_unlock R144, 43_poll_classify R209). -/
def execW1cSrBoth (s : State) : Host.Outcome State Fault Refusal := .next (s.setFlash (w1cSr 0x30#32 s.flash))

end Sys2Proof.Machine
end

