-- ==== Sys2Proof/Machine/Dispatch.lean ====
section
/-! DEFINITION. One arm per instruction, each a call of that instruction's meaning. -/

namespace Sys2Proof.Machine

def exec (i : Instr) (s : State) : Host.Outcome State Fault Refusal :=
  match i with
  | .erasePage addr data => Sys2Proof.Machine.execErasePage addr data s
  | .programWord addr value => Sys2Proof.Machine.execProgramWord addr value s
  | .rdSr => Sys2Proof.Machine.execRdSr s
  | .rdCr => Sys2Proof.Machine.execRdCr s
  | .wrKeyrKey1 => Sys2Proof.Machine.execWrKeyrKey1 s
  | .wrKeyrKey2 => Sys2Proof.Machine.execWrKeyrKey2 s
  | .w1cSrEop => Sys2Proof.Machine.execW1cSrEop s
  | .w1cSrWrprterr => Sys2Proof.Machine.execW1cSrWrprterr s
  | .w1cSrBoth => Sys2Proof.Machine.execW1cSrBoth s
  | .setPer => Sys2Proof.Machine.execSetPer s
  | .setPg => Sys2Proof.Machine.execSetPg s
  | .clrPer => Sys2Proof.Machine.execClrPer s
  | .clrPg => Sys2Proof.Machine.execClrPg s
  | .setStrt => Sys2Proof.Machine.execSetStrt s
  | .wrAr addr => Sys2Proof.Machine.execWrAr addr s
  | .wrMem32 addr value => Sys2Proof.Machine.execWrMem32 addr value s

end Sys2Proof.Machine
end

