-- ==== Sys2Proof/Machine/Sequencer.lean ====
section
/-! DEFINITION. The sequencer's step (43_poll_classify R200) and its transition table (R201). A step in `IDLE` accepts the
frame on the command port; a step in `RESPOND` posts the response; a step in every other state runs one bus action and then
takes the table's transition on the value the action read. -/

namespace Sys2Proof.Machine

/-- The successor of the two lock checks when the control register is open (40_entry_unlock R137, R141). -/
def afterUnlocked (s : State) : State := if s.fcs.stale = true then s.goto .scrub else s.goto .setEn

/-- Entry to `POLL`: `n <- 0; goto POLL` (41_erase_page R163, 42_program_word R183, R184). -/
def enterPoll (s : State) : State := (s.setFcs { s.fcs with n := 0 }).goto .poll

/-- The end of polling without an answer: `out <- Timeout; stale <- 1; goto CLR_EN` (43_poll_classify R203). -/
def timeOut (s : State) : State := (s.setFcs { s.fcs with stale := true }).conclude .timeout .clrEn

/-- `POLL` after its read (43_poll_classify R202). -/
def pollNext (s : State) : State :=
  let t := s.setFcs { s.fcs with n := s.fcs.n + 1 }
  if srBsy s.busData = false then t.goto .chkEop
  else if s.fcs.n + 1 = s.cfg.pollLimit then timeOut t
  else t.goto .poll

/-- `CHK_EOP` after its read (43_poll_classify R207, R208). -/
def classify (s : State) : State :=
  let eop := srEop s.busData
  let wrp := srWrprterr s.busData
  (s.setFcs { s.fcs with capEop := eop, capWrp := wrp }).conclude (classifyOutcome eop s.fcs.cOp) (classifyNext eop wrp)

/-- `RESPOND` (43_poll_classify R216). -/
def respond (s : State) : State :=
  (s.setPort { s.port with rsp := rspWord (rspWrp s.fcs) s.fcs.out, rspValid := true }).goto .idle

/-- The transition of a state after its bus action (43_poll_classify R201); `s` is the state the action left. -/
def advance (q : Fsm) (s : State) : State :=
  match q with
  | .idle => s
  | .chkBusy => if srBsy s.busData = true then s.finish .busy else s.goto .chkLock
  | .chkLock => if crLock s.busData = true then s.goto .key1 else afterUnlocked s
  | .key1 => s.goto .key2
  | .key2 => s.goto .rechkLock
  | .rechkLock => if crLock s.busData = true then s.finish .unlockFailed else afterUnlocked s
  | .scrub => (s.setFcs { s.fcs with stale := false }).goto .setEn
  | .setEn => s.goto .latchAddr
  | .latchAddr => if s.fcs.cOp = opErase then s.goto .start else s.goto .payload
  | .start => enterPoll s
  | .payload => if s.cfg.programStrt = true then s.goto .start else enterPoll s
  | .poll => pollNext s
  | .chkEop => classify s
  | .clrEop => s.goto .clrEn
  | .clrErr => s.goto .clrEn
  | .clrEn => s.goto .respond
  | .respond => s

/-- The transition after what the bus action answered. -/
def thenAdvance (q : Fsm) (o : Host.Outcome State Fault Refusal) : Host.Outcome State Fault Refusal :=
  match o with
  | .next s => .next (advance q s)
  | .fault r => .fault r
  | .refused r => .refused r

/-- Acceptance (40_entry_unlock R131): a legal frame runs its command, an illegal one ends in `InvalidCommand`. -/
def acceptFrame (s : State) : Host.Outcome State Fault Refusal :=
  match decodeFrame (portFrame s) with
  | .ok i => exec i s
  | .error _ => .next (acceptIllegal (portFrame s) s)

/-- `IDLE`: acceptance, or the hold of 40_entry_unlock R130, which changes nothing. -/
def idleStep (s : State) : Host.Outcome State Fault Refusal :=
  if s.port.cmdPending = true then acceptFrame s else .next s

/-- A state that issues a bus action. -/
def busStep (q : Fsm) (s : State) : Host.Outcome State Fault Refusal :=
  match busAction s.cfg s.fcs q with
  | some i => thenAdvance q (exec i s)
  | none => .fault .illegalFsmState

/-- The sequencer's step in a named state. -/
def stepIn (q : Fsm) (s : State) : Host.Outcome State Fault Refusal :=
  match q with
  | .idle => idleStep s
  | .respond => .next (respond s)
  | _ => busStep q s

/-- The sequencer's step (43_poll_classify R200). -/
def sequencerStep (s : State) : Host.Outcome State Fault Refusal :=
  match Fsm.ofCode s.fcs.st with
  | some q => stepIn q s
  | none => .fault .illegalFsmState

/-- The bus action the sequencer's next step issues, if any. -/
def issuedAction (s : State) : Option Instr :=
  match Fsm.ofCode s.fcs.st with
  | some q => busAction s.cfg s.fcs q
  | none => none

/-! ### Placing an instruction where the next step takes it -/

/-- The opcode kept if it names an operation, else `ERASE_PAGE`'s. -/
def legalOpOr (op : BitVec 2) : BitVec 2 := if op = opErase ∨ op = opProgram then op else opErase

/-- A state's code in `st`, with the opcode that goes with it. -/
def State.at (s : State) (q : Fsm) (op : BitVec 2) : State := s.setFcs { s.fcs with st := q.code, cOp := op }

/-- A frame on the command port, the sequencer in `IDLE` (60_exceptions R285). -/
def placeFrame (f : Frame) (s : State) : State :=
  (s.setPort { s.port with cmd := f.cmd, addr := f.addr, data := f.data, cmdPending := true }).goto .idle

/-- Puts the sequencer where its next step runs the instruction: a command on the command port, a bus action by the state
that issues it (10_state R31: `st` names the step executed next). -/
def placeInstr (i : Instr) (s : State) : State :=
  match i with
  | .erasePage a d => placeFrame ⟨0x1#32, a, d⟩ s
  | .programWord a v => placeFrame ⟨0x2#32, a, v⟩ s
  | .rdSr => s.at .chkBusy (legalOpOr s.fcs.cOp)
  | .rdCr => s.at .chkLock (legalOpOr s.fcs.cOp)
  | .wrKeyrKey1 => s.at .key1 (legalOpOr s.fcs.cOp)
  | .wrKeyrKey2 => s.at .key2 (legalOpOr s.fcs.cOp)
  | .w1cSrEop => (s.setFcs { s.fcs with capWrp := false }).at .clrEop (legalOpOr s.fcs.cOp)
  | .w1cSrWrprterr => s.at .clrErr (legalOpOr s.fcs.cOp)
  | .w1cSrBoth => s.at .scrub (legalOpOr s.fcs.cOp)
  | .setPer => s.at .setEn opErase
  | .setPg => s.at .setEn opProgram
  | .clrPer => s.at .clrEn opErase
  | .clrPg => s.at .clrEn opProgram
  | .setStrt => s.at .start opErase
  | .wrAr a => (s.setFcs { s.fcs with cAddr := a }).at .latchAddr (legalOpOr s.fcs.cOp)
  | .wrMem32 a v => (s.setFcs { s.fcs with cAddr := a, cData := v }).at .payload opProgram

end Sys2Proof.Machine
end

