-- ==== Sys2Proof/Machine/HostPort.lean ====
section
/-! DEFINITION. The moves of the host and of agents other than the sequencer (60_exceptions R285), and the interleaving of all
agents (00_scope R16). -/

namespace Sys2Proof.Machine

/-- Whether a command is in progress: it has been accepted and has no response yet (60_exceptions R286). -/
def commandInProgress (s : State) : Bool := s.fcs.st != Fsm.idle.code

/-- Whether the sequencer owns the register interface and the array (60_exceptions R285): during a command, and while
`stale = 1` with an operation in flight. -/
def sequencerOwns (s : State) : Bool :=
  commandInProgress s || (s.fcs.stale && decide (s.flash.inflight ≠ .none))

/-- The host issues a command: only while none is pending or in progress (60_exceptions R285). -/
def hostIssue (cmd addr data : Word) (s : State) : Host.Outcome State Fault Refusal :=
  if s.port.cmdPending = true ∨ commandInProgress s = true then .fault .hostProtocolViolation
  else .next (s.setPort { s.port with cmd := cmd, addr := addr, data := data, cmdPending := true })

/-- The host collects an outcome: only while `rsp_valid = 1` (60_exceptions R285, 10_state R38). -/
def hostCollect (s : State) : Host.Outcome State Fault Refusal :=
  if s.port.rspValid = true then .next (s.setHostData s.port.rsp) else .fault .hostProtocolViolation

/-- The host reads `RSP` and takes no outcome from it: while `rsp_valid = 0` the value is a draw
(93_implementation_defined I12). -/
def hostReadRsp (s : State) : State :=
  if s.port.rspValid = true then s.setHostData s.port.rsp else (s.setHostData s.nextWord).drawn 1

/-- The host reads `rsp_valid` (60_exceptions R285). -/
def hostPollValid (s : State) : State := s.setHostData ((BitVec.ofBool s.port.rspValid).setWidth 32)

/-- The low `width` bytes of a word, zero-extended. -/
def lowBytes (width : Nat) (w : Word) : Word :=
  if width = 1 then (w.extractLsb' 0 8).setWidth 32
  else if width = 2 then (w.extractLsb' 0 16).setWidth 32
  else w

/-- Whether 20_memory R78 describes the read: 1, 2 or 4 bytes, aligned, inside the array. -/
def readDescribed (c : Config) (a width : Nat) : Bool :=
  (width == 1 || width == 2 || width == 4) && decide (a % width = 0) && c.contains a width

/-- `MemRead(a, width)` (20_memory R72, R73, R78): the bytes, little-endian, or a draw while an operation in flight covers
any of them. -/
def readFlash (addr : Word) (width : Nat) (s : State) : Host.Outcome State Fault Refusal :=
  if readDescribed s.cfg addr.toNat width = true then
    if covers s.cfg s.flash.inflight addr.toNat width = true then
      .next ((s.setHostData (lowBytes width s.nextWord)).drawn 1)
    else .next (s.setHostData (lowBytes width (Memory.readWord s.flash.mem addr.toNat)))
  else .refused .arrayReadNotDescribed

/-- `RegWrite(CR, v)` (10_state R45, 44_regif_actions R237, R240): while locked nothing changes; while unlocked the fields
take their bits, a 1 in `STRT` triggers, and a 1 in `LOCK` relocks. -/
def crWrite (c : Config) (v : Word) (f : Flash) : Flash :=
  if lockOf f.key = true then f
  else
    let g := { f with cr := crFromWord f.cr v }
    let h := if v.getLsbD 6 then startErase c g else g
    { h with key := if v.getLsbD 7 then .locked else .unlocked }

/-- A register read (20_memory R76, 10_state R45): `KEYR` reads as 0 and the value of `AR` is a draw
(93_implementation_defined I3). -/
def regRead (r : Reg) (s : State) : State :=
  match r with
  | .keyr => s.setHostData 0#32
  | .sr => s.setHostData (srWord s.flash)
  | .cr => s.setHostData (crWord s.flash)
  | .ar => (s.setHostData s.nextWord).drawn 1

/-- A register write (44_regif_actions R235, R237, R239, R240, R243). -/
def regWrite (r : Reg) (v : Word) (s : State) : Host.Outcome State Fault Refusal :=
  match r with
  | .keyr => keyWrite v s
  | .sr => .next (s.setFlash (w1cSr v s.flash))
  | .cr => .next (s.setFlash (crWrite s.cfg v s.flash))
  | .ar => .next (s.setFlash (latchAr v s.flash))

/-- An access by an agent other than the sequencer: excluded while the sequencer owns the interface (60_exceptions R285). -/
def foreignAccess (s : State) (o : Host.Outcome State Fault Refusal) : Host.Outcome State Fault Refusal :=
  if sequencerOwns s = true then .fault .hostProtocolViolation else o

/-- One move of one agent. Only the sequencer's payload write can start a program: an array write by another agent is a fault
at all times (92_eei_decisions D40, 93_implementation_defined I22). -/
def applyMove (m : Move) (s : State) : Host.Outcome State Fault Refusal :=
  match m with
  | .sequencer => sequencerStep s
  | .completion => .next (completionStep s)
  | .issue cmd addr data => hostIssue cmd addr data s
  | .pollValid => .next (hostPollValid s)
  | .collect => hostCollect s
  | .readRsp => .next (hostReadRsp s)
  | .readFlash addr width => readFlash addr width s
  | .deviceReset => .next (deviceReset s)
  | .foreignRead r => foreignAccess s (.next (regRead r s))
  | .foreignWrite r v => foreignAccess s (regWrite r v s)
  | .foreignArrayWrite addr width _ => foreignAccess s (.fault (arrayWriteFault addr width))

/-- The next agent's step: the first scheduled move, or the sequencer's when none is scheduled. -/
def agentStep (s : State) : Host.Outcome State Fault Refusal :=
  match s.moves with
  | [] => sequencerStep s
  | m :: rest => applyMove m (s.setMoves rest)

/-- One step of the system. A machine that is not powered up yet does one thing, its first power-up (10_state R52). No step
leaves a machine that is not powered up, so there is no second one (log entry 32). -/
def systemStep (s : State) : Host.Outcome State Fault Refusal :=
  if s.poweredUp = true then agentStep s else .next (powerUp s)

/-- The next step is the sequencer's on a machine that is powered up, and it runs the table word's instruction; a word that is none goes to the command port
as it is. -/
def placeWord (nbits w : Nat) (s : State) : State :=
  let t := s.setPowered.setMoves (.sequencer :: s.moves)
  match decodeTableWord nbits w with
  | some i => placeInstr i t
  | none => placeFrame (frameOfBits w) t

end Sys2Proof.Machine
end

