-- ==== Sys2Proof/Machine/Step.lean ====
section
/-! DEFINITION. One step of the whole machine, and the placing of an instruction word where the next step takes it. -/

namespace Sys2Proof.Machine

/-- One step: one move of one agent (00_scope R16), or the first power-up (10_state R52). -/
def step (s : State) : Host.Outcome State Fault Refusal := systemStep s

/-- The state whose very next step runs the opcode-table word `w` (log entry 20). -/
def State.withFetchWord (s : State) (nbits w : Nat) : State := placeWord nbits w s

end Sys2Proof.Machine
end

