-- ==== Sys2Proof/Safety.lean ====
section
/-! DEFINITION. The terms claims are stated in: runs and their bus-action traces, the end of a command and quiescence
(60_exceptions R286), the host's duty, and the invariant of every run in which the host keeps it. -/

namespace Sys2Proof.Machine

/-! ### Runs -/

/-- `k` steps of the machine, stopping at the first fault or refusal. -/
def steps : Nat → State → Host.Outcome State Fault Refusal
  | 0, s => .next s
  | k + 1, s =>
    match step s with
    | .next t => steps k t
    | .fault r => .fault r
    | .refused r => .refused r

/-- Whether the next step is the sequencer's: the machine is powered up, and the sequencer's move is scheduled or none is. -/
def sequencerIsNext (s : State) : Bool :=
  s.poweredUp &&
    match s.moves with
    | [] => true
    | m :: _ => decide (m = .sequencer)

/-- The bus action the machine's next step issues, if any. -/
def nextAction (s : State) : Option Instr := if sequencerIsNext s = true then issuedAction s else none

/-- The bus actions of `k` steps, in order (20_memory R81). -/
def trace : Nat → State → List Instr
  | 0, _ => []
  | k + 1, s =>
    match step s with
    | .next t => (nextAction s).toList ++ trace k t
    | .fault _ => (nextAction s).toList
    | .refused _ => (nextAction s).toList

/-- How many of the next `k` moves of a machine that is powered up are the sequencer's; it moves when none is scheduled. -/
def sequencerMoves : Nat → List Move → Nat
  | 0, _ => 0
  | k + 1, [] => sequencerMoves k [] + 1
  | k + 1, m :: ms => (if m = .sequencer then 1 else 0) + sequencerMoves k ms

/-- The state with an empty schedule. -/
def State.unscheduled (s : State) : State := { s with moves := [] }

/-- The state a step of an agent runs in: the next move is taken off the schedule. -/
def State.taken (s : State) : State := { s with moves := s.moves.tail }

/-! ### The bus-action sequence of a command (40_entry_unlock R145, 41_erase_page R167, 42_program_word R188) -/

/-- `k` moves of the sequencer. -/
def sequencerRun (k : Nat) : List Move := List.replicate k .sequencer

/-- The actions of the entry: the two checks, the handshake if locked, and the scrub if an operation was abandoned. -/
def entryTrace (s : State) : List Instr :=
  [.rdSr, .rdCr] ++ (if s.flash.key = .unlocked then [] else [.wrKeyrKey1, .wrKeyrKey2, .rdCr])
    ++ (if s.fcs.stale = true then [.w1cSrBoth] else [])

/-- The actions of an erase up to its point of no return. -/
def eraseTrace (s : State) (a : Word) : List Instr := entryTrace s ++ [.setPer, .wrAr a, .setStrt]

/-- The actions of a program up to its first poll. -/
def programTrace (s : State) (a v : Word) : List Instr :=
  entryTrace s ++ [.setPg, .wrAr a, .wrMem32 a v] ++ (if s.cfg.programStrt = true then [.setStrt] else [])

/-- `k` polls. -/
def pollTrace (k : Nat) : List Instr := List.replicate k .rdSr

/-- A host that has issued a command and waits, on a machine that is powered up, in which the macro has nothing in flight and
the lock can be opened. -/
def readyFor (s : State) (cmd addr data : Word) : Prop :=
  s.poweredUp = true ∧ s.fcs.st = Fsm.idle.code ∧ s.port.cmdPending = true ∧ s.port.cmd = cmd ∧ s.port.addr = addr ∧ s.port.data = data ∧
    s.flash.bsy = false ∧ (s.flash.key = .unlocked ∨ s.flash.key = .locked)

/-! ### What an agent sees -/

/-- The byte of the flash array at an address. -/
def byteAt (s : State) (a : Nat) : Byte := Memory.read s.flash.mem a

/-- A command has ended (60_exceptions R286). -/
def commandEnded (s : State) : Bool := s.port.rspValid && s.fcs.st == Fsm.idle.code

/-- The system is quiescent (60_exceptions R286). -/
def quiescent (s : State) : Bool :=
  commandEnded s && decide (s.flash.inflight = .none) && !s.port.cmdPending

/-! ### Host programs (30_encoding R108, 60_exceptions R286) -/

/-- The command a move issues, if any. -/
def Move.command? : Move → Option Frame
  | .issue c a d => some ⟨c, a, d⟩
  | .sequencer => none
  | .completion => none
  | .pollValid => none
  | .collect => none
  | .readRsp => none
  | .readFlash _ _ => none
  | .deviceReset => none
  | .foreignRead _ => none
  | .foreignWrite _ _ => none
  | .foreignArrayWrite _ _ _ => none

/-- The commands of the host program that the host has still to issue, in order: its issue moves in the schedule. -/
def commandsToCome (s : State) : List Frame := s.moves.filterMap Move.command?

/-- The schedule of a host program: each command's issue, followed by the moves in which the host waits for it. -/
def programMoves : List (Frame × List Move) → List Move
  | [] => []
  | (f, wait) :: rest => .issue f.cmd f.addr f.data :: wait ++ programMoves rest

/-- The host still has to issue exactly the commands that the lines of a host program assemble to, in order
(30_encoding R108). -/
def issuesProgram (lines : List (List Char)) (s : State) : Bool := decide (assemble lines = some (commandsToCome s))

/-- A host program has ended: none of its commands is still to be issued or accepted, and the last one has ended
(60_exceptions R286). -/
def programEnded (s : State) : Bool := (commandsToCome s).isEmpty && !s.port.cmdPending && commandEnded s

/-! ### What an operation leaves (44_regif_actions R255, R256) -/

/-- The array and the flags that the completion of the erase of page `p` leaves: the contents of `t` and the flags `x`, by what
`s` holds before it. Whether the macro rejects is a draw. -/
def eraseLeaves (s t : State) (p : Nat) (x : StatusFlags) : Prop :=
  if p ∈ s.cfg.wrpPages then t.flash.mem = s.flash.mem ∧ x = ⟨false, true, false⟩
  else if rejects s = true then
    x = ⟨false, false, false⟩ ∧ ∀ y, byteAt s y &&& ~~~(byteAt t y) = 0#8 ∧
      (y < s.cfg.flashBase.toNat + p * 2048 ∨ s.cfg.flashBase.toNat + p * 2048 + 2048 ≤ y → byteAt t y = byteAt s y)
  else
    x = ⟨true, false, false⟩ ∧ ∀ y, byteAt t y =
      if s.cfg.flashBase.toNat + p * 2048 ≤ y ∧ y < s.cfg.flashBase.toNat + p * 2048 + 2048 then 0xFF#8 else byteAt s y

/-- The array and the flags that the completion of the program of `v` at `a` leaves: the contents of `t` and the flags `x`, by
what `s` holds before it. Whether the macro rejects, and which case a word that is not erased takes, are draws. -/
def programLeaves (s t : State) (a v : Word) (x : StatusFlags) : Prop :=
  (∀ y, y < a.toNat ∨ a.toNat + 4 ≤ y → byteAt t y = byteAt s y) ∧
  if (a.toNat - s.cfg.flashBase.toNat) / 2048 ∈ s.cfg.wrpPages then
    t.flash.mem = s.flash.mem ∧ x = ⟨false, true, false⟩
  else if rejects s = true then
    x = ⟨false, false, false⟩ ∧ ∀ i < 4,
      byteAt t (a.toNat + i) &&& ~~~(byteAt s (a.toNat + i)) = 0#8 ∧
      byteAt s (a.toNat + i) &&& v.extractLsb' (8 * i) 8 &&& ~~~(byteAt t (a.toNat + i)) = 0#8
  else if Memory.readWord s.flash.mem a.toNat = 0xFFFFFFFF#32 then
    x = ⟨true, false, false⟩ ∧ ∀ i < 4, byteAt t (a.toNat + i) = v.extractLsb' (8 * i) 8
  else
    (x = ⟨false, false, true⟩ ∧ t.flash.mem = s.flash.mem) ∨
    (x = ⟨true, false, false⟩ ∧ ∀ i < 4, byteAt t (a.toNat + i) &&& ~~~(byteAt s (a.toNat + i)) = 0#8)

/-- The bus actions that clear the flags of an operation, by the flags its completion raised (43_poll_classify R209, R211). -/
def clearTrace (x : StatusFlags) : List Instr :=
  if x.eop then [.w1cSrEop] else if x.wrprterr then [.w1cSrWrprterr] else []

/-! ### The host's duty -/

/-- Whether a move is an access to the registers or a write to the array by an agent other than the sequencer. -/
def Move.isForeign : Move → Bool
  | .sequencer => false
  | .completion => false
  | .issue _ _ _ => false
  | .pollValid => false
  | .collect => false
  | .readRsp => false
  | .readFlash _ _ => false
  | .deviceReset => false
  | .foreignRead _ => true
  | .foreignWrite _ _ => true
  | .foreignArrayWrite _ _ _ => true

/-- Whether a move is the sequencer's or the flash macro's. -/
def Move.isInner : Move → Bool
  | .sequencer => true
  | .completion => true
  | .issue _ _ _ => false
  | .pollValid => false
  | .collect => false
  | .readRsp => false
  | .readFlash _ _ => false
  | .deviceReset => false
  | .foreignRead _ => false
  | .foreignWrite _ _ => false
  | .foreignArrayWrite _ _ _ => false

/-- Exclusive ownership: no scheduled move is a foreign access (60_exceptions R285, R53's condition). -/
def exclusiveOwnership (ms : List Move) : Bool := ms.all (fun m => !m.isForeign)

/-- Only the sequencer and the flash macro are scheduled (60_exceptions R277's "the FCS and the macro alone"). -/
def onlyInner (ms : List Move) : Bool := ms.all Move.isInner

/-! ### The invariant -/

/-- The states from the setting of the enable bit to its clearing: the bit is set in them (43_poll_classify R213). -/
def Fsm.enabled : Fsm → Bool
  | .latchAddr => true
  | .start => true
  | .payload => true
  | .poll => true
  | .chkEop => true
  | .clrEop => true
  | .clrErr => true
  | .clrEn => true
  | _ => false

/-- The states of a command whose frame was legal and valid. -/
def Fsm.inCommand : Fsm → Bool
  | .idle => false
  | .respond => false
  | _ => true

/-- The states that follow a lock check that read 0. -/
def Fsm.opened : Fsm → Bool
  | .scrub => true
  | .setEn => true
  | q => q.enabled

/-- The states in which the macro has nothing in flight: after the entry check and before the start of the operation, and
after the poll that read `BSY = 0`. -/
def Fsm.macroIdle (op : BitVec 2) : Fsm → Bool
  | .chkLock => true
  | .key1 => true
  | .key2 => true
  | .rechkLock => true
  | .scrub => true
  | .setEn => true
  | .latchAddr => true
  | .payload => true
  | .start => op == opErase
  | .chkEop => true
  | .clrEop => true
  | .clrErr => true
  | _ => false

/-- The states of a command that has no abandoned operation behind it: after the scrub and before a timeout. -/
def Fsm.current : Fsm → Bool
  | .setEn => true
  | .latchAddr => true
  | .start => true
  | .payload => true
  | .poll => true
  | .chkEop => true
  | .clrEop => true
  | .clrErr => true
  | _ => false

/-- The states in which a flag of the command's own completion may stand. -/
def Fsm.flagsMayStand (op : BitVec 2) : Fsm → Bool
  | .start => op == opProgram
  | .poll => true
  | .chkEop => true
  | .clrEop => true
  | .clrErr => true
  | _ => false

/-- The states after the address was latched. -/
def Fsm.latched : Fsm → Bool
  | .latchAddr => false
  | q => q.enabled

/-- An operation in flight is on a page of the array, or on a word of it (10_state R47). -/
def targetOk (c : Config) : Inflight → Bool
  | .none => true
  | .erase p => decide (p < c.numPages)
  | .program a _ => decide (a.toNat % Config.wordBytes = 0) && c.contains a.toNat Config.wordBytes

/-- The invariant in a named state of the sequencer. -/
structure InvAt (q : Fsm) (s : State) : Prop where
  /-- the parameters meet 00_scope R8 -/
  config : s.cfg.wf = true
  /-- the host keeps its duty (60_exceptions R285) -/
  owners : exclusiveOwnership s.moves = true
  /-- the array is in canonical form -/
  canonical : Memory.wf s.flash.mem = true
  /-- every listed byte lies in the array (10_state R48) -/
  bounded : Memory.within s.cfg s.flash.mem = true
  /-- `BSY = 1` if and only if an operation is in flight (10_state R47) -/
  busy : s.flash.bsy = true ↔ s.flash.inflight ≠ .none
  /-- the operation in flight has a legal target -/
  target : targetOk s.cfg s.flash.inflight = true
  /-- no unreachable pair (43_poll_classify R201) -/
  pair : pairReachable s.cfg q s.fcs.cOp = true
  /-- the address of a command in progress is valid (40_entry_unlock R133) -/
  address : q.inCommand = true → validAddr s.cfg s.fcs.cOp s.fcs.cAddr = true
  /-- `PER` is set exactly between an erase's `SET_EN` and its `CLR_EN` (10_state R53) -/
  perBit : s.flash.cr.per = (q.enabled && s.fcs.cOp == opErase)
  /-- `PG` is set exactly between a program's `SET_EN` and its `CLR_EN` (10_state R53) -/
  pgBit : s.flash.cr.pg = (q.enabled && s.fcs.cOp == opProgram)
  /-- the control register is open after the lock checks (44_regif_actions R240) -/
  opened : q.opened = true → s.flash.key = .unlocked
  /-- the key port is written only when locked (40_entry_unlock R138) -/
  lockedAtKey1 : q = .key1 → s.flash.key ≠ .unlocked
  /-- after `KEY1` (44_regif_actions R236) -/
  afterKey1 : q = .key2 → s.flash.key = .key1Seen ∨ s.flash.key = .lockedOut
  /-- after `KEY2` (44_regif_actions R236, 90_conflicts C10) -/
  afterKey2 : q = .rechkLock → s.flash.key = .unlocked ∨ s.flash.key = .lockedOut
  /-- nothing is in flight where the sequencer relies on it (70_reset_and_hazards R312) -/
  settled : q.macroIdle s.fcs.cOp = true → s.flash.bsy = false
  /-- the poll counter's range (10_state R33) -/
  polls : s.fcs.n ≤ s.cfg.pollLimit
  /-- a poll is still allowed in `POLL` (43_poll_classify R202) -/
  pollsLeft : q = .poll → s.fcs.n < s.cfg.pollLimit
  /-- `AR` holds the command's address once latched (41_erase_page R164) -/
  latched : q.latched = true → s.flash.ar = s.fcs.cAddr
  /-- an operation in flight is the current command's or an abandoned one (43_poll_classify R205) -/
  abandoned : s.flash.bsy = true → s.fcs.stale = true ∨ q = .poll ∨ q = .start
  /-- `stale` is 0 between the scrub and a timeout (40_entry_unlock R144) -/
  current : q.current = true → s.fcs.stale = false
  /-- an atomic completion owes nothing (44_regif_actions R255) -/
  nothingOwed : s.cfg.splitCompletion = false → s.flash.owed = StatusFlags.clear
  /-- an atomic completion raises one flag -/
  oneFlag : s.cfg.splitCompletion = false → s.fcs.stale = false → ¬(s.flash.eop = true ∧ s.flash.wrprterr = true)
  /-- no stale success and no stale failure (43_poll_classify R210, 70_reset_and_hazards R314) -/
  quiet : s.cfg.splitCompletion = false → s.fcs.stale = false →
    (s.flash.bsy = true ∨ q.flagsMayStand s.fcs.cOp = false) → s.flash.eop = false ∧ s.flash.wrprterr = false
  /-- `CLR_EOP` clears every flag that stands (43_poll_classify R209) -/
  eopCaptured : s.cfg.splitCompletion = false → q = .clrEop → s.flash.wrprterr = true → s.fcs.capWrp = true
  /-- `CLR_ERR` clears every flag that stands (43_poll_classify R211) -/
  errCaptured : s.cfg.splitCompletion = false → q = .clrErr → s.flash.eop = false
  /-- the outcome before the `EOP` clear (43_poll_classify R208) -/
  eopOutcome : q = .clrEop → s.fcs.out = .success
  /-- the outcome before the `WRPRTERR` clear (43_poll_classify R208) -/
  errOutcome : q = .clrErr → s.fcs.out = failedOutcome s.fcs.cOp
  /-- the outcomes of a command that set an enable bit; a timeout leaves `stale` set (43_poll_classify R203, R208) -/
  enOutcome : q = .clrEn → s.fcs.out = .success ∨ s.fcs.out = failedOutcome s.fcs.cOp ∨
    (s.fcs.out = .timeout ∧ s.fcs.stale = true)
  /-- a response stands only in `IDLE` (60_exceptions R286) -/
  posted : s.port.rspValid = true → q = .idle
  /-- a command is pending only in `IDLE` (60_exceptions R274, R285) -/
  pending : s.port.cmdPending = true → q = .idle
  /-- an `UnlockFailed` leaves the peripheral locked out (90_conflicts C10) -/
  unlockFailed : q = .respond → s.fcs.out = .unlockFailed → s.flash.key = .lockedOut
  /-- before its first power-up the machine is at rest, with nothing posted, pending or in flight (10_state R50, R51) -/
  unpowered : s.poweredUp = false →
    q = .idle ∧ s.port.cmdPending = false ∧ s.port.rspValid = false ∧ s.flash.inflight = .none

/-- The invariant of every run in which the host keeps its duty. -/
def Inv (s : State) : Prop := ∃ q : Fsm, s.fcs.st = q.code ∧ InvAt q s

end Sys2Proof.Machine
end

