-- ==== Sys2Proof/Certificates/Slice0/Obligations.lean ====
section
/-! DEFINITION. The statements for the provers. A statement about a draw holds whatever the draw is. -/

open Sys2Proof Sys2Proof.Machine

/-! ### Reset -/

/-- 10_state R50 and R51. -/
def Obligations.ResetLeavesTheSpecifiedValues : Prop :=
  State.reset.fcs.st = 0#5 ∧ State.reset.fcs.n = 0 ∧ State.reset.fcs.stale = false ∧ State.reset.fcs.capEop = false ∧
  State.reset.fcs.capWrp = false ∧ State.reset.fcs.out.code = 0#3 ∧ State.reset.port.cmdPending = false ∧
  State.reset.port.rspValid = false ∧ State.reset.port.rsp = 0#32 ∧ State.reset.flash.key = .locked ∧
  srWord State.reset.flash = 0#32 ∧ crWord State.reset.flash = 0x80#32 ∧ State.reset.flash.ar = 0#32 ∧
  State.reset.flash.inflight = .none

/-- 70_reset_and_hazards R300, R302 and R303: one step puts the sequencer, the ports and the environment in their reset state,
posts no response, and changes no byte of the array outside an operation that was in flight; the bytes of that operation are
draws. The first power-up (10_state R52) does the same, with every byte of the array a draw: it is the step of a machine that is
not powered up yet, whatever is scheduled, and takes no move. That a reset drops owed flags is the model's inference
(log entry 11), and that the first power-up is a step of its own is its choice (log entry 3). -/
def Obligations.DeviceResetResetsAllButTheArray : Prop :=
  ∀ (s : State) (rest : List Move),
    (s.poweredUp = true ∧ s.moves = .deviceReset :: rest) ∨ (s.poweredUp = false ∧ s.moves = rest) →
    ∃ t, step s = .next t ∧ t.moves = rest ∧ t.cfg = s.cfg ∧ t.poweredUp = true ∧
      t.fcs.st = 0#5 ∧ t.fcs.n = 0 ∧ t.fcs.stale = false ∧ t.fcs.capEop = false ∧ t.fcs.capWrp = false ∧
      t.fcs.out.code = 0#3 ∧ t.port.cmdPending = false ∧ t.port.rspValid = false ∧ t.port.rsp = 0#32 ∧
      t.flash.key = .locked ∧ srWord t.flash = 0#32 ∧ crWord t.flash = 0x80#32 ∧ t.flash.ar = 0#32 ∧
      t.flash.inflight = .none ∧ t.flash.owed = ⟨false, false, false⟩ ∧
      (s.poweredUp = true →
        (∀ x, s.flash.inflight = .none → byteAt t x = byteAt s x) ∧
        (∀ p x, s.flash.inflight = .erase p →
          (x < s.cfg.flashBase.toNat + p * 2048 ∨ s.cfg.flashBase.toNat + p * 2048 + 2048 ≤ x) →
          byteAt t x = byteAt s x) ∧
        (∀ a v x, s.flash.inflight = .program a v → (x < a.toNat ∨ a.toNat + 4 ≤ x) → byteAt t x = byteAt s x) ∧
        (∀ p x, s.flash.inflight = .erase p → Memory.wf s.flash.mem = true →
          s.cfg.flashBase.toNat + p * 2048 ≤ x → x < s.cfg.flashBase.toNat + p * 2048 + 2048 →
          byteAt t x = Config.drawByte s.draws x) ∧
        (∀ a v x, s.flash.inflight = .program a v → Memory.wf s.flash.mem = true → a.toNat ≤ x → x < a.toNat + 4 →
          byteAt t x = Config.drawByte s.draws x)) ∧
      (s.poweredUp = false → ∀ x, s.cfg.flashBase.toNat ≤ x → x < s.cfg.flashBase.toNat + s.cfg.flashSize →
        byteAt t x = Config.drawByte s.draws x)

/-! ### Encodings -/

/-- 30_encoding R101 and R106: decoding the encoding of a well-formed instruction gives it back. -/
def Obligations.DecodeOfEncodeIsTheInstruction : Prop :=
  ∀ (c : Config) (i : Instr), i.wf c = true → decode c (encode i) = .ok i

/-- 30_encoding R103 and R106: what the decoder reads is an instruction's own encoding, so no reserved frame and no other bus
access is read as an instruction, and no encoding falls to a neighbour. -/
def Obligations.OnlyAnInstructionsEncodingDecodes : Prop :=
  ∀ (c : Config) (e : Encoding) (i : Instr), decode c e = .ok i → encode i = e ∧ i.wf c = true

/-- Words written out from 30_encoding R101 and R106. -/
def Obligations.WrittenOutWordsDecode : Prop :=
  decodeFrame ⟨0x1#32, 0x08003000#32, 0xDEADBEEF#32⟩ = .ok (.erasePage 0x08003000#32 0xDEADBEEF#32) ∧
  decodeFrame ⟨0x2#32, 0x08003000#32, 0x12345678#32⟩ = .ok (.programWord 0x08003000#32 0x12345678#32) ∧
  decodeBus Config.ex (.read32 0x4002200C#32) = .ok .rdSr ∧
  decodeBus Config.ex (.read32 0x40022010#32) = .ok .rdCr ∧
  decodeBus Config.ex (.write32 0x40022004#32 0x45670123#32) = .ok .wrKeyrKey1 ∧
  decodeBus Config.ex (.write32 0x4002200C#32 0x30#32) = .ok .w1cSrBoth ∧
  decodeBus Config.ex (.modify32 0x40022010#32 0x40#32 0x40#32) = .ok .setStrt ∧
  decodeBus Config.ex (.write32 0x40022014#32 0x08003000#32) = .ok (.wrAr 0x08003000#32) ∧
  decodeBus Config.ex (.write32 0x08003000#32 0x12345678#32) = .ok (.wrMem32 0x08003000#32 0x12345678#32)

/-- 30_encoding R108: a line that assembles gives a legal frame, and an erase's `DATA` word is 0. -/
def Obligations.AssembledLinesAreLegalFrames : Prop :=
  ∀ (line : List Char) (f : Frame), assembleLine line = some f →
    (f.data = 0#32 ∧ decodeFrame f = .ok (.erasePage f.addr 0#32)) ∨ decodeFrame f = .ok (.programWord f.addr f.data)

/-! ### Acceptance -/

/-- 40_entry_unlock R131 and R133, `ERASE_PAGE`: a page base of the array is accepted, in one step that touches only the
sequencer and the ports. -/
def Obligations.ErasePageAcceptsAPageOfTheArray : Prop :=
  ∀ (a d : Word) (s : State), a.toNat % 2048 = 0 → s.cfg.flashBase.toNat ≤ a.toNat →
    a.toNat + 2048 ≤ s.cfg.flashBase.toNat + s.cfg.flashSize →
    exec (.erasePage a d) s = .next { s with
      fcs := { s.fcs with st := 1#5, cOp := 0b01#2, cAddr := a, cData := d, n := 0, capEop := false, capWrp := false }
      port := { s.port with cmdPending := false, rspValid := false } }

/-- 40_entry_unlock R131 and R133, `PROGRAM_WORD`: a word of the array is accepted. -/
def Obligations.ProgramWordAcceptsAWordOfTheArray : Prop :=
  ∀ (a v : Word) (s : State), a.toNat % 4 = 0 → s.cfg.flashBase.toNat ≤ a.toNat →
    a.toNat + 4 ≤ s.cfg.flashBase.toNat + s.cfg.flashSize →
    exec (.programWord a v) s = .next { s with
      fcs := { s.fcs with st := 1#5, cOp := 0b10#2, cAddr := a, cData := v, n := 0, capEop := false, capWrp := false }
      port := { s.port with cmdPending := false, rspValid := false } }

/-- 40_entry_unlock R133: any other address ends the command with `InvalidAddress` and touches nothing of the environment. -/
def Obligations.OtherAddressesEndInInvalidAddress : Prop :=
  ∀ (a d : Word) (s : State),
    (¬(a.toNat % 2048 = 0 ∧ s.cfg.flashBase.toNat ≤ a.toNat ∧
        a.toNat + 2048 ≤ s.cfg.flashBase.toNat + s.cfg.flashSize) →
      exec (.erasePage a d) s = .next { s with
        fcs := { s.fcs with st := 16#5, out := .invalidAddress, cOp := 0b01#2, cAddr := a, cData := d, n := 0,
                            capEop := false, capWrp := false }
        port := { s.port with cmdPending := false, rspValid := false } }) ∧
    (¬(a.toNat % 4 = 0 ∧ s.cfg.flashBase.toNat ≤ a.toNat ∧
        a.toNat + 4 ≤ s.cfg.flashBase.toNat + s.cfg.flashSize) →
      exec (.programWord a d) s = .next { s with
        fcs := { s.fcs with st := 16#5, out := .invalidAddress, cOp := 0b10#2, cAddr := a, cData := d, n := 0,
                            capEop := false, capWrp := false }
        port := { s.port with cmdPending := false, rspValid := false } })

/-- 40_entry_unlock R132: a frame is legal exactly if `CMD[31:2] = 0` and `CMD[1:0]` is `0b01` or `0b10`, and an illegal one
ends the command with `InvalidCommand`, whatever its address. -/
def Obligations.IllegalFramesEndInInvalidCommand : Prop :=
  (∀ f : Frame, (∃ i, decodeFrame f = .ok i) ↔
    (f.cmd.toNat / 4 = 0 ∧ (f.cmd.toNat % 4 = 1 ∨ f.cmd.toNat % 4 = 2))) ∧
  (∀ s : State, sequencerIsNext s = true → s.fcs.st = 0#5 → s.port.cmdPending = true →
    (s.port.cmd.toNat / 4 ≠ 0 ∨ (s.port.cmd.toNat % 4 ≠ 1 ∧ s.port.cmd.toNat % 4 ≠ 2)) →
    step s = .next { s.taken with
      fcs := { s.fcs with st := 16#5, out := .invalidCommand, cOp := s.port.cmd.extractLsb' 0 2, cAddr := s.port.addr,
                          cData := s.port.data, n := 0, capEop := false, capWrp := false }
      port := { s.port with cmdPending := false, rspValid := false } })

/-! ### A step runs its instruction -/

/-- 43_poll_classify R200 and 40_entry_unlock R130: the step of `IDLE` with a legal frame pending is `exec` of the frame's
instruction; with no command pending `IDLE` is a hold, and the sequencer's turn changes nothing. That the hold is a step is the
model's choice (log entry 5). -/
def Obligations.IdleStepRunsTheDecodedCommandOrHolds : Prop :=
  ∀ (s : State), sequencerIsNext s = true → s.fcs.st = 0#5 →
    (∀ i, s.port.cmdPending = true → decodeFrame ⟨s.port.cmd, s.port.addr, s.port.data⟩ = .ok i →
      step s = exec i s.taken) ∧
    (s.port.cmdPending = false → step s = .next s.taken)

/-- The step of a bus state is `exec` of the action the state issues, followed by the state's transition
(43_poll_classify R200): the action's next state goes through `advance`, its fault is the step's, and it never refuses. -/
def Obligations.BusStepRunsTheIssuedAction : Prop :=
  ∀ (s : State) (q : Fsm) (i : Instr), sequencerIsNext s = true → s.fcs.st = q.code →
    busAction s.cfg s.fcs q = some i →
    (∀ u, exec i s.taken = .next u → step s = .next (advance q u)) ∧
    (∀ r, exec i s.taken = .fault r → step s = .fault r) ∧
    (∀ r, exec i s.taken ≠ .refused r)

/-- 10_state R31: the bus action each state issues, with its operands. -/
def Obligations.EachStateIssuesItsAction : Prop :=
  ∀ s : State,
    (s.fcs.cOp = 0b01#2 ∨ s.fcs.cOp = 0b10#2 →
      (s.fcs.st = 1#5 → issuedAction s = some .rdSr) ∧
      (s.fcs.st = 2#5 → issuedAction s = some .rdCr) ∧
      (s.fcs.st = 3#5 → issuedAction s = some .wrKeyrKey1) ∧
      (s.fcs.st = 4#5 → issuedAction s = some .wrKeyrKey2) ∧
      (s.fcs.st = 5#5 → issuedAction s = some .rdCr) ∧
      (s.fcs.st = 6#5 → issuedAction s = some .w1cSrBoth) ∧
      (s.fcs.st = 8#5 → issuedAction s = some (.wrAr s.fcs.cAddr)) ∧
      (s.fcs.st = 11#5 → issuedAction s = some .rdSr) ∧
      (s.fcs.st = 12#5 → issuedAction s = some .rdSr) ∧
      (s.fcs.st = 13#5 → issuedAction s = some (if s.fcs.capWrp then .w1cSrBoth else .w1cSrEop)) ∧
      (s.fcs.st = 14#5 → issuedAction s = some .w1cSrWrprterr)) ∧
    (s.fcs.cOp = 0b01#2 →
      (s.fcs.st = 7#5 → issuedAction s = some .setPer) ∧
      (s.fcs.st = 9#5 → issuedAction s = some .setStrt) ∧
      (s.fcs.st = 15#5 → issuedAction s = some .clrPer)) ∧
    (s.fcs.cOp = 0b10#2 →
      (s.fcs.st = 7#5 → issuedAction s = some .setPg) ∧
      (s.fcs.st = 9#5 → s.cfg.programStrt = true → issuedAction s = some .setStrt) ∧
      (s.fcs.st = 10#5 → issuedAction s = some (.wrMem32 s.fcs.cAddr s.fcs.cData)) ∧
      (s.fcs.st = 15#5 → issuedAction s = some .clrPg)) ∧
    (s.fcs.st = 0#5 ∨ s.fcs.st = 16#5 → issuedAction s = none)

/-- 10_state R31 and 43_poll_classify R201: an unused code, and the two unreachable pairs, are the fault `IllegalFsmState`. -/
def Obligations.UnreachableStatesFault : Prop :=
  ∀ s : State, sequencerIsNext s = true →
    (17 ≤ s.fcs.st.toNat ∨ (s.fcs.st = 9#5 ∧ s.fcs.cOp = 0b10#2 ∧ s.cfg.programStrt = false) ∨
      (s.fcs.st = 10#5 ∧ s.fcs.cOp = 0b01#2)) →
    step s = .fault .illegalFsmState

/-! ### The bus actions -/

/-- 44_regif_actions R231: the value `RD_SR` returns, bit by bit; no state changes but the value read. -/
def Obligations.RdSrReturnsTheStatusFlags : Prop :=
  ∀ s : State, ∃ w : Word, exec .rdSr s = .next { s with busData := w } ∧
    ∀ i, w.getLsbD i =
      (if i = 5 then s.flash.eop else if i = 4 then s.flash.wrprterr else if i = 2 then s.flash.pgerr
       else if i = 0 then s.flash.bsy else false)

/-- 44_regif_actions R232 with the layout of 10_state R45 and `LOCK` of R41. -/
def Obligations.RdCrReturnsTheControlFields : Prop :=
  ∀ s : State, ∃ w : Word, exec .rdCr s = .next { s with busData := w } ∧
    ∀ i, w.getLsbD i =
      (if i = 0 then s.flash.cr.pg else if i = 1 then s.flash.cr.per else if i = 2 then s.flash.cr.mer
       else if i = 4 then s.flash.cr.optpg else if i = 5 then s.flash.cr.opter else if i = 6 then s.flash.cr.strt
       else if i = 7 then decide (s.flash.key ≠ .unlocked) else if i = 9 then s.flash.cr.optwre
       else if i = 10 then s.flash.cr.errie else if i = 12 then s.flash.cr.eopie
       else if i = 13 then s.flash.cr.oblLaunch else false)

/-- 44_regif_actions R235 and R236, the columns `KEY1` and `KEY2`, and R238: the two key writes in each key state. -/
def Obligations.KeyWritesFollowTheTable : Prop :=
  ∀ s : State,
    (s.flash.key = .locked →
      exec .wrKeyrKey1 s = .next { s with flash := { s.flash with key := .key1Seen } } ∧
      exec .wrKeyrKey2 s = .next { s with flash := { s.flash with key := .lockedOut } }) ∧
    (s.flash.key = .key1Seen →
      exec .wrKeyrKey1 s = .next { s with flash := { s.flash with key := .lockedOut } } ∧
      exec .wrKeyrKey2 s = .next { s with flash := { s.flash with key := .unlocked } }) ∧
    (s.flash.key = .unlocked → ∀ i ∈ [Instr.wrKeyrKey1, .wrKeyrKey2],
      ∃ k, (k = .unlocked ∨ k = .lockedOut) ∧
        exec i s = .next { s with flash := { s.flash with key := k }, draws := s.draws + 1 }) ∧
    (s.flash.key = .lockedOut → ∀ i ∈ [Instr.wrKeyrKey1, .wrKeyrKey2],
      (s.cfg.keyrLockoutWrite = .ignored → exec i s = .next s) ∧
      (s.cfg.keyrLockoutWrite = .fault → exec i s = .fault .keyWriteWhileLockedOut))

/-- 44_regif_actions R239: the three status clears, and nothing else changes. -/
def Obligations.StatusClearsClearTheirFlags : Prop :=
  ∀ s : State,
    exec .w1cSrEop s = .next { s with flash := { s.flash with eop := false } } ∧
    exec .w1cSrWrprterr s = .next { s with flash := { s.flash with wrprterr := false } } ∧
    exec .w1cSrBoth s = .next { s with flash := { s.flash with eop := false, wrprterr := false } }

/-- 44_regif_actions R241 and R240: while unlocked a modify of an enable bit changes that bit and nothing else; while locked no
modify changes anything. -/
def Obligations.ModifiesChangeTheirFieldOrNothing : Prop :=
  ∀ s : State,
    (s.flash.key = .unlocked →
      exec .setPer s = .next { s with flash := { s.flash with cr := { s.flash.cr with per := true } } } ∧
      exec .setPg s = .next { s with flash := { s.flash with cr := { s.flash.cr with pg := true } } } ∧
      exec .clrPer s = .next { s with flash := { s.flash with cr := { s.flash.cr with per := false } } } ∧
      exec .clrPg s = .next { s with flash := { s.flash with cr := { s.flash.cr with pg := false } } }) ∧
    (s.flash.key ≠ .unlocked →
      ∀ i ∈ [Instr.setPer, .setPg, .clrPer, .clrPg, .setStrt], exec i s = .next s)

/-- 30_encoding R106, last column, with R107: the modify an action is encoded as, applied to the `CR` word read, is the `CR`
word that executing the action leaves, and it is the table's word. -/
def Obligations.ModifiesWriteTheTablesWord : Prop :=
  ∀ s : State, s.flash.key = .unlocked →
    (∀ i ∈ [Instr.setPer, .setPg, .clrPer, .clrPg, .setStrt], ∃ b t, encode i = .bus b ∧ exec i s = .next t ∧
      b.written (crWord s.flash) = some (crWord t.flash)) ∧
    (∃ b, encode .setPer = .bus b ∧ b.written (crWord s.flash) = some (crWord s.flash ||| 0x2#32)) ∧
    (∃ b, encode .setPg = .bus b ∧ b.written (crWord s.flash) = some (crWord s.flash ||| 0x1#32)) ∧
    (∃ b, encode .clrPer = .bus b ∧ b.written (crWord s.flash) = some (crWord s.flash &&& 0xFFFFFFFD#32)) ∧
    (∃ b, encode .clrPg = .bus b ∧ b.written (crWord s.flash) = some (crWord s.flash &&& 0xFFFFFFFE#32)) ∧
    (∃ b, encode .setStrt = .bus b ∧ b.written (crWord s.flash) = some (crWord s.flash ||| 0x40#32))

/-- 44_regif_actions R242: with `PER = 1`, `PG = 0`, `BSY = 0` and `AR` in the array the start trigger starts the erase of the
page that holds `AR`; otherwise, while unlocked, `STRT` is set and nothing starts; while locked nothing changes. -/
def Obligations.SetStrtStartsAnEraseOrNothing : Prop :=
  ∀ s : State,
    (s.flash.key = .unlocked →
      (s.flash.cr.per = true ∧ s.flash.cr.pg = false ∧ s.flash.bsy = false ∧
        s.cfg.flashBase.toNat ≤ s.flash.ar.toNat ∧ s.flash.ar.toNat < s.cfg.flashBase.toNat + s.cfg.flashSize) →
      exec .setStrt s = .next { s with flash := { s.flash with
        cr := { s.flash.cr with strt := true }
        inflight := .erase ((s.flash.ar.toNat - s.cfg.flashBase.toNat) / 2048)
        bsy := true } }) ∧
    (s.flash.key = .unlocked →
      ¬(s.flash.cr.per = true ∧ s.flash.cr.pg = false ∧ s.flash.bsy = false ∧
        s.cfg.flashBase.toNat ≤ s.flash.ar.toNat ∧ s.flash.ar.toNat < s.cfg.flashBase.toNat + s.cfg.flashSize) →
      exec .setStrt s = .next { s with flash := { s.flash with cr := { s.flash.cr with strt := true } } }) ∧
    (s.flash.key ≠ .unlocked → exec .setStrt s = .next s)

/-- 44_regif_actions R243: while unlocked the address is latched, and nothing else changes; while locked nothing changes, which
is the decision of 92_eei_decisions D39. -/
def Obligations.WrArLatchesTheAddress : Prop :=
  ∀ (s : State) (a : Word),
    (s.flash.key = .unlocked → exec (.wrAr a) s = .next { s with flash := { s.flash with ar := a } }) ∧
    (s.flash.key ≠ .unlocked → exec (.wrAr a) s = .next s)

/-- 44_regif_actions R245: the payload write starts the program of its own address; the array is not yet written. -/
def Obligations.WrMem32StartsTheProgram : Prop :=
  ∀ (s : State) (a v : Word), s.flash.key = .unlocked → s.flash.cr.pg = true → s.flash.cr.per = false →
    s.flash.bsy = false → a.toNat % 4 = 0 → s.cfg.flashBase.toNat ≤ a.toNat →
    a.toNat + 4 ≤ s.cfg.flashBase.toNat + s.cfg.flashSize →
    exec (.wrMem32 a v) s = .next { s with flash := { s.flash with inflight := .program a v, bsy := true } }

/-- 44_regif_actions R246 and 20_memory R74: a misaligned payload write is the fault `MisalignedFlashWrite`, and an aligned one
that R245 does not admit, by the lock, the enable bits or `BSY`, is `UnexpectedFlashWrite`. The model's choice is that the
misaligned write is not the other fault (log entry 8), and that a write outside the array is `UnexpectedFlashWrite` (log
entry 9). -/
def Obligations.WrMem32FaultsWhereNotAdmitted : Prop :=
  ∀ (s : State) (a v : Word),
    (a.toNat % 4 ≠ 0 → exec (.wrMem32 a v) s = .fault .misalignedFlashWrite) ∧
    (a.toNat % 4 = 0 →
      (s.flash.key ≠ .unlocked ∨ s.flash.cr.pg = false ∨ s.flash.cr.per = true ∨ s.flash.bsy = true) →
      exec (.wrMem32 a v) s = .fault .unexpectedFlashWrite) ∧
    (a.toNat % 4 = 0 →
      (a.toNat < s.cfg.flashBase.toNat ∨ s.cfg.flashBase.toNat + s.cfg.flashSize < a.toNat + 4) →
      exec (.wrMem32 a v) s = .fault .unexpectedFlashWrite)

/-- The frame of all sixteen instructions: no byte of the array, no parameter, no scheduled move and no data of the host
changes; a bus action leaves the sequencer's registers and both ports, and a command leaves the environment
(10_state R48, 20_memory R71, 40_entry_unlock R134). -/
def Obligations.InstructionsLeaveTheArrayAndTheOtherSide : Prop :=
  ∀ (i : Instr) (s t : State), exec i s = .next t →
    (∀ a, byteAt t a = byteAt s a) ∧ t.cfg = s.cfg ∧ t.poweredUp = s.poweredUp ∧ t.moves = s.moves ∧ t.hostData = s.hostData ∧
    (i.isCommand = false → t.fcs = s.fcs ∧ t.port = s.port) ∧
    (i.isCommand = true → t.flash = s.flash ∧ t.busData = s.busData ∧ t.draws = s.draws ∧ t.port.rsp = s.port.rsp ∧
      t.fcs.stale = s.fcs.stale)

/-! ### The transitions -/

/-- 40_entry_unlock R135: `CHK_BUSY`. -/
def Obligations.ChkBusyRefusesABusyPeripheral : Prop :=
  ∀ s : State, sequencerIsNext s = true → s.fcs.st = 1#5 → (s.fcs.cOp = 0b01#2 ∨ s.fcs.cOp = 0b10#2) →
    (s.flash.bsy = true → step s = .next { s.taken with
      busData := srWord s.flash, fcs := { s.fcs with st := 16#5, out := .busy } }) ∧
    (s.flash.bsy = false → step s = .next { s.taken with busData := srWord s.flash, fcs := { s.fcs with st := 2#5 } })

/-- 40_entry_unlock R137 and R141: the two lock checks. -/
def Obligations.LockChecksBranchOnLockAndStale : Prop :=
  ∀ s : State, sequencerIsNext s = true → (s.fcs.cOp = 0b01#2 ∨ s.fcs.cOp = 0b10#2) →
    (s.fcs.st = 2#5 → s.flash.key ≠ .unlocked →
      step s = .next { s.taken with busData := crWord s.flash, fcs := { s.fcs with st := 3#5 } }) ∧
    (s.fcs.st = 5#5 → s.flash.key ≠ .unlocked →
      step s = .next { s.taken with
        busData := crWord s.flash, fcs := { s.fcs with st := 16#5, out := .unlockFailed } }) ∧
    (s.fcs.st = 2#5 ∨ s.fcs.st = 5#5 → s.flash.key = .unlocked →
      step s = .next { s.taken with
        busData := crWord s.flash, fcs := { s.fcs with st := if s.fcs.stale = true then 6#5 else 7#5 } })

/-- 40_entry_unlock R139 and R140, the two key writes of the handshake from `Locked`, and R144, the scrub. -/
def Obligations.HandshakeAndScrubSteps : Prop :=
  ∀ s : State, sequencerIsNext s = true → (s.fcs.cOp = 0b01#2 ∨ s.fcs.cOp = 0b10#2) →
    (s.fcs.st = 3#5 → s.flash.key = .locked →
      step s = .next { s.taken with flash := { s.flash with key := .key1Seen }, fcs := { s.fcs with st := 4#5 } }) ∧
    (s.fcs.st = 4#5 → s.flash.key = .key1Seen →
      step s = .next { s.taken with flash := { s.flash with key := .unlocked }, fcs := { s.fcs with st := 5#5 } }) ∧
    (s.fcs.st = 6#5 →
      step s = .next { s.taken with
        flash := { s.flash with eop := false, wrprterr := false }, fcs := { s.fcs with st := 7#5, stale := false } })

/-- 41_erase_page R161 and R162 and 42_program_word R181 and R182: `SET_EN` and `LATCH_ADDR`. -/
def Obligations.EnableAndLatchSteps : Prop :=
  ∀ s : State, sequencerIsNext s = true → s.flash.key = .unlocked →
    (s.fcs.st = 7#5 → s.fcs.cOp = 0b01#2 → step s = .next { s.taken with
      flash := { s.flash with cr := { s.flash.cr with per := true } }, fcs := { s.fcs with st := 8#5 } }) ∧
    (s.fcs.st = 7#5 → s.fcs.cOp = 0b10#2 → step s = .next { s.taken with
      flash := { s.flash with cr := { s.flash.cr with pg := true } }, fcs := { s.fcs with st := 8#5 } }) ∧
    (s.fcs.st = 8#5 → s.fcs.cOp = 0b01#2 → step s = .next { s.taken with
      flash := { s.flash with ar := s.fcs.cAddr }, fcs := { s.fcs with st := 9#5 } }) ∧
    (s.fcs.st = 8#5 → s.fcs.cOp = 0b10#2 → step s = .next { s.taken with
      flash := { s.flash with ar := s.fcs.cAddr }, fcs := { s.fcs with st := 10#5 } })

/-- 41_erase_page R163, 42_program_word R183 and R184: the points of no return and the entry to `POLL` with `n = 0`. -/
def Obligations.StartAndPayloadSteps : Prop :=
  ∀ s : State, sequencerIsNext s = true → s.flash.key = .unlocked →
    (s.fcs.st = 9#5 → s.fcs.cOp = 0b01#2 → s.flash.cr.per = true → s.flash.cr.pg = false → s.flash.bsy = false →
      s.cfg.flashBase.toNat ≤ s.flash.ar.toNat → s.flash.ar.toNat < s.cfg.flashBase.toNat + s.cfg.flashSize →
      step s = .next { s.taken with
        flash := { s.flash with
          cr := { s.flash.cr with strt := true }
          inflight := .erase ((s.flash.ar.toNat - s.cfg.flashBase.toNat) / 2048), bsy := true }
        fcs := { s.fcs with st := 11#5, n := 0 } }) ∧
    (s.fcs.st = 9#5 → s.fcs.cOp = 0b10#2 → s.cfg.programStrt = true → s.flash.cr.per = false →
      step s = .next { s.taken with
        flash := { s.flash with cr := { s.flash.cr with strt := true } }
        fcs := { s.fcs with st := 11#5, n := 0 } }) ∧
    (s.fcs.st = 10#5 → s.fcs.cOp = 0b10#2 → s.flash.cr.pg = true → s.flash.cr.per = false → s.flash.bsy = false →
      s.fcs.cAddr.toNat % 4 = 0 → s.cfg.flashBase.toNat ≤ s.fcs.cAddr.toNat →
      s.fcs.cAddr.toNat + 4 ≤ s.cfg.flashBase.toNat + s.cfg.flashSize →
      step s = .next { s.taken with
        flash := { s.flash with inflight := .program s.fcs.cAddr s.fcs.cData, bsy := true }
        fcs := if s.cfg.programStrt = true then { s.fcs with st := 9#5 } else { s.fcs with st := 11#5, n := 0 } })

/-- 43_poll_classify R202 and R203: the poll, its exit on `BSY = 0` and its bound. -/
def Obligations.PollCountsAndTimesOut : Prop :=
  ∀ s : State, sequencerIsNext s = true → s.fcs.st = 11#5 → (s.fcs.cOp = 0b01#2 ∨ s.fcs.cOp = 0b10#2) →
    (s.flash.bsy = false → step s = .next { s.taken with
      busData := srWord s.flash, fcs := { s.fcs with st := 12#5, n := s.fcs.n + 1 } }) ∧
    (s.flash.bsy = true → s.fcs.n + 1 = s.cfg.pollLimit → step s = .next { s.taken with
      busData := srWord s.flash
      fcs := { s.fcs with st := 15#5, n := s.fcs.n + 1, out := .timeout, stale := true } }) ∧
    (s.flash.bsy = true → s.fcs.n + 1 ≠ s.cfg.pollLimit → step s = .next { s.taken with
      busData := srWord s.flash, fcs := { s.fcs with st := 11#5, n := s.fcs.n + 1 } })

/-- 43_poll_classify R207 and R208: the capture and the six rows of the classification table. -/
def Obligations.ClassifierFollowsTheTable : Prop :=
  ∀ s : State, sequencerIsNext s = true → s.fcs.st = 12#5 → (s.fcs.cOp = 0b01#2 ∨ s.fcs.cOp = 0b10#2) →
    step s = .next { s.taken with
      busData := srWord s.flash
      fcs := { s.fcs with
        capEop := s.flash.eop
        capWrp := s.flash.wrprterr
        out := if s.flash.eop = true then .success else if s.fcs.cOp = 0b01#2 then .eraseFailed else .programFailed
        st := if s.flash.eop = true then 13#5 else if s.flash.wrprterr = true then 14#5 else 15#5 } }

/-- 43_poll_classify R209, R211 and R213: the two flag clears and the clearing of the enable bit. -/
def Obligations.CleanupSteps : Prop :=
  ∀ s : State, sequencerIsNext s = true → (s.fcs.cOp = 0b01#2 ∨ s.fcs.cOp = 0b10#2) →
    (s.fcs.st = 13#5 → step s = .next { s.taken with
      flash := { s.flash with eop := false, wrprterr := s.flash.wrprterr && !s.fcs.capWrp }
      fcs := { s.fcs with st := 15#5 } }) ∧
    (s.fcs.st = 14#5 → step s = .next { s.taken with
      flash := { s.flash with wrprterr := false }, fcs := { s.fcs with st := 15#5 } }) ∧
    (s.fcs.st = 15#5 → s.flash.key = .unlocked → s.fcs.cOp = 0b01#2 → step s = .next { s.taken with
      flash := { s.flash with cr := { s.flash.cr with per := false } }, fcs := { s.fcs with st := 16#5 } }) ∧
    (s.fcs.st = 15#5 → s.flash.key = .unlocked → s.fcs.cOp = 0b10#2 → step s = .next { s.taken with
      flash := { s.flash with cr := { s.flash.cr with pg := false } }, fcs := { s.fcs with st := 16#5 } })

/-- 43_poll_classify R216 with the codes of 30_encoding R104 and R105: `WRP` is reported for the three classified outcomes
only. -/
def Obligations.RespondPostsTheOutcome : Prop :=
  ∀ s : State, sequencerIsNext s = true → s.fcs.st = 16#5 →
    ∃ w : Word, step s = .next { s.taken with
        port := { s.port with rsp := w, rspValid := true }, fcs := { s.fcs with st := 0#5 } } ∧
      w.toNat =
        (match s.fcs.out with
          | .success => 0 | .busy => 1 | .eraseFailed => 2 | .programFailed => 3
          | .unlockFailed => 4 | .timeout => 5 | .invalidAddress => 6 | .invalidCommand => 7) +
        (if s.fcs.capWrp = true ∧ (s.fcs.out = .success ∨ s.fcs.out = .eraseFailed ∨ s.fcs.out = .programFailed)
          then 8 else 0)

/-! ### The flash macro -/

/-- 44_regif_actions R255, `Erase(p)`: a protected page is unchanged and raises `WRPRTERR`; any other page becomes all `0xFF`
and raises `EOP`, or, where the macro rejects the erase, has bits that only rose and raises nothing (`eraseLeaves`). In all
three `BSY` and `STRT` fall and nothing is in flight. -/
def Obligations.EraseCompletes : Prop :=
  ∀ (s : State) (rest : List Move) (p : Nat), s.poweredUp = true → s.moves = .completion :: rest → s.flash.inflight = .erase p →
    s.flash.owed = ⟨false, false, false⟩ → s.cfg.splitCompletion = false → Memory.wf s.flash.mem = true →
    ∃ t x, step s = .next t ∧ t.fcs = s.fcs ∧ t.port = s.port ∧ t.flash.key = s.flash.key ∧ t.flash.ar = s.flash.ar ∧
      t.flash.cr = { s.flash.cr with strt := false } ∧ t.flash.bsy = false ∧ t.flash.inflight = .none ∧
      t.flash.owed = ⟨false, false, false⟩ ∧ eraseLeaves s t p x ∧ t.flash.eop = (s.flash.eop || x.eop) ∧
      t.flash.wrprterr = (s.flash.wrprterr || x.wrprterr) ∧ t.flash.pgerr = (s.flash.pgerr || x.pgerr)

/-- 44_regif_actions R255, `Program(a, v)` of a protected word, of an erased one, and of one the macro rejects: the bytes are
little-endian (20_memory R72), and a rejected word has bits that are old or old AND new and raises nothing
(`programLeaves`). -/
def Obligations.ProgramCompletes : Prop :=
  ∀ (s : State) (rest : List Move) (a v : Word), s.poweredUp = true → s.moves = .completion :: rest →
    s.flash.inflight = .program a v →
    s.flash.owed = ⟨false, false, false⟩ → s.cfg.splitCompletion = false → Memory.wf s.flash.mem = true →
    ∃ t x, step s = .next t ∧ t.fcs = s.fcs ∧ t.port = s.port ∧ t.flash.key = s.flash.key ∧ t.flash.ar = s.flash.ar ∧
      t.flash.cr = { s.flash.cr with strt := false } ∧ t.flash.bsy = false ∧ t.flash.inflight = .none ∧
      t.flash.owed = ⟨false, false, false⟩ ∧ programLeaves s t a v x ∧ t.flash.eop = (s.flash.eop || x.eop) ∧
      t.flash.wrprterr = (s.flash.wrprterr || x.wrprterr) ∧ t.flash.pgerr = (s.flash.pgerr || x.pgerr)

/-- 44_regif_actions R256: the program of a word that is not erased is a draw between `PGERR` with the word unchanged, and
`EOP` with a word in which no bit rose; with `MACRO_MAY_REJECT` it may also raise nothing, with a word in which no bit rose
(R255). -/
def Obligations.ProgramOfAWordNotErasedIsADraw : Prop :=
  ∀ (s : State) (rest : List Move) (a v : Word), s.poweredUp = true → s.moves = .completion :: rest →
    s.flash.inflight = .program a v →
    s.flash.owed = ⟨false, false, false⟩ → s.cfg.splitCompletion = false →
    Memory.wf s.flash.mem = true → (a.toNat - s.cfg.flashBase.toNat) / 2048 ∉ s.cfg.wrpPages →
    (∃ i < 4, byteAt s (a.toNat + i) ≠ 0xFF#8) →
    ∃ t, step s = .next t ∧ t.flash.bsy = false ∧ t.flash.inflight = .none ∧ t.flash.cr = { s.flash.cr with strt := false } ∧
      t.flash.wrprterr = s.flash.wrprterr ∧
      (∀ x, byteAt t x &&& ~~~(byteAt s x) = 0#8) ∧
      (∀ x, x < a.toNat ∨ a.toNat + 4 ≤ x → byteAt t x = byteAt s x) ∧
      ((t.flash.pgerr = true ∧ t.flash.eop = s.flash.eop ∧ t.flash.mem = s.flash.mem) ∨
       (t.flash.eop = true ∧ t.flash.pgerr = s.flash.pgerr) ∨
       (s.cfg.macroMayReject = true ∧ t.flash.eop = s.flash.eop ∧ t.flash.pgerr = s.flash.pgerr))

/-- 44_regif_actions R255 with `MACRO_MAY_REJECT`, and 42_program_word R186: whatever the draws, a completion of an erase lets
bits of its page rise only and a completion of a program lets bits of its word fall only, and no other byte changes. -/
def Obligations.CompletionsMoveBitsOneWay : Prop :=
  ∀ (s t : State) (rest : List Move), s.poweredUp = true → s.moves = .completion :: rest → step s = .next t →
    Memory.wf s.flash.mem = true →
    (∀ p, s.flash.inflight = .erase p → ∀ x, byteAt s x &&& ~~~(byteAt t x) = 0#8 ∧
      (x < s.cfg.flashBase.toNat + p * 2048 ∨ s.cfg.flashBase.toNat + p * 2048 + 2048 ≤ x → byteAt t x = byteAt s x)) ∧
    (∀ a v, s.flash.inflight = .program a v → ∀ x, byteAt t x &&& ~~~(byteAt s x) = 0#8 ∧
      (x < a.toNat ∨ a.toNat + 4 ≤ x → byteAt t x = byteAt s x)) ∧
    (s.flash.inflight = .none → t.flash.mem = s.flash.mem)

/-- 44_regif_actions R257: under `SPLIT_COMPLETION` the first step ends the operation and leaves the array as an atomic
completion does, raises no flag, and owes exactly the flags that completion would raise (`eraseLeaves`, `programLeaves`); a
second step, which finds flags owed, sets them and changes nothing else. That owed flags come before the next completion is
the model's inference (log entry 11). -/
def Obligations.SplitCompletionRaisesItsFlagsLater : Prop :=
  ∀ (s : State) (rest : List Move), s.poweredUp = true → s.moves = .completion :: rest → s.cfg.splitCompletion = true →
    (s.flash.owed = ⟨false, false, false⟩ → s.flash.inflight ≠ .none → Memory.wf s.flash.mem = true →
      ∃ t, step s = .next t ∧ t.fcs = s.fcs ∧ t.port = s.port ∧ t.flash.key = s.flash.key ∧ t.flash.ar = s.flash.ar ∧
        t.flash.cr = { s.flash.cr with strt := false } ∧ t.flash.bsy = false ∧ t.flash.inflight = .none ∧
        t.flash.eop = s.flash.eop ∧ t.flash.wrprterr = s.flash.wrprterr ∧ t.flash.pgerr = s.flash.pgerr ∧
        (∀ p, s.flash.inflight = .erase p → eraseLeaves s t p t.flash.owed) ∧
        (∀ a v, s.flash.inflight = .program a v → programLeaves s t a v t.flash.owed)) ∧
    (s.flash.owed ≠ ⟨false, false, false⟩ →
      step s = .next { s.taken with flash := { s.flash with
        eop := s.flash.eop || s.flash.owed.eop
        wrprterr := s.flash.wrprterr || s.flash.owed.wrprterr
        pgerr := s.flash.pgerr || s.flash.owed.pgerr
        owed := ⟨false, false, false⟩ } })

/-! ### The host and other agents -/

/-- 60_exceptions R285 and 10_state R38: the host writes the command port only while no command is pending or in progress, and
takes an outcome only while `rsp_valid = 1`. That `IDLE` is required for an issue is the model's reading (log entry 6). -/
def Obligations.HostIssuesAndCollectsInTurn : Prop :=
  ∀ (s : State) (rest : List Move), s.poweredUp = true →
    (∀ c a d, s.moves = .issue c a d :: rest →
      (s.port.cmdPending = false → s.fcs.st = 0#5 →
        step s = .next { s.taken with port := { s.port with cmd := c, addr := a, data := d, cmdPending := true } }) ∧
      (s.port.cmdPending = true ∨ s.fcs.st ≠ 0#5 → step s = .fault .hostProtocolViolation)) ∧
    (s.moves = .collect :: rest →
      (s.port.rspValid = true → step s = .next { s.taken with hostData := s.port.rsp }) ∧
      (s.port.rspValid = false → step s = .fault .hostProtocolViolation))

/-- 20_memory R78, R72 and R73: a described read whose bytes no operation in flight covers returns them, little-endian and
zero-extended; one whose bytes an operation in flight covers returns a draw. -/
def Obligations.FlashReadsReturnTheBytes : Prop :=
  ∀ (s : State) (rest : List Move) (a : Word) (n : Nat), s.poweredUp = true → s.moves = .readFlash a n :: rest →
    (n = 1 ∨ n = 2 ∨ n = 4) → a.toNat % n = 0 → s.cfg.flashBase.toNat ≤ a.toNat →
    a.toNat + n ≤ s.cfg.flashBase.toNat + s.cfg.flashSize →
    (covers s.cfg s.flash.inflight a.toNat n = false →
      ∃ w : Word, step s = .next { s.taken with hostData := w } ∧
        w.toNat = (byteAt s a.toNat).toNat + (if 2 ≤ n then 256 * (byteAt s (a.toNat + 1)).toNat else 0) +
          (if n = 4 then 65536 * (byteAt s (a.toNat + 2)).toNat + 16777216 * (byteAt s (a.toNat + 3)).toNat else 0)) ∧
    (covers s.cfg s.flash.inflight a.toNat n = true →
      ∃ w : Word, step s = .next { s.taken with hostData := w, draws := s.draws + 1 } ∧
        w.toNat = (Config.drawWord s.draws).toNat % 256 ^ n) ∧
    (covers s.cfg s.flash.inflight a.toNat n = true ↔
      (∃ p, s.flash.inflight = .erase p ∧ s.cfg.flashBase.toNat + p * 2048 < a.toNat + n ∧
        a.toNat < s.cfg.flashBase.toNat + p * 2048 + 2048) ∨
      (∃ b v, s.flash.inflight = .program b v ∧ b.toNat < a.toNat + n ∧ a.toNat < b.toNat + 4))

/-- 60_exceptions R285: while a command is in progress, and while `stale = 1` with an operation in flight, an access to the
registers or a write to the array by another agent is the fault `HostProtocolViolation`. At every other time a write to the
array by another agent, whatever its width, address and value, is the fault `UnexpectedFlashWrite` (44_regif_actions R246,
92_eei_decisions D40, 93_implementation_defined I22), or `MisalignedFlashWrite` for a misaligned 32-bit one (20_memory R74, log
entry 8): it never starts a program. -/
def Obligations.ForeignAccessesAreExcluded : Prop :=
  ∀ (s : State) (m : Move) (rest : List Move), s.poweredUp = true → s.moves = m :: rest → m.isForeign = true →
    ((s.fcs.st ≠ 0#5 ∨ (s.fcs.stale = true ∧ s.flash.inflight ≠ .none)) → step s = .fault .hostProtocolViolation) ∧
    (¬(s.fcs.st ≠ 0#5 ∨ (s.fcs.stale = true ∧ s.flash.inflight ≠ .none)) → ∀ a w v, m = .foreignArrayWrite a w v →
      step s = .fault (if w = 4 ∧ a.toNat % 4 ≠ 0 then .misalignedFlashWrite else .unexpectedFlashWrite))

/-- 44_regif_actions R236, R237 and R239, outside those times: any key write but the next of the handshake locks out, a `CR`
write with bit 7 = 1 while `Unlocked` relocks, and an `SR` write clears the flags of its bits 5, 4 and 2. That such writes are
moves is the model's reading (log entry 7). -/
def Obligations.ForeignRegisterWrites : Prop :=
  ∀ (s : State) (rest : List Move) (v : Word), s.poweredUp = true → s.fcs.st = 0#5 → s.fcs.stale = false →
    (s.moves = .foreignWrite .keyr v :: rest →
      (s.flash.key = .locked → v ≠ 0x45670123#32 →
        step s = .next { s.taken with flash := { s.flash with key := .lockedOut } }) ∧
      (s.flash.key = .key1Seen → v ≠ 0xCDEF89AB#32 →
        step s = .next { s.taken with flash := { s.flash with key := .lockedOut } })) ∧
    (s.moves = .foreignWrite .cr v :: rest →
      (s.flash.key = .unlocked → ∃ t, step s = .next t ∧
        t.flash.key = (if v.getLsbD 7 = true then .locked else .unlocked)) ∧
      (s.flash.key ≠ .unlocked → step s = .next s.taken)) ∧
    (s.moves = .foreignWrite .sr v :: rest →
      step s = .next { s.taken with flash := { s.flash with
        eop := if v.getLsbD 5 = true then false else s.flash.eop
        wrprterr := if v.getLsbD 4 = true then false else s.flash.wrprterr
        pgerr := if v.getLsbD 2 = true then false else s.flash.pgerr } })

/-! ### Rules of the whole machine -/

/-- 70_reset_and_hazards R301: on a machine that is powered up, as every step leaves it
(`StepsKeepTheParametersAndTheArrayForm`), a device reset is the only step that leaves `LockedOut`. -/
def Obligations.OnlyDeviceResetLeavesLockedOut : Prop :=
  ∀ s t : State, s.poweredUp = true → s.flash.key = .lockedOut → step s = .next t →
    t.flash.key = .lockedOut ∨ (∃ rest, s.moves = .deviceReset :: rest ∧ t.flash.key = .locked)

/-- 10_state R48 and R52: on a machine that is powered up, as every step leaves it
(`StepsKeepTheParametersAndTheArrayForm`), only the flash macro's completion and a device reset change the array, and only bytes of the operation in flight. -/
def Obligations.OnlyCompletionAndResetChangeTheArray : Prop :=
  ∀ (s t : State) (x : Nat), s.poweredUp = true → step s = .next t → byteAt t x ≠ byteAt s x →
    ((∃ rest, s.moves = .completion :: rest) ∨ (∃ rest, s.moves = .deviceReset :: rest)) ∧
    ((∃ p, s.flash.inflight = .erase p ∧ s.cfg.flashBase.toNat + p * 2048 ≤ x ∧
        x < s.cfg.flashBase.toNat + p * 2048 + 2048) ∨
     (∃ a v, s.flash.inflight = .program a v ∧ a.toNat ≤ x ∧ x < a.toNat + 4))

/-- Every step keeps the parameters (00_scope R8, 70_reset_and_hazards R305) and the array's canonical form, whatever the agents
do (log entry 3), and leaves a machine that is powered up, so that the first power-up is the only one (10_state R52,
log entry 32). -/
def Obligations.StepsKeepTheParametersAndTheArrayForm : Prop :=
  ∀ s t : State, step s = .next t →
    t.cfg = s.cfg ∧ t.poweredUp = true ∧ (Memory.wf s.flash.mem = true → Memory.wf t.flash.mem = true)

/-- 30_encoding R102: a step of an erase takes nothing from the `DATA` word its frame gave. -/
def Obligations.EraseIgnoresItsDataWord : Prop :=
  ∀ (s t : State) (d : Word), s.poweredUp = true → s.fcs.cOp = 0b01#2 → s.fcs.st ≠ 0#5 →
    (∀ rest, s.moves ≠ .deviceReset :: rest) → step s = .next t →
    step { s with fcs := { s.fcs with cData := d } } = .next { t with fcs := { t.fcs with cData := d } }

/-- The invariant holds right after reset. -/
def Obligations.ResetMeetsTheInvariant : Prop := Inv State.reset

/-- From every state that meets the invariant, every step that answers a next state leads to one that meets it: the array is
canonical and inside its bounds, `BSY` agrees with the operation in flight, no unreachable pair is reached, the enable bits
stand exactly between `SET_EN` and `CLR_EN`, the poll counter stays in its range, and no stale flag stands at rest
(10_state R33, R53, 43_poll_classify R201, R205, 44_regif_actions R257, 70_reset_and_hazards R313, R314). Four of its clauses
are the model's own: that `BSY` agrees with the operation under `SPLIT_COMPLETION` too, where 10_state R47 makes an exception
(log entry 22), the canonical form (log entry 3), that a command is pending only in `IDLE`
(log entry 6), and that a machine not powered up yet is at rest (log entry 32). -/
def Obligations.StepsKeepTheInvariant : Prop :=
  ∀ s t : State, Inv s → step s = .next t → Inv t

/-- 60_exceptions R277: with a key write while locked out ignored, no step of the sequencer and the macro alone faults. -/
def Obligations.SequencerAndMacroNeverFault : Prop :=
  ∀ (k : Nat) (s : State), Inv s → s.cfg.keyrLockoutWrite = .ignored → onlyInner s.moves = true →
    ∃ t, steps k s = .next t

/-- 10_state R53: at rest no enable bit is set, in every state a run from the invariant reaches. With atomic completions and no
abandoned operation no `EOP` and no `WRPRTERR` stands there either, because every success clears `EOP` (43_poll_classify R209,
R215), every failure clears the `WRPRTERR` it captured (R211), and what a timed-out operation may leave (R205) is marked by
`stale` (70_reset_and_hazards R314). -/
def Obligations.NoEnableBitAndNoFlagAtRest : Prop :=
  ∀ (k : Nat) (s t : State), Inv s → steps k s = .next t → t.fcs.st = 0#5 →
    t.flash.cr.per = false ∧ t.flash.cr.pg = false ∧
    (t.cfg.splitCompletion = false → t.fcs.stale = false → t.flash.eop = false ∧ t.flash.wrprterr = false)

/-- 43_poll_classify R204: every command ends within `15 + POLL_LIMIT` steps of the sequencer, whatever the macro does between
them; no reset cuts it short. A host program whose last command it is has then ended (60_exceptions R286); that
a program's commands are the issue moves of the schedule is the model's reading (log entry 31). -/
def Obligations.EveryCommandEndsWithinTheBound : Prop :=
  ∀ (k : Nat) (s t : State), Inv s → s.port.cmdPending = true → (∀ m ∈ s.moves, m ≠ .deviceReset) →
    steps k s = .next t → 15 + s.cfg.pollLimit ≤ sequencerMoves k s.moves →
    ∃ j u, j ≤ k ∧ steps j s = .next u ∧ commandEnded u = true ∧ u.port.cmdPending = false ∧
      (programEnded u = true ↔ ∀ m ∈ u.moves, ∀ c a d, m ≠ .issue c a d)

/-- 41_erase_page R160, R165 and R167: an erase of an unprotected page whose operation completes before the `k + 1`-th poll.
Completed normally it ends in `Success` with the page all `0xFF` and every other byte as it was; rejected by the macro, which
only `MACRO_MAY_REJECT` admits, it ends in `EraseFailed` with `WRP = 0`, with bits of the page that only rose, and issues no
`W1C_SR`. In both, the flags and the enable bit end clear, and the bus actions are exactly those of the rule. -/
def Obligations.EraseCommandErasesItsPage : Prop :=
  ∀ (s : State) (a d : Word) (k : Nat), Inv s → s.cfg.splitCompletion = false →
    readyFor s 0x1#32 a d → validAddr s.cfg opErase a = true →
    (a.toNat - s.cfg.flashBase.toNat) / 2048 ∉ s.cfg.wrpPages → k + 1 ≤ s.cfg.pollLimit →
    s.moves = sequencerRun (1 + (eraseTrace s a).length + k) ++ .completion :: sequencerRun 5 →
    ∃ t, steps s.moves.length s = .next t ∧
      trace s.moves.length s = eraseTrace s a ++ pollTrace (k + 1) ++ [.rdSr] ++
        (if rejects s = true then [] else [.w1cSrEop]) ++ [.clrPer] ∧
      programEnded t = true ∧ quiescent t = true ∧ t.port.rsp = (if rejects s = true then 0x2#32 else 0x0#32) ∧
      t.flash.ar = a ∧ srWord t.flash = srBits false false s.flash.pgerr false ∧
      t.flash.cr.per = false ∧ t.flash.cr.pg = false ∧ t.flash.key = .unlocked ∧ t.fcs.stale = false ∧
      (rejects s = false → ∀ x, byteAt t x = if a.toNat ≤ x ∧ x < a.toNat + 2048 then 0xFF#8 else byteAt s x) ∧
      (rejects s = true → s.cfg.macroMayReject = true ∧ ∀ x, byteAt s x &&& ~~~(byteAt t x) = 0#8 ∧
        (x < a.toNat ∨ a.toNat + 2048 ≤ x → byteAt t x = byteAt s x))

/-- 41_erase_page R165 and 42_program_word R185, the protected page: a command on a write-protected page ends in
`EraseFailed` or `ProgramFailed` with `WRP = 1`, the array unchanged, `WRPRTERR` cleared and the enable bit clear. -/
def Obligations.CommandsOnAProtectedPageFail : Prop :=
  ∀ (s : State) (a d : Word) (k : Nat), Inv s → s.cfg.splitCompletion = false →
    (a.toNat - s.cfg.flashBase.toNat) / 2048 ∈ s.cfg.wrpPages → k + 1 ≤ s.cfg.pollLimit →
    (readyFor s 0x1#32 a d → validAddr s.cfg opErase a = true →
      s.moves = sequencerRun (1 + (eraseTrace s a).length + k) ++ .completion :: sequencerRun 5 →
      ∃ t, steps s.moves.length s = .next t ∧
        trace s.moves.length s = eraseTrace s a ++ pollTrace (k + 1) ++ [.rdSr, .w1cSrWrprterr, .clrPer] ∧
        commandEnded t = true ∧ quiescent t = true ∧ t.port.rsp = 0xA#32 ∧ t.flash.mem = s.flash.mem ∧
        t.flash.eop = false ∧ t.flash.wrprterr = false ∧ t.flash.cr.per = false ∧ t.flash.cr.pg = false) ∧
    (readyFor s 0x2#32 a d → validAddr s.cfg opProgram a = true →
      s.moves = sequencerRun (1 + (programTrace s a d).length + k) ++ .completion :: sequencerRun 5 →
      ∃ t, steps s.moves.length s = .next t ∧
        trace s.moves.length s = programTrace s a d ++ pollTrace (k + 1) ++ [.rdSr, .w1cSrWrprterr, .clrPg] ∧
        commandEnded t = true ∧ quiescent t = true ∧ t.port.rsp = 0xB#32 ∧ t.flash.mem = s.flash.mem ∧
        t.flash.eop = false ∧ t.flash.wrprterr = false ∧ t.flash.cr.per = false ∧ t.flash.cr.pg = false)

/-- 42_program_word R180, R185 and R188: a program of an unprotected word whose operation completes before the `k + 1`-th poll.
Of an erased word it ends in `Success` with the word's bytes little-endian, of a word that is not erased in `Success` or, with
`PGERR` and the word unchanged, in `ProgramFailed`, and rejected by the macro in `ProgramFailed`, as the flags `x` of its
completion say (`programLeaves`). A `ProgramFailed` has `WRP = 0` and issues no `W1C_SR`. In all, no bit rises, the other
bytes are as they were, the flags and the enable bit end clear but for a `PGERR`, and the bus actions are exactly those of the
rule. -/
def Obligations.ProgramCommandProgramsItsWord : Prop :=
  ∀ (s : State) (a v : Word) (k : Nat), Inv s → s.cfg.splitCompletion = false →
    readyFor s 0x2#32 a v → validAddr s.cfg opProgram a = true →
    (a.toNat - s.cfg.flashBase.toNat) / 2048 ∉ s.cfg.wrpPages → k + 1 ≤ s.cfg.pollLimit →
    s.moves = sequencerRun (1 + (programTrace s a v).length + k) ++ .completion :: sequencerRun 5 →
    ∃ t x, steps s.moves.length s = .next t ∧ programLeaves s t a v x ∧
      trace s.moves.length s = programTrace s a v ++ pollTrace (k + 1) ++ [.rdSr] ++ clearTrace x ++ [.clrPg] ∧
      x.wrprterr = false ∧ t.port.rsp = (if x.eop = true then 0x0#32 else 0x3#32) ∧
      programEnded t = true ∧ quiescent t = true ∧ t.flash.ar = a ∧
      srWord t.flash = srBits false false (s.flash.pgerr || x.pgerr) false ∧
      t.flash.cr.per = false ∧ t.flash.cr.pg = false ∧ t.flash.key = .unlocked ∧ t.fcs.stale = false ∧
      (∀ y, byteAt t y &&& ~~~(byteAt s y) = 0#8)

/-- 43_poll_classify R203 and R205: an operation that never completes ends its command in `Timeout` after `POLL_LIMIT` polls,
with the enable bit cleared, `stale` set, the operation still in flight and the array unchanged. -/
def Obligations.UncompletedOperationTimesOut : Prop :=
  ∀ (s : State) (a d : Word), Inv s → s.moves = [] →
    (readyFor s 0x1#32 a d → validAddr s.cfg opErase a = true →
      ∃ t, steps (1 + (eraseTrace s a).length + s.cfg.pollLimit + 2) s = .next t ∧
        trace (1 + (eraseTrace s a).length + s.cfg.pollLimit + 2) s
          = eraseTrace s a ++ pollTrace s.cfg.pollLimit ++ [.clrPer] ∧
        commandEnded t = true ∧ t.port.rsp = 0x5#32 ∧ t.fcs.stale = true ∧ t.flash.bsy = true ∧
        t.flash.inflight = .erase ((a.toNat - s.cfg.flashBase.toNat) / 2048) ∧ t.flash.mem = s.flash.mem ∧
        t.flash.cr.per = false ∧ t.flash.cr.pg = false) ∧
    (readyFor s 0x2#32 a d → validAddr s.cfg opProgram a = true →
      ∃ t, steps (1 + (programTrace s a d).length + s.cfg.pollLimit + 2) s = .next t ∧
        trace (1 + (programTrace s a d).length + s.cfg.pollLimit + 2) s
          = programTrace s a d ++ pollTrace s.cfg.pollLimit ++ [.clrPg] ∧
        commandEnded t = true ∧ t.port.rsp = 0x5#32 ∧ t.fcs.stale = true ∧ t.flash.bsy = true ∧
        t.flash.inflight = .program a d ∧ t.flash.mem = s.flash.mem ∧
        t.flash.cr.per = false ∧ t.flash.cr.pg = false)

/-- 40_entry_unlock R136: a valid command that finds `BSY = 1` ends in `Busy` after one read, with the environment and `stale`
unchanged. -/
def Obligations.BusyCommandTouchesNothing : Prop :=
  ∀ s : State, s.poweredUp = true → s.moves = [] → s.fcs.st = 0#5 → s.port.cmdPending = true → s.flash.bsy = true →
    ((s.port.cmd = 0x1#32 ∧ validAddr s.cfg opErase s.port.addr = true) ∨
      (s.port.cmd = 0x2#32 ∧ validAddr s.cfg opProgram s.port.addr = true)) →
    ∃ t, steps 3 s = .next t ∧ trace 3 s = [.rdSr] ∧ commandEnded t = true ∧ t.port.rsp = 0x1#32 ∧ t.flash = s.flash ∧
      t.fcs.stale = s.fcs.stale

/-- 40_entry_unlock R142 and R141: a valid command on a locked-out peripheral that is not busy ends in `UnlockFailed` after
exactly five bus actions, with nothing of the environment changed and `stale` unchanged. -/
def Obligations.LockedOutCommandFailsToUnlock : Prop :=
  ∀ s : State, s.poweredUp = true → s.moves = [] → s.fcs.st = 0#5 → s.port.cmdPending = true → s.flash.bsy = false →
    s.flash.key = .lockedOut → s.cfg.keyrLockoutWrite = .ignored →
    ((s.port.cmd = 0x1#32 ∧ validAddr s.cfg opErase s.port.addr = true) ∨
      (s.port.cmd = 0x2#32 ∧ validAddr s.cfg opProgram s.port.addr = true)) →
    ∃ t, steps 7 s = .next t ∧ trace 7 s = [.rdSr, .rdCr, .wrKeyrKey1, .wrKeyrKey2, .rdCr] ∧ commandEnded t = true ∧
      t.port.rsp = 0x4#32 ∧ t.flash = s.flash ∧ t.fcs.stale = s.fcs.stale

/-- 40_entry_unlock R138: in every run of the sequencer and the macro from the invariant, a key write is issued only where
`LOCK` is 1; a command on an unlocked peripheral never writes the key port. -/
def Obligations.KeyPortIsWrittenOnlyWhenLocked : Prop :=
  ∀ (k : Nat) (s t : State), Inv s → steps k s = .next t →
    (issuedAction t = some .wrKeyrKey1 → t.flash.key ≠ .unlocked) ∧
    (issuedAction t = some .wrKeyrKey2 → t.flash.key ≠ .unlocked)

/-- 60_exceptions R286, 30_encoding R108 and 43_poll_classify R218: a host program ends. From a machine at rest, for every list
of commands, legal or not, those that lines assemble to included, that the host issues one after another, each followed by a
wait in which the sequencer and the macro alone move and the sequencer has `15 + POLL_LIMIT` moves, the run, with the first
power-up before it where that is still to come (10_state R52, log entry 3), answers a next state in which the program has ended,
which it has not before. That a program's commands are the issue moves of the schedule is the
model's reading (log entry 31). -/
def Obligations.HostProgramsEnd : Prop :=
  ∀ (s : State) (prog : List (Frame × List Move)), Inv s → s.fcs.st = 0#5 → s.port.cmdPending = false →
    s.cfg.keyrLockoutWrite = .ignored → s.moves = programMoves prog → prog ≠ [] →
    (∀ x ∈ prog, onlyInner x.2 = true ∧ 15 + s.cfg.pollLimit ≤ sequencerMoves x.2.length x.2) →
    commandsToCome s = prog.map Prod.fst ∧
    (∀ lines, assemble lines = some (prog.map Prod.fst) → issuesProgram lines s = true) ∧ programEnded s = false ∧
    ∃ t, steps (s.moves.length + if s.poweredUp = true then 0 else 1) s = .next t ∧ programEnded t = true
end

