-- ==== Sys2Proof/Laws/Flags.lean ====
section
/-! SUPPORT. What is read back from the words `SR`, `CR` and `RSP`, and what the flag operations leave unchanged. -/

namespace Sys2Proof.Machine

theorem srBits_bsy (e w p b : Bool) : srBsy (srBits e w p b) = b := by
  revert e w p b; decide

theorem srBits_eop (e w p b : Bool) : srEop (srBits e w p b) = e := by
  revert e w p b; decide

theorem srBits_wrprterr (e w p b : Bool) : srWrprterr (srBits e w p b) = w := by
  revert e w p b; decide

/-- `sr.BSY` of the value of `SR` is `BSY`. -/
@[simp] theorem srBsy_srWord (f : Flash) : srBsy (srWord f) = f.bsy := srBits_bsy ..

/-- `sr.EOP` of the value of `SR` is `EOP`. -/
@[simp] theorem srEop_srWord (f : Flash) : srEop (srWord f) = f.eop := srBits_eop ..

/-- `sr.WRPRTERR` of the value of `SR` is `WRPRTERR`. -/
@[simp] theorem srWrprterr_srWord (f : Flash) : srWrprterr (srWord f) = f.wrprterr := srBits_wrprterr ..

/-- `cr.LOCK` of the value of `CR` is the function of `key` (10_state R41). -/
@[simp] theorem crLock_crWord (f : Flash) : crLock (crWord f) = lockOf f.key := by
  simp only [crLock, crWord, crBits, BitVec.getLsbD_setWidth, BitVec.getLsbD_append]
  simp

/-- `CR` bit by bit (10_state R45). -/
theorem crBits_getLsbD (r : ControlReg) (lock : Bool) (i : Nat) : (crBits r lock).getLsbD i =
    (if i = 0 then r.pg else if i = 1 then r.per else if i = 2 then r.mer else if i = 4 then r.optpg
     else if i = 5 then r.opter else if i = 6 then r.strt else if i = 7 then lock else if i = 9 then r.optwre
     else if i = 10 then r.errie else if i = 12 then r.eopie else if i = 13 then r.oblLaunch else false) := by
  have hb (b : Bool) (j : Nat) : (BitVec.ofBool b).getLsbD j = (decide (j = 0) && b) := by cases b <;> simp
  by_cases hi : i < 32
  · simp only [crBits, BitVec.getLsbD_setWidth, BitVec.getLsbD_append, hb]
    interval_cases i <;> simp
  · rw [BitVec.getLsbD_of_ge _ _ (by omega)]
    repeat' (first | omega | rfl | split)

/-- `LOCK` is 0 exactly while `Unlocked`. -/
theorem lockOf_eq_false {k : KeyState} : lockOf k = false ↔ k = .unlocked := by cases k <;> decide

/-- A modify of `CR` while unlocked changes the fields as it says. -/
theorem modifyCr_unlocked (g : ControlReg → ControlReg) {f : Flash} (h : f.key = .unlocked) :
    modifyCr g f = { f with cr := g f.cr } := by simp [modifyCr, h, lockOf]

/-- A modify of `CR` while locked changes nothing. -/
theorem modifyCr_locked (g : ControlReg → ControlReg) {f : Flash} (h : f.key ≠ .unlocked) : modifyCr g f = f := by
  have hl : lockOf f.key = true := by
    cases hk : f.key <;> first | rfl | exact absurd hk h
  simp [modifyCr, hl]

/-- A modify of `CR` changes no part of the environment but `CR`. -/
theorem modifyCr_frame (g : ControlReg → ControlReg) (f : Flash) : modifyCr g f = { f with cr := (modifyCr g f).cr } := by
  simp only [modifyCr]
  split <;> rfl

@[simp] theorem w1cSr_key (m : Word) (f : Flash) : (w1cSr m f).key = f.key := rfl
@[simp] theorem w1cSr_bsy (m : Word) (f : Flash) : (w1cSr m f).bsy = f.bsy := rfl
@[simp] theorem w1cSr_cr (m : Word) (f : Flash) : (w1cSr m f).cr = f.cr := rfl
@[simp] theorem w1cSr_ar (m : Word) (f : Flash) : (w1cSr m f).ar = f.ar := rfl
@[simp] theorem w1cSr_inflight (m : Word) (f : Flash) : (w1cSr m f).inflight = f.inflight := rfl
@[simp] theorem w1cSr_owed (m : Word) (f : Flash) : (w1cSr m f).owed = f.owed := rfl
@[simp] theorem w1cSr_mem (m : Word) (f : Flash) : (w1cSr m f).mem = f.mem := rfl
@[simp] theorem w1cSr_eop (m : Word) (f : Flash) : (w1cSr m f).eop = (f.eop && !m.getLsbD 5) := rfl
@[simp] theorem w1cSr_wrprterr (m : Word) (f : Flash) : (w1cSr m f).wrprterr = (f.wrprterr && !m.getLsbD 4) := rfl
@[simp] theorem w1cSr_pgerr (m : Word) (f : Flash) : (w1cSr m f).pgerr = (f.pgerr && !m.getLsbD 2) := rfl

@[simp] theorem raiseFlags_key (x : StatusFlags) (f : Flash) : (raiseFlags x f).key = f.key := rfl
@[simp] theorem raiseFlags_bsy (x : StatusFlags) (f : Flash) : (raiseFlags x f).bsy = f.bsy := rfl
@[simp] theorem raiseFlags_cr (x : StatusFlags) (f : Flash) : (raiseFlags x f).cr = f.cr := rfl
@[simp] theorem raiseFlags_ar (x : StatusFlags) (f : Flash) : (raiseFlags x f).ar = f.ar := rfl
@[simp] theorem raiseFlags_inflight (x : StatusFlags) (f : Flash) : (raiseFlags x f).inflight = f.inflight := rfl
@[simp] theorem raiseFlags_owed (x : StatusFlags) (f : Flash) : (raiseFlags x f).owed = f.owed := rfl
@[simp] theorem raiseFlags_mem (x : StatusFlags) (f : Flash) : (raiseFlags x f).mem = f.mem := rfl
@[simp] theorem raiseFlags_eop (x : StatusFlags) (f : Flash) : (raiseFlags x f).eop = (f.eop || x.eop) := rfl
@[simp] theorem raiseFlags_wrprterr (x : StatusFlags) (f : Flash) :
    (raiseFlags x f).wrprterr = (f.wrprterr || x.wrprterr) := rfl
@[simp] theorem raiseFlags_pgerr (x : StatusFlags) (f : Flash) : (raiseFlags x f).pgerr = (f.pgerr || x.pgerr) := rfl

/-- The response word carries the outcome in bits 2 to 0, `WRP` in bit 3, and 0 above (30_encoding R105). -/
theorem rspWord_toNat (wrp : Bool) (o : CmdOutcome) : (rspWord wrp o).toNat = o.code.toNat + 8 * wrp.toNat := by
  cases wrp <;> cases o <;> decide

end Sys2Proof.Machine
end

