-- ==== Sys2Proof/Laws/State.lean ====
section
/-! SUPPORT. One lemma per field per update of the state, each true by rfl, so that no proof unfolds a record update. -/

namespace Sys2Proof.Machine.State

@[simp] theorem setFcs_fcs (s : State) (f : Fcs) : (s.setFcs f).fcs = f := rfl
@[simp] theorem setFcs_port (s : State) (f : Fcs) : (s.setFcs f).port = s.port := rfl
@[simp] theorem setFcs_flash (s : State) (f : Fcs) : (s.setFcs f).flash = s.flash := rfl
@[simp] theorem setFcs_cfg (s : State) (f : Fcs) : (s.setFcs f).cfg = s.cfg := rfl
@[simp] theorem setFcs_busData (s : State) (f : Fcs) : (s.setFcs f).busData = s.busData := rfl
@[simp] theorem setFcs_hostData (s : State) (f : Fcs) : (s.setFcs f).hostData = s.hostData := rfl
@[simp] theorem setFcs_draws (s : State) (f : Fcs) : (s.setFcs f).draws = s.draws := rfl
@[simp] theorem setFcs_moves (s : State) (f : Fcs) : (s.setFcs f).moves = s.moves := rfl
@[simp] theorem setFcs_poweredUp (s : State) (f : Fcs) : (s.setFcs f).poweredUp = s.poweredUp := rfl

@[simp] theorem setPort_fcs (s : State) (p : Ports) : (s.setPort p).fcs = s.fcs := rfl
@[simp] theorem setPort_port (s : State) (p : Ports) : (s.setPort p).port = p := rfl
@[simp] theorem setPort_flash (s : State) (p : Ports) : (s.setPort p).flash = s.flash := rfl
@[simp] theorem setPort_cfg (s : State) (p : Ports) : (s.setPort p).cfg = s.cfg := rfl
@[simp] theorem setPort_busData (s : State) (p : Ports) : (s.setPort p).busData = s.busData := rfl
@[simp] theorem setPort_hostData (s : State) (p : Ports) : (s.setPort p).hostData = s.hostData := rfl
@[simp] theorem setPort_draws (s : State) (p : Ports) : (s.setPort p).draws = s.draws := rfl
@[simp] theorem setPort_moves (s : State) (p : Ports) : (s.setPort p).moves = s.moves := rfl
@[simp] theorem setPort_poweredUp (s : State) (p : Ports) : (s.setPort p).poweredUp = s.poweredUp := rfl

@[simp] theorem setFlash_fcs (s : State) (f : Flash) : (s.setFlash f).fcs = s.fcs := rfl
@[simp] theorem setFlash_port (s : State) (f : Flash) : (s.setFlash f).port = s.port := rfl
@[simp] theorem setFlash_flash (s : State) (f : Flash) : (s.setFlash f).flash = f := rfl
@[simp] theorem setFlash_cfg (s : State) (f : Flash) : (s.setFlash f).cfg = s.cfg := rfl
@[simp] theorem setFlash_busData (s : State) (f : Flash) : (s.setFlash f).busData = s.busData := rfl
@[simp] theorem setFlash_hostData (s : State) (f : Flash) : (s.setFlash f).hostData = s.hostData := rfl
@[simp] theorem setFlash_draws (s : State) (f : Flash) : (s.setFlash f).draws = s.draws := rfl
@[simp] theorem setFlash_moves (s : State) (f : Flash) : (s.setFlash f).moves = s.moves := rfl
@[simp] theorem setFlash_poweredUp (s : State) (f : Flash) : (s.setFlash f).poweredUp = s.poweredUp := rfl

@[simp] theorem setBusData_fcs (s : State) (w : Word) : (s.setBusData w).fcs = s.fcs := rfl
@[simp] theorem setBusData_port (s : State) (w : Word) : (s.setBusData w).port = s.port := rfl
@[simp] theorem setBusData_flash (s : State) (w : Word) : (s.setBusData w).flash = s.flash := rfl
@[simp] theorem setBusData_cfg (s : State) (w : Word) : (s.setBusData w).cfg = s.cfg := rfl
@[simp] theorem setBusData_busData (s : State) (w : Word) : (s.setBusData w).busData = w := rfl
@[simp] theorem setBusData_hostData (s : State) (w : Word) : (s.setBusData w).hostData = s.hostData := rfl
@[simp] theorem setBusData_draws (s : State) (w : Word) : (s.setBusData w).draws = s.draws := rfl
@[simp] theorem setBusData_moves (s : State) (w : Word) : (s.setBusData w).moves = s.moves := rfl
@[simp] theorem setBusData_poweredUp (s : State) (w : Word) : (s.setBusData w).poweredUp = s.poweredUp := rfl

@[simp] theorem setHostData_fcs (s : State) (w : Word) : (s.setHostData w).fcs = s.fcs := rfl
@[simp] theorem setHostData_port (s : State) (w : Word) : (s.setHostData w).port = s.port := rfl
@[simp] theorem setHostData_flash (s : State) (w : Word) : (s.setHostData w).flash = s.flash := rfl
@[simp] theorem setHostData_cfg (s : State) (w : Word) : (s.setHostData w).cfg = s.cfg := rfl
@[simp] theorem setHostData_busData (s : State) (w : Word) : (s.setHostData w).busData = s.busData := rfl
@[simp] theorem setHostData_hostData (s : State) (w : Word) : (s.setHostData w).hostData = w := rfl
@[simp] theorem setHostData_draws (s : State) (w : Word) : (s.setHostData w).draws = s.draws := rfl
@[simp] theorem setHostData_moves (s : State) (w : Word) : (s.setHostData w).moves = s.moves := rfl
@[simp] theorem setHostData_poweredUp (s : State) (w : Word) : (s.setHostData w).poweredUp = s.poweredUp := rfl

@[simp] theorem setMoves_fcs (s : State) (ms : List Move) : (s.setMoves ms).fcs = s.fcs := rfl
@[simp] theorem setMoves_port (s : State) (ms : List Move) : (s.setMoves ms).port = s.port := rfl
@[simp] theorem setMoves_flash (s : State) (ms : List Move) : (s.setMoves ms).flash = s.flash := rfl
@[simp] theorem setMoves_cfg (s : State) (ms : List Move) : (s.setMoves ms).cfg = s.cfg := rfl
@[simp] theorem setMoves_busData (s : State) (ms : List Move) : (s.setMoves ms).busData = s.busData := rfl
@[simp] theorem setMoves_hostData (s : State) (ms : List Move) : (s.setMoves ms).hostData = s.hostData := rfl
@[simp] theorem setMoves_draws (s : State) (ms : List Move) : (s.setMoves ms).draws = s.draws := rfl
@[simp] theorem setMoves_moves (s : State) (ms : List Move) : (s.setMoves ms).moves = ms := rfl
@[simp] theorem setMoves_poweredUp (s : State) (ms : List Move) : (s.setMoves ms).poweredUp = s.poweredUp := rfl

@[simp] theorem setPowered_fcs (s : State) : s.setPowered.fcs = s.fcs := rfl
@[simp] theorem setPowered_port (s : State) : s.setPowered.port = s.port := rfl
@[simp] theorem setPowered_flash (s : State) : s.setPowered.flash = s.flash := rfl
@[simp] theorem setPowered_cfg (s : State) : s.setPowered.cfg = s.cfg := rfl
@[simp] theorem setPowered_busData (s : State) : s.setPowered.busData = s.busData := rfl
@[simp] theorem setPowered_hostData (s : State) : s.setPowered.hostData = s.hostData := rfl
@[simp] theorem setPowered_draws (s : State) : s.setPowered.draws = s.draws := rfl
@[simp] theorem setPowered_moves (s : State) : s.setPowered.moves = s.moves := rfl
@[simp] theorem setPowered_poweredUp (s : State) : s.setPowered.poweredUp = true := rfl

@[simp] theorem drawn_fcs (s : State) (k : Nat) : (s.drawn k).fcs = s.fcs := rfl
@[simp] theorem drawn_port (s : State) (k : Nat) : (s.drawn k).port = s.port := rfl
@[simp] theorem drawn_flash (s : State) (k : Nat) : (s.drawn k).flash = s.flash := rfl
@[simp] theorem drawn_cfg (s : State) (k : Nat) : (s.drawn k).cfg = s.cfg := rfl
@[simp] theorem drawn_busData (s : State) (k : Nat) : (s.drawn k).busData = s.busData := rfl
@[simp] theorem drawn_hostData (s : State) (k : Nat) : (s.drawn k).hostData = s.hostData := rfl
@[simp] theorem drawn_draws (s : State) (k : Nat) : (s.drawn k).draws = s.draws + k := rfl
@[simp] theorem drawn_moves (s : State) (k : Nat) : (s.drawn k).moves = s.moves := rfl
@[simp] theorem drawn_poweredUp (s : State) (k : Nat) : (s.drawn k).poweredUp = s.poweredUp := rfl

@[simp] theorem goto_fcs (s : State) (q : Fsm) : (s.goto q).fcs = { s.fcs with st := q.code } := rfl
@[simp] theorem goto_port (s : State) (q : Fsm) : (s.goto q).port = s.port := rfl
@[simp] theorem goto_flash (s : State) (q : Fsm) : (s.goto q).flash = s.flash := rfl
@[simp] theorem goto_cfg (s : State) (q : Fsm) : (s.goto q).cfg = s.cfg := rfl
@[simp] theorem goto_busData (s : State) (q : Fsm) : (s.goto q).busData = s.busData := rfl
@[simp] theorem goto_hostData (s : State) (q : Fsm) : (s.goto q).hostData = s.hostData := rfl
@[simp] theorem goto_draws (s : State) (q : Fsm) : (s.goto q).draws = s.draws := rfl
@[simp] theorem goto_moves (s : State) (q : Fsm) : (s.goto q).moves = s.moves := rfl
@[simp] theorem goto_poweredUp (s : State) (q : Fsm) : (s.goto q).poweredUp = s.poweredUp := rfl

@[simp] theorem finish_fcs (s : State) (o : CmdOutcome) : (s.finish o).fcs = { s.fcs with out := o, st := Fsm.respond.code } := rfl
@[simp] theorem finish_port (s : State) (o : CmdOutcome) : (s.finish o).port = s.port := rfl
@[simp] theorem finish_flash (s : State) (o : CmdOutcome) : (s.finish o).flash = s.flash := rfl
@[simp] theorem finish_cfg (s : State) (o : CmdOutcome) : (s.finish o).cfg = s.cfg := rfl
@[simp] theorem finish_busData (s : State) (o : CmdOutcome) : (s.finish o).busData = s.busData := rfl
@[simp] theorem finish_hostData (s : State) (o : CmdOutcome) : (s.finish o).hostData = s.hostData := rfl
@[simp] theorem finish_draws (s : State) (o : CmdOutcome) : (s.finish o).draws = s.draws := rfl
@[simp] theorem finish_moves (s : State) (o : CmdOutcome) : (s.finish o).moves = s.moves := rfl
@[simp] theorem finish_poweredUp (s : State) (o : CmdOutcome) : (s.finish o).poweredUp = s.poweredUp := rfl

@[simp] theorem conclude_fcs (s : State) (o : CmdOutcome) (q : Fsm) : (s.conclude o q).fcs = { s.fcs with out := o, st := q.code } := rfl
@[simp] theorem conclude_port (s : State) (o : CmdOutcome) (q : Fsm) : (s.conclude o q).port = s.port := rfl
@[simp] theorem conclude_flash (s : State) (o : CmdOutcome) (q : Fsm) : (s.conclude o q).flash = s.flash := rfl
@[simp] theorem conclude_cfg (s : State) (o : CmdOutcome) (q : Fsm) : (s.conclude o q).cfg = s.cfg := rfl
@[simp] theorem conclude_busData (s : State) (o : CmdOutcome) (q : Fsm) : (s.conclude o q).busData = s.busData := rfl
@[simp] theorem conclude_hostData (s : State) (o : CmdOutcome) (q : Fsm) : (s.conclude o q).hostData = s.hostData := rfl
@[simp] theorem conclude_draws (s : State) (o : CmdOutcome) (q : Fsm) : (s.conclude o q).draws = s.draws := rfl
@[simp] theorem conclude_moves (s : State) (o : CmdOutcome) (q : Fsm) : (s.conclude o q).moves = s.moves := rfl
@[simp] theorem conclude_poweredUp (s : State) (o : CmdOutcome) (q : Fsm) : (s.conclude o q).poweredUp = s.poweredUp := rfl

end Sys2Proof.Machine.State
end

