-- ==== Sys2Proof/Laws/Bus.lean ====
section
/-! SUPPORT. What the operations behind the bus actions can do, each said once, and the frame of every bus action. -/

namespace Sys2Proof.Machine

/-- Starting an erase changes only `inflight` and `BSY`. -/
theorem startErase_frame (c : Config) (f : Flash) :
    startErase c f = { f with inflight := (startErase c f).inflight, bsy := (startErase c f).bsy } := by
  simp only [startErase]
  split <;> rfl

/-- A start trigger changes only `STRT`, `inflight` and `BSY`. -/
theorem setStrtFlash_frame (c : Config) (f : Flash) :
    setStrtFlash c f = { f with
      cr := { f.cr with strt := (setStrtFlash c f).cr.strt }
      inflight := (setStrtFlash c f).inflight
      bsy := (setStrtFlash c f).bsy } := by
  simp only [setStrtFlash, startErase]
  split
  · rfl
  · split <;> rfl

/-- An address latch changes only `AR`. -/
theorem latchAr_frame (a : Word) (f : Flash) : latchAr a f = { f with ar := (latchAr a f).ar } := by
  simp only [latchAr]
  split <;> rfl

/-- A key write changes only `key` and the count of draws, or faults while locked out. -/
theorem keyWrite_next {k : Word} {s t : State} (h : keyWrite k s = .next t) :
    t = { s with flash := { s.flash with key := t.flash.key }, draws := t.draws } := by
  unfold keyWrite at h
  split at h
  · cases h; rfl
  · cases h; rfl
  · cases h; rfl
  · split at h
    · cases h; rfl
    · cases h

/-- What a key write does to `key`: the handshake's table, a draw while unlocked, and no change while locked out
(44_regif_actions R236, R238). -/
theorem keyWrite_key {k : Word} {s t : State} (h : keyWrite k s = .next t) :
    (s.flash.key = .unlocked ∧ (t.flash.key = .unlocked ∨ t.flash.key = .lockedOut)) ∨
    (s.flash.key ≠ .unlocked ∧ t.flash.key = handshakeKey s.flash.key k) := by
  unfold keyWrite at h
  split at h <;> rename_i hk
  · cases h; right; simp [hk]
  · cases h; right; simp [hk]
  · cases h
    left
    refine ⟨hk, ?_⟩
    by_cases hd : s.nextBool 0 = true <;> simp [hd]
  · split at h
    · cases h; right; simp [hk, handshakeKey]
    · cases h

/-- A key write is refused by no rule: it answers a next state, or the fault of 44_regif_actions R238. -/
theorem keyWrite_total (k : Word) (s : State) :
    (∃ t, keyWrite k s = .next t) ∨
    (s.flash.key = .lockedOut ∧ s.cfg.keyrLockoutWrite = .fault ∧ keyWrite k s = .fault .keyWriteWhileLockedOut) := by
  unfold keyWrite
  split
  · exact .inl ⟨_, rfl⟩
  · exact .inl ⟨_, rfl⟩
  · exact .inl ⟨_, rfl⟩
  · rename_i hk
    split
    · exact .inl ⟨_, rfl⟩
    · rename_i hc
      exact .inr ⟨hk, hc, rfl⟩

/-- The payload write answers a next state only where it starts a program, and then changes only `inflight` and `BSY`. -/
theorem arrayWrite_next {a v : Word} {s t : State} (h : arrayWrite a v s = .next t) :
    a.toNat % 4 = 0 ∧ s.cfg.contains a.toNat 4 = true ∧ programAdmitted s.flash = true ∧
      t = { s with flash := { s.flash with inflight := .program a v, bsy := true } } := by
  unfold arrayWrite at h
  split at h
  · cases h
    rename_i h1
    exact ⟨h1.1, h1.2.1, h1.2.2, rfl⟩
  · cases h

/-- The payload write starts a program where 44_regif_actions R245 admits it. -/
theorem arrayWrite_admitted {a v : Word} {s : State} (ha : a.toNat % 4 = 0) (hc : s.cfg.contains a.toNat 4 = true)
    (hp : programAdmitted s.flash = true) :
    arrayWrite a v s = .next { s with flash := { s.flash with inflight := .program a v, bsy := true } } := by
  simp [arrayWrite, Config.wordBytes, ha, hc, hp, State.setFlash]

/-- A bus action leaves the sequencer, the ports, the parameters, the schedule, the host's data and the array's contents
as they were. -/
theorem exec_bus_frame {i : Instr} {s t : State} (hi : i.isCommand = false) (h : exec i s = .next t) :
    t.fcs = s.fcs ∧ t.port = s.port ∧ t.cfg = s.cfg ∧ t.moves = s.moves ∧ t.hostData = s.hostData ∧
      t.flash.mem = s.flash.mem ∧ t.flash.owed = s.flash.owed ∧ t.poweredUp = s.poweredUp := by
  cases i with
  | erasePage => cases hi
  | programWord => cases hi
  | rdSr => cases h; simp
  | rdCr => cases h; simp
  | wrKeyrKey1 => rw [keyWrite_next h]; simp
  | wrKeyrKey2 => rw [keyWrite_next h]; simp
  | w1cSrEop => cases h; simp
  | w1cSrWrprterr => cases h; simp
  | w1cSrBoth => cases h; simp
  | setPer => cases h; simp only [State.setFlash_flash]; rw [modifyCr_frame]; simp
  | setPg => cases h; simp only [State.setFlash_flash]; rw [modifyCr_frame]; simp
  | clrPer => cases h; simp only [State.setFlash_flash]; rw [modifyCr_frame]; simp
  | clrPg => cases h; simp only [State.setFlash_flash]; rw [modifyCr_frame]; simp
  | setStrt => cases h; simp only [State.setFlash_flash]; rw [setStrtFlash_frame]; simp
  | wrAr a => cases h; simp only [State.setFlash_flash]; rw [latchAr_frame]; simp
  | wrMem32 a v => rw [(arrayWrite_next h).2.2.2]; simp

/-- A command's acceptance leaves the environment, the parameters, the schedule and the read-data values as they were. -/
theorem exec_command_frame {i : Instr} {s t : State} (hi : i.isCommand = true) (h : exec i s = .next t) :
    t.flash = s.flash ∧ t.cfg = s.cfg ∧ t.moves = s.moves ∧ t.busData = s.busData ∧ t.hostData = s.hostData ∧
      t.draws = s.draws ∧ t.fcs.stale = s.fcs.stale ∧ t.port.rsp = s.port.rsp ∧ t.poweredUp = s.poweredUp := by
  cases i with
  | erasePage a d => cases h; simp only [validateAddr]; split <;> simp [accept]
  | programWord a v => cases h; simp only [validateAddr]; split <;> simp [accept]
  | _ => cases hi

end Sys2Proof.Machine
end

