-- ==== Sys2Proof/Laws/Memory.lean ====
section
/-! SUPPORT. The laws of the flash array's memory: what a byte reads as after each operation, that every operation keeps the
canonical form and the array's bounds, and that equal contents are equal data. -/

namespace Sys2Proof.Machine.Memory

theorem wfFrom_mono {lo lo' : Nat} {m : Memory} (h : lo' ≤ lo) (hm : wfFrom lo m = true) : wfFrom lo' m = true := by
  cases m with
  | nil => rfl
  | cons c m =>
    obtain ⟨k, b⟩ := c
    simp only [wfFrom, Bool.and_eq_true, decide_eq_true_eq] at hm ⊢
    exact ⟨⟨by omega, hm.1.2⟩, hm.2⟩

/-- An address below every listed one reads as erased. -/
theorem read_below {lo a : Nat} {m : Memory} (hm : wfFrom lo m = true) (h : a < lo) : read m a = erased := by
  induction m generalizing lo with
  | nil => rfl
  | cons c m ih =>
    obtain ⟨k, b⟩ := c
    simp only [wfFrom, Bool.and_eq_true, decide_eq_true_eq] at hm
    have hk : k ≠ a := by omega
    simp only [read, if_neg hk]
    exact ih hm.2 (by omega)

theorem read_write_same {lo : Nat} {m : Memory} (hm : wfFrom lo m = true) (a : Nat) (b : Byte) :
    read (write m a b) a = b := by
  induction m generalizing lo with
  | nil => by_cases hb : b = erased <;> simp [write, read, hb]
  | cons c m ih =>
    obtain ⟨k, v⟩ := c
    simp only [wfFrom, Bool.and_eq_true, decide_eq_true_eq] at hm
    simp only [write]
    by_cases h1 : a < k
    · by_cases hb : b = erased
      · have hk : k ≠ a := by omega
        rw [if_pos h1, if_pos hb, read, if_neg hk, hb]
        exact read_below hm.2 (by omega)
      · simp [if_pos h1, if_neg hb, read]
    · by_cases h2 : a = k
      · by_cases hb : b = erased
        · rw [if_neg h1, if_pos h2, if_pos hb, hb]
          exact read_below hm.2 (by omega)
        · simp [if_neg h1, if_pos h2, if_neg hb, read]
      · have hk : k ≠ a := by omega
        simp only [if_neg h1, if_neg h2, read, if_neg hk]
        exact ih hm.2

theorem read_write_other (m : Memory) {a x : Nat} (b : Byte) (h : x ≠ a) : read (write m a b) x = read m x := by
  induction m with
  | nil =>
    by_cases hb : b = erased
    · simp [write, hb]
    · simp [write, hb, read, Ne.symm h]
  | cons c m ih =>
    obtain ⟨k, v⟩ := c
    simp only [write]
    by_cases h1 : a < k
    · by_cases hb : b = erased
      · simp [if_pos h1, if_pos hb]
      · simp [if_pos h1, if_neg hb, read, Ne.symm h]
    · by_cases h2 : a = k
      · have hkx : k ≠ x := by omega
        by_cases hb : b = erased
        · simp [if_neg h1, if_pos h2, if_pos hb, read, if_neg hkx]
        · simp [if_neg h1, if_pos h2, if_neg hb, read, if_neg hkx, Ne.symm h]
      · simp only [if_neg h1, if_neg h2, read, ih]

theorem write_wfFrom {lo : Nat} {m : Memory} (hm : wfFrom lo m = true) {a : Nat} (ha : lo ≤ a) (b : Byte) :
    wfFrom lo (write m a b) = true := by
  induction m generalizing lo with
  | nil => by_cases hb : b = erased <;> simp [write, wfFrom, hb, ha]
  | cons c m ih =>
    obtain ⟨k, v⟩ := c
    have hm' := hm
    simp only [wfFrom, Bool.and_eq_true, decide_eq_true_eq] at hm
    simp only [write]
    by_cases h1 : a < k
    · by_cases hb : b = erased
      · simpa [if_pos h1, if_pos hb] using hm'
      · simp only [if_pos h1, if_neg hb, wfFrom, Bool.and_eq_true, decide_eq_true_eq]
        exact ⟨⟨ha, by simpa using hb⟩, ⟨by omega, hm.1.2⟩, hm.2⟩
    · by_cases h2 : a = k
      · by_cases hb : b = erased
        · simp only [if_neg h1, if_pos h2, if_pos hb]
          exact wfFrom_mono (by omega) hm.2
        · simp only [if_neg h1, if_pos h2, if_neg hb, wfFrom, Bool.and_eq_true, decide_eq_true_eq]
          exact ⟨⟨ha, by simpa using hb⟩, by rw [h2]; exact hm.2⟩
      · simp only [if_neg h1, if_neg h2, wfFrom, Bool.and_eq_true, decide_eq_true_eq]
        exact ⟨⟨by omega, hm.1.2⟩, ih hm.2 (by omega)⟩

/-- A write keeps the canonical form. -/
theorem write_wf {m : Memory} (hm : wf m = true) (a : Nat) (b : Byte) : wf (write m a b) = true :=
  write_wfFrom hm (Nat.zero_le a) b

theorem write_within {c : Config} {m : Memory} (hm : within c m = true) {a : Nat} (ha : c.contains a 1 = true) (b : Byte) :
    within c (write m a b) = true := by
  induction m with
  | nil => by_cases hb : b = erased <;> simp [write, within, hb, ha]
  | cons cell m ih =>
    obtain ⟨k, v⟩ := cell
    simp only [within, List.all_cons, Bool.and_eq_true] at hm ih ⊢
    simp only [write]
    split
    · split <;> simp [hm.1, hm.2, ha]
    · split
      · split <;> simp [hm.2, ha]
      · simp only [List.all_cons, hm.1, Bool.true_and]
        exact ih hm.2

/-- An update keeps the canonical form. -/
theorem update_wf (f : Nat → Byte → Byte) {m : Memory} (hm : wf m = true) (a len : Nat) :
    wf (update f m a len) = true := by
  induction len generalizing m a with
  | zero => exact hm
  | succ len ih => exact ih (write_wf hm _ _) _

theorem update_within (f : Nat → Byte → Byte) {c : Config} {m : Memory} (hm : within c m = true) {a len : Nat}
    (ha : c.contains a len = true) : within c (update f m a len) = true := by
  induction len generalizing m a with
  | zero => exact hm
  | succ len ih =>
    simp only [Config.contains, Bool.and_eq_true, decide_eq_true_eq] at ha
    refine ih (write_within hm ?_ _) ?_ <;> simp only [Config.contains, Bool.and_eq_true, decide_eq_true_eq] <;> omega

/-- A byte outside the updated range reads as before. -/
theorem read_update_outside (f : Nat → Byte → Byte) (m : Memory) {a len x : Nat} (h : x < a ∨ a + len ≤ x) :
    read (update f m a len) x = read m x := by
  induction len generalizing m a with
  | zero => rfl
  | succ len ih => rw [update, ih _ (by omega), read_write_other _ _ (by omega)]

/-- A byte of the updated range reads as `f` of its address and its old value. -/
theorem read_update_inside (f : Nat → Byte → Byte) {m : Memory} (hm : wf m = true) {a len x : Nat} (h1 : a ≤ x)
    (h2 : x < a + len) : read (update f m a len) x = f x (read m x) := by
  induction len generalizing m a with
  | zero => omega
  | succ len ih =>
    by_cases hx : x = a
    · subst hx
      rw [update, read_update_outside _ _ (by omega)]
      exact read_write_same hm x _
    · rw [update, ih (write_wf hm _ _) (by omega) (by omega), read_write_other _ _ hx]

theorem filter_wfFrom (p : Host.Cell → Bool) {lo : Nat} {m : Memory} (hm : wfFrom lo m = true) :
    wfFrom lo (m.filter p) = true := by
  induction m generalizing lo with
  | nil => rfl
  | cons c m ih =>
    obtain ⟨k, b⟩ := c
    have hm' := hm
    simp only [wfFrom, Bool.and_eq_true, decide_eq_true_eq] at hm
    by_cases hp : p (k, b) = true
    · rw [List.filter_cons_of_pos hp]
      simp only [wfFrom, Bool.and_eq_true, decide_eq_true_eq]
      exact ⟨hm.1, ih hm.2⟩
    · rw [List.filter_cons_of_neg hp]
      exact wfFrom_mono (by omega) (ih hm.2)

/-- Erasing a range keeps the canonical form. -/
theorem eraseRange_wf {m : Memory} (hm : wf m = true) (a len : Nat) : wf (eraseRange m a len) = true :=
  filter_wfFrom _ hm

theorem eraseRange_within {c : Config} {m : Memory} (hm : within c m = true) (a len : Nat) :
    within c (eraseRange m a len) = true := by
  simp only [within, eraseRange, List.all_eq_true, List.mem_filter] at hm ⊢
  exact fun x hx => hm x hx.1

theorem eraseRange_cons (k : Nat) (b : Byte) (m : Memory) (a len : Nat) :
    eraseRange ((k, b) :: m) a len
      = if a ≤ k ∧ k < a + len then eraseRange m a len else (k, b) :: eraseRange m a len := by
  by_cases h : a ≤ k ∧ k < a + len
  · simp [eraseRange, h]
  · rw [if_neg h]
    simp only [eraseRange]
    rw [List.filter_cons_of_pos (by simp only [Bool.not_eq_true', Bool.and_eq_false_iff, decide_eq_false_iff_not]; omega)]

/-- Each byte of an erased range reads as the erased value. -/
theorem read_eraseRange_inside (m : Memory) {a len x : Nat} (h1 : a ≤ x) (h2 : x < a + len) :
    read (eraseRange m a len) x = erased := by
  induction m with
  | nil => rfl
  | cons c m ih =>
    obtain ⟨k, b⟩ := c
    rw [eraseRange_cons]
    split
    · exact ih
    · rw [read, if_neg (by rintro rfl; omega), ih]

/-- A byte outside an erased range reads as before. -/
theorem read_eraseRange_outside (m : Memory) {a len x : Nat} (h : x < a ∨ a + len ≤ x) :
    read (eraseRange m a len) x = read m x := by
  induction m with
  | nil => rfl
  | cons c m ih =>
    obtain ⟨k, b⟩ := c
    rw [eraseRange_cons]
    split
    · rw [ih, read, if_neg (by rintro rfl; omega)]
    · rw [read, read, ih]

/-- Two canonical memories with equal contents are equal data. -/
theorem ext_of_read {lo : Nat} {m m' : Memory} (hm : wfFrom lo m = true) (hm' : wfFrom lo m' = true)
    (h : ∀ a, read m a = read m' a) : m = m' := by
  induction m generalizing m' lo with
  | nil =>
    cases m' with
    | nil => rfl
    | cons c m' =>
      obtain ⟨k, b⟩ := c
      simp only [wfFrom, Bool.and_eq_true, bne_iff_ne, decide_eq_true_eq] at hm'
      have := h k
      simp only [read, if_true] at this
      exact absurd this.symm hm'.1.2
  | cons c m ih =>
    obtain ⟨k, b⟩ := c
    simp only [wfFrom, Bool.and_eq_true, bne_iff_ne, decide_eq_true_eq] at hm
    cases m' with
    | nil =>
      have := h k
      simp only [read, if_true] at this
      exact absurd this hm.1.2
    | cons c' m' =>
      obtain ⟨k', b'⟩ := c'
      simp only [wfFrom, Bool.and_eq_true, bne_iff_ne, decide_eq_true_eq] at hm'
      have hkk : k = k' := by
        rcases Nat.lt_trichotomy k k' with hlt | heq | hlt
        · have h0 := h k
          simp only [read, if_true] at h0
          rw [if_neg (by omega), read_below hm'.2 (by omega)] at h0
          exact absurd h0 hm.1.2
        · exact heq
        · have h0 := h k'
          simp only [read, if_true] at h0
          rw [if_neg (by omega), read_below hm.2 (by omega)] at h0
          exact absurd h0.symm hm'.1.2
      subst hkk
      have hb : b = b' := by simpa [read] using h k
      subst hb
      congr 1
      refine ih hm.2 hm'.2 (fun a => ?_)
      by_cases ha : k = a
      · subst ha
        rw [read_below hm.2 (by omega), read_below hm'.2 (by omega)]
      · simpa [read, if_neg ha] using h a

theorem writeWord_wf {m : Memory} (hm : wf m = true) (a : Nat) (w : Word) : wf (writeWord m a w) = true :=
  update_wf _ hm _ _

theorem writeWord_within {c : Config} {m : Memory} (hm : within c m = true) {a : Nat}
    (ha : c.contains a Config.wordBytes = true) (w : Word) : within c (writeWord m a w) = true :=
  update_within _ hm ha

/-- Byte `a + i` of a written word is `w[8i+7 : 8i]`. -/
theorem read_writeWord_inside {m : Memory} (hm : wf m = true) (a : Nat) (w : Word) {i : Nat} (hi : i < 4) :
    read (writeWord m a w) (a + i) = wordByte w i := by
  rw [writeWord, read_update_inside _ hm (by omega) (by simp only [Config.wordBytes]; omega)]
  congr 1
  omega

theorem read_writeWord_outside (m : Memory) {a x : Nat} (w : Word) (h : x < a ∨ a + 4 ≤ x) :
    read (writeWord m a w) x = read m x :=
  read_update_outside _ _ h

/-- The four bytes of a word, put together again. -/
theorem wordBytes_join (w : Word) : (wordByte w 3 ++ wordByte w 2 ++ wordByte w 1 ++ wordByte w 0 : BitVec 32) = w := by
  ext i hi
  simp only [wordByte, BitVec.getElem_append, BitVec.getElem_extractLsb']
  by_cases h0 : i < 8
  · simp [h0, BitVec.getLsbD_eq_getElem hi]
  · by_cases h1 : i < 16
    · have : 8 * 1 + (i - 8) = i := by omega
      simp [h0, show i - 8 < 8 by omega, this, BitVec.getLsbD_eq_getElem hi]
    · by_cases h2 : i < 24
      · have : 8 * 2 + (i - 8 - 8) = i := by omega
        simp [h0, show ¬ i - 8 < 8 by omega, show i - 8 - 8 < 8 by omega, this, BitVec.getLsbD_eq_getElem hi]
      · have : 8 * 3 + (i - 8 - 8 - 8) = i := by omega
        simp [h0, show ¬ i - 8 < 8 by omega, show ¬ i - 8 - 8 < 8 by omega, this, BitVec.getLsbD_eq_getElem hi]

/-- A written word reads back. -/
theorem readWord_writeWord {m : Memory} (hm : wf m = true) (a : Nat) (w : Word) : readWord (writeWord m a w) a = w := by
  have h0 := read_writeWord_inside hm a w (i := 0) (by omega)
  rw [Nat.add_zero] at h0
  rw [readWord, read_writeWord_inside hm a w (i := 3) (by omega), read_writeWord_inside hm a w (i := 2) (by omega),
    read_writeWord_inside hm a w (i := 1) (by omega), h0]
  exact wordBytes_join w

end Sys2Proof.Machine.Memory
end

