-- ==== Sys2Proof/Laws/FlashMacro.lean ====
section
/-! SUPPORT. What a completion and a device reset can do, said once: which parts of the state they touch, and that they keep
the array's canonical form and bounds. -/

namespace Sys2Proof.Machine

/-- The flags of a completion, raised or owed, touch the status flags and nothing else. -/
theorem raiseOrOwe_frame (c : Config) (x : StatusFlags) (f : Flash) :
    raiseOrOwe c x f = { f with
      eop := (raiseOrOwe c x f).eop
      wrprterr := (raiseOrOwe c x f).wrprterr
      pgerr := (raiseOrOwe c x f).pgerr
      owed := (raiseOrOwe c x f).owed } := by
  simp only [raiseOrOwe]
  split <;> rfl

@[simp] theorem raiseOrOwe_key (c : Config) (x : StatusFlags) (f : Flash) : (raiseOrOwe c x f).key = f.key := by
  rw [raiseOrOwe_frame]
@[simp] theorem raiseOrOwe_bsy (c : Config) (x : StatusFlags) (f : Flash) : (raiseOrOwe c x f).bsy = f.bsy := by
  rw [raiseOrOwe_frame]
@[simp] theorem raiseOrOwe_cr (c : Config) (x : StatusFlags) (f : Flash) : (raiseOrOwe c x f).cr = f.cr := by
  rw [raiseOrOwe_frame]
@[simp] theorem raiseOrOwe_ar (c : Config) (x : StatusFlags) (f : Flash) : (raiseOrOwe c x f).ar = f.ar := by
  rw [raiseOrOwe_frame]
@[simp] theorem raiseOrOwe_inflight (c : Config) (x : StatusFlags) (f : Flash) :
    (raiseOrOwe c x f).inflight = f.inflight := by rw [raiseOrOwe_frame]
@[simp] theorem raiseOrOwe_mem (c : Config) (x : StatusFlags) (f : Flash) : (raiseOrOwe c x f).mem = f.mem := by
  rw [raiseOrOwe_frame]

/-- A completion raises the flags at once, or owes them all. -/
theorem raiseOrOwe_cases (c : Config) (x : StatusFlags) (f : Flash) :
    (c.splitCompletion = false ∧ raiseOrOwe c x f = raiseFlags x f) ∨
    (c.splitCompletion = true ∧ raiseOrOwe c x f = { f with owed := x }) := by
  cases h : c.splitCompletion <;> simp [raiseOrOwe, h]

/-- The macro's step, by what it owes and what is in flight. -/
theorem completionStep_cases (s : State) :
    (s.flash.owed ≠ StatusFlags.clear ∧ completionStep s = payOwed s) ∨
    (s.flash.owed = StatusFlags.clear ∧ s.flash.inflight = .none ∧ completionStep s = s) ∨
    (∃ p, s.flash.owed = StatusFlags.clear ∧ s.flash.inflight = .erase p ∧
      completionStep s = settle (completeErase p s) s) ∨
    (∃ a v, s.flash.owed = StatusFlags.clear ∧ s.flash.inflight = .program a v ∧
      completionStep s = settle (completeProgram a v s) s) := by
  by_cases ho : s.flash.owed = StatusFlags.clear
  · right
    cases hi : s.flash.inflight with
    | none => exact .inl ⟨ho, rfl, by simp [completionStep, ho, hi]⟩
    | erase p => exact .inr (.inl ⟨p, ho, rfl, by simp [completionStep, ho, hi]⟩)
    | program a v => exact .inr (.inr ⟨a, v, ho, rfl, by simp [completionStep, ho, hi]⟩)
  · exact .inl ⟨ho, by simp [completionStep, ho]⟩

/-- The completion of an erase raises exactly one of the flags, or none when it was rejected. -/
theorem completeErase_flags (p : Nat) (s : State) :
    (completeErase p s).flags = flagsWrprterr ∨ (completeErase p s).flags = StatusFlags.clear ∨
      (completeErase p s).flags = flagsEop := by
  simp only [completeErase]
  split
  · exact .inl rfl
  · split
    · exact .inr (.inl rfl)
    · exact .inr (.inr rfl)

/-- The completion of a program raises exactly one of the flags, or none when it was rejected. -/
theorem completeProgram_flags (a v : Word) (s : State) :
    (completeProgram a v s).flags = flagsWrprterr ∨ (completeProgram a v s).flags = StatusFlags.clear ∨
      (completeProgram a v s).flags = flagsEop ∨ (completeProgram a v s).flags = flagsPgerr := by
  simp only [completeProgram]
  split
  · exact .inl rfl
  · split
    · exact .inr (.inl rfl)
    · split
      · exact .inr (.inr (.inl rfl))
      · split
        · exact .inr (.inr (.inr rfl))
        · exact .inr (.inr (.inl rfl))

/-- The completion of an erase keeps the canonical form. -/
theorem completeErase_wf (p : Nat) {s : State} (h : Memory.wf s.flash.mem = true) :
    Memory.wf (completeErase p s).mem = true := by
  simp only [completeErase]
  split
  · exact h
  · split
    · dsimp only; exact Memory.update_wf _ h _ _
    · exact Memory.eraseRange_wf h _ _

/-- The completion of a program keeps the canonical form. -/
theorem completeProgram_wf (a v : Word) {s : State} (h : Memory.wf s.flash.mem = true) :
    Memory.wf (completeProgram a v s).mem = true := by
  simp only [completeProgram]
  split
  · exact h
  · split
    · exact Memory.writeWord_wf h _ _
    · split
      · exact Memory.writeWord_wf h _ _
      · split
        · exact h
        · exact Memory.writeWord_wf h _ _

/-- The completion of an erase changes no byte outside its page. -/
theorem completeErase_outside (p : Nat) (s : State) {x : Nat}
    (h : x < pageBase s.cfg p ∨ pageBase s.cfg p + Config.pageSize ≤ x) :
    Memory.read (completeErase p s).mem x = Memory.read s.flash.mem x := by
  simp only [completeErase]
  split
  · rfl
  · split
    · dsimp only; exact Memory.read_update_outside _ _ h
    · exact Memory.read_eraseRange_outside _ h

/-- The completion of a program changes no byte outside its word. -/
theorem completeProgram_outside (a v : Word) (s : State) {x : Nat} (h : x < a.toNat ∨ a.toNat + 4 ≤ x) :
    Memory.read (completeProgram a v s).mem x = Memory.read s.flash.mem x := by
  simp only [completeProgram]
  split
  · rfl
  · split
    · exact Memory.read_writeWord_outside _ _ h
    · split
      · exact Memory.read_writeWord_outside _ _ h
      · split
        · rfl
        · exact Memory.read_writeWord_outside _ _ h

/-- A page of the array lies inside the array. -/
theorem page_contained {c : Config} (hc : c.wf = true) {p : Nat} (hp : p < c.numPages) :
    c.contains (pageBase c p) Config.pageSize = true := by
  simp only [Config.wf, Bool.and_eq_true, decide_eq_true_eq] at hc
  obtain ⟨⟨⟨⟨⟨⟨_, _⟩, hmod⟩, _⟩, _⟩, _⟩, _⟩ := hc
  simp only [Config.numPages, Config.pageSize] at hp hmod
  simp only [Config.contains, Bool.and_eq_true, decide_eq_true_eq]
  simp only [pageBase, Config.flashEnd, Config.pageSize]
  omega

theorem completeErase_within {c : Config} (hc : c.wf = true) {p : Nat} (hp : p < c.numPages) {s : State} (hs : s.cfg = c)
    (h : Memory.within c s.flash.mem = true) : Memory.within c (completeErase p s).mem = true := by
  subst hs
  simp only [completeErase]
  split
  · exact h
  · split
    · dsimp only; exact Memory.update_within _ h (page_contained hc hp)
    · exact Memory.eraseRange_within h _ _

theorem completeProgram_within {c : Config} {a v : Word} (ha : c.contains a.toNat Config.wordBytes = true) {s : State}
    (h : Memory.within c s.flash.mem = true) : Memory.within c (completeProgram a v s).mem = true := by
  simp only [completeProgram]
  split
  · exact h
  · split
    · exact Memory.writeWord_within h ha _
    · split
      · exact Memory.writeWord_within h ha _
      · split
        · exact h
        · exact Memory.writeWord_within h ha _

@[simp] theorem settle_fcs (r : Completion) (s : State) : (settle r s).fcs = s.fcs := rfl
@[simp] theorem settle_port (r : Completion) (s : State) : (settle r s).port = s.port := rfl
@[simp] theorem settle_cfg (r : Completion) (s : State) : (settle r s).cfg = s.cfg := rfl
@[simp] theorem settle_moves (r : Completion) (s : State) : (settle r s).moves = s.moves := rfl
@[simp] theorem settle_poweredUp (r : Completion) (s : State) : (settle r s).poweredUp = s.poweredUp := rfl
@[simp] theorem settle_busData (r : Completion) (s : State) : (settle r s).busData = s.busData := rfl
@[simp] theorem settle_hostData (r : Completion) (s : State) : (settle r s).hostData = s.hostData := rfl
@[simp] theorem settle_draws (r : Completion) (s : State) : (settle r s).draws = s.draws + 2 := rfl
@[simp] theorem settle_flash (r : Completion) (s : State) : (settle r s).flash = raiseOrOwe s.cfg r.flags
    { s.flash with mem := r.mem, bsy := false, cr := { s.flash.cr with strt := false }, inflight := .none } := rfl

@[simp] theorem payOwed_fcs (s : State) : (payOwed s).fcs = s.fcs := rfl
@[simp] theorem payOwed_port (s : State) : (payOwed s).port = s.port := rfl
@[simp] theorem payOwed_cfg (s : State) : (payOwed s).cfg = s.cfg := rfl
@[simp] theorem payOwed_moves (s : State) : (payOwed s).moves = s.moves := rfl
@[simp] theorem payOwed_poweredUp (s : State) : (payOwed s).poweredUp = s.poweredUp := rfl
@[simp] theorem payOwed_draws (s : State) : (payOwed s).draws = s.draws := rfl
@[simp] theorem payOwed_mem (s : State) : (payOwed s).flash.mem = s.flash.mem := rfl

/-- A completion touches the environment and the count of draws only. -/
theorem completionStep_frame (s : State) :
    completionStep s = { s with flash := (completionStep s).flash, draws := (completionStep s).draws } := by
  rcases completionStep_cases s with ⟨_, h⟩ | ⟨_, _, h⟩ | ⟨_, _, _, h⟩ | ⟨_, _, _, _, h⟩ <;> rw [h] <;> rfl

/-- A completion keeps the canonical form. -/
theorem completionStep_wf {s : State} (h : Memory.wf s.flash.mem = true) :
    Memory.wf (completionStep s).flash.mem = true := by
  rcases completionStep_cases s with ⟨_, e⟩ | ⟨_, _, e⟩ | ⟨p, _, _, e⟩ | ⟨a, v, _, _, e⟩ <;> rw [e]
  · exact h
  · exact h
  · simpa using completeErase_wf p h
  · simpa using completeProgram_wf a v h

/-- A device reset keeps the canonical form. -/
theorem resetMem_wf {s : State} (h : Memory.wf s.flash.mem = true) : Memory.wf (resetMem s) = true :=
  Memory.update_wf _ h _ _

/-- A device reset changes no byte outside the operation in flight (70_reset_and_hazards R303). -/
theorem resetMem_outside (s : State) {x : Nat}
    (h : x < (coveredRange s.cfg s.flash.inflight).1 ∨
      (coveredRange s.cfg s.flash.inflight).1 + (coveredRange s.cfg s.flash.inflight).2 ≤ x) :
    Memory.read (resetMem s) x = Memory.read s.flash.mem x :=
  Memory.read_update_outside _ _ h

/-- Each byte of an operation in flight at a device reset is a draw (70_reset_and_hazards R303). -/
theorem resetMem_inside {s : State} (h : Memory.wf s.flash.mem = true) {x : Nat}
    (h1 : (coveredRange s.cfg s.flash.inflight).1 ≤ x)
    (h2 : x < (coveredRange s.cfg s.flash.inflight).1 + (coveredRange s.cfg s.flash.inflight).2) :
    Memory.read (resetMem s) x = s.nextByte x :=
  Memory.read_update_inside _ h h1 h2

/-- The contents at first power-up are in canonical form. -/
theorem powerUpMem_wf (s : State) : Memory.wf (powerUpMem s) = true := Memory.update_wf _ rfl _ _

/-- The contents at first power-up lie in the array. -/
theorem powerUpMem_within (s : State) : Memory.within s.cfg (powerUpMem s) = true :=
  Memory.update_within _ rfl (by simp [Config.contains, Config.flashEnd])

/-- Each byte of the array at first power-up is a draw (10_state R52). -/
theorem powerUpMem_inside (s : State) {x : Nat} (h1 : s.cfg.base ≤ x) (h2 : x < s.cfg.flashEnd) :
    Memory.read (powerUpMem s) x = s.nextByte x :=
  Memory.read_update_inside _ rfl h1 h2

@[simp] theorem resetTo_cfg (m : Memory) (s : State) : (resetTo m s).cfg = s.cfg := rfl
@[simp] theorem resetTo_moves (m : Memory) (s : State) : (resetTo m s).moves = s.moves := rfl
@[simp] theorem resetTo_poweredUp (m : Memory) (s : State) : (resetTo m s).poweredUp = s.poweredUp := rfl
@[simp] theorem resetTo_flash (m : Memory) (s : State) : (resetTo m s).flash = Flash.reset m := rfl
@[simp] theorem resetTo_fcs (m : Memory) (s : State) : (resetTo m s).fcs = resetFcs s := rfl
@[simp] theorem resetTo_port (m : Memory) (s : State) : (resetTo m s).port = resetPorts s := rfl
@[simp] theorem resetTo_busData (m : Memory) (s : State) : (resetTo m s).busData = s.busData := rfl
@[simp] theorem resetTo_hostData (m : Memory) (s : State) : (resetTo m s).hostData = s.hostData := rfl
@[simp] theorem resetTo_draws (m : Memory) (s : State) : (resetTo m s).draws = s.draws + 6 := rfl

@[simp] theorem deviceReset_cfg (s : State) : (deviceReset s).cfg = s.cfg := rfl
@[simp] theorem deviceReset_moves (s : State) : (deviceReset s).moves = s.moves := rfl
@[simp] theorem deviceReset_poweredUp (s : State) : (deviceReset s).poweredUp = s.poweredUp := rfl
@[simp] theorem deviceReset_flash (s : State) : (deviceReset s).flash = Flash.reset (resetMem s) := rfl
@[simp] theorem deviceReset_fcs (s : State) : (deviceReset s).fcs = resetFcs s := rfl
@[simp] theorem deviceReset_port (s : State) : (deviceReset s).port = resetPorts s := rfl

@[simp] theorem powerUp_cfg (s : State) : (powerUp s).cfg = s.cfg := rfl
@[simp] theorem powerUp_moves (s : State) : (powerUp s).moves = s.moves := rfl
@[simp] theorem powerUp_poweredUp (s : State) : (powerUp s).poweredUp = true := rfl
@[simp] theorem powerUp_flash (s : State) : (powerUp s).flash = Flash.reset (powerUpMem s) := rfl
@[simp] theorem powerUp_fcs (s : State) : (powerUp s).fcs = resetFcs s := rfl
@[simp] theorem powerUp_port (s : State) : (powerUp s).port = resetPorts s := rfl

end Sys2Proof.Machine
end

