-- ==== Sys2Proof/Laws/Completion.lean ====
section
/-! SUPPORT. What a completion leaves, in the terms of `eraseLeaves` and `programLeaves`, said once for the atomic completion
and the split one. -/

namespace Sys2Proof.Machine

/-- Byte `i` of a word of the array. -/
theorem wordByte_readWord (m : Memory) (a : Nat) {i : Nat} (hi : i < 4) :
    Memory.wordByte (Memory.readWord m a) i = Memory.read m (a + i) := by
  simp only [Memory.readWord, Memory.wordByte]
  apply BitVec.eq_of_getLsbD_eq
  intro j hj
  simp only [BitVec.getLsbD_extractLsb', BitVec.getLsbD_append]
  interval_cases i
  · simp [hj]
  · simp [hj, show 8 + j - 8 = j by omega]
  · simp [hj, show ¬ 16 + j < 8 by omega, show ¬ 16 + j - 8 < 8 by omega, show 16 + j - 8 - 8 = j by omega]
  · simp [hj, show ¬ 24 + j < 8 by omega, show ¬ 24 + j - 8 < 8 by omega, show ¬ 24 + j - 8 - 8 < 8 by omega,
      show 24 + j - 8 - 8 - 8 = j by omega]

/-- A word is erased exactly if its four bytes are. -/
theorem readWord_erased_iff (m : Memory) (a : Nat) :
    Memory.readWord m a = 0xFFFFFFFF#32 ↔ ∀ i < 4, Memory.read m (a + i) = 0xFF#8 := by
  constructor
  · intro h i hi
    rw [← wordByte_readWord m a hi, h]
    interval_cases i <;> rfl
  · intro h
    have h0 := h 0 (by omega)
    simp only [Nat.add_zero] at h0
    simp only [Memory.readWord, h0, h 1 (by omega), h 2 (by omega), h 3 (by omega)]
    rfl

/-- A bit of a byte of a word. -/
theorem getLsbD_wordByte (w : Word) (i : Nat) {j : Nat} (hj : j < 8) :
    (Memory.wordByte w i).getLsbD j = w.getLsbD (8 * i + j) := by
  simp [Memory.wordByte, hj]

/-- Writing a word in which no bit rises lets no bit of its bytes rise. -/
theorem writeWord_falls {m : Memory} (hw : Memory.wf m = true) (a : Nat) {w : Word}
    (h : w &&& ~~~(Memory.readWord m a) = 0#32) {i : Nat} (hi : i < 4) :
    Memory.read (Memory.writeWord m a w) (a + i) &&& ~~~(Memory.read m (a + i)) = 0#8 := by
  rw [Memory.read_writeWord_inside hw _ _ hi, ← wordByte_readWord m a hi]
  apply BitVec.eq_of_getLsbD_eq
  intro j hj
  have hk := congrArg (fun b => b.getLsbD (8 * i + j)) h
  simp only [BitVec.getLsbD_and, BitVec.getLsbD_not, BitVec.getLsbD_zero] at hk ⊢
  rw [getLsbD_wordByte _ _ hj, getLsbD_wordByte _ _ hj]
  simpa [hj, show 8 * i + j < 32 by omega] using hk

/-- Each bit of a byte of a partly programmed word is the old one or the old one AND the new one. -/
theorem partlyProgrammed_keeps {m : Memory} (hw : Memory.wf m = true) (a : Nat) (v w : Word) {i : Nat} (hi : i < 4) :
    Memory.read m (a + i) &&& Memory.wordByte v i &&&
      ~~~(Memory.read (Memory.writeWord m a (partlyProgrammed (Memory.readWord m a) v w)) (a + i)) = 0#8 := by
  rw [Memory.read_writeWord_inside hw _ _ hi, ← wordByte_readWord m a hi]
  apply BitVec.eq_of_getLsbD_eq
  intro j hj
  simp only [BitVec.getLsbD_and, BitVec.getLsbD_not, getLsbD_wordByte _ _ hj, partlyProgrammed, BitVec.getLsbD_or,
    BitVec.getLsbD_zero]
  grind

/-- The completion of an erase leaves what 44_regif_actions R255 says. -/
theorem completeErase_leaves (p : Nat) {s t : State} (hw : Memory.wf s.flash.mem = true)
    (ht : t.flash.mem = (completeErase p s).mem) : eraseLeaves s t p (completeErase p s).flags := by
  have houtside := fun x => completeErase_outside p s (x := x)
  simp only [eraseLeaves, byteAt, ht]
  simp only [pageBase, Config.base, Config.pageSize] at houtside
  by_cases hp : p ∈ s.cfg.wrpPages
  · simp [completeErase, hp, flagsWrprterr]
  · by_cases hr : rejects s = true
    · rw [if_neg hp, if_pos hr]
      refine ⟨by simp [completeErase, hp, hr, StatusFlags.clear], fun y => ⟨?_, houtside y⟩⟩
      simp only [completeErase, List.contains_eq_mem, hp, hr, decide_false, Bool.false_eq_true, if_false, if_true]
      by_cases hy : pageBase s.cfg p ≤ y ∧ y < pageBase s.cfg p + Config.pageSize
      · rw [Memory.read_update_inside _ hw hy.1 hy.2]
        apply BitVec.eq_of_getLsbD_eq
        intro j hj
        simp only [BitVec.getLsbD_and, BitVec.getLsbD_not, BitVec.getLsbD_or, BitVec.getLsbD_zero]
        grind
      · rw [Memory.read_update_outside _ _ (by omega)]
        simp
    · rw [if_neg hp, if_neg hr]
      refine ⟨by simp [completeErase, hp, hr, flagsEop], fun y => ?_⟩
      split
      · rename_i hy
        simp only [completeErase, List.contains_eq_mem, hp, hr, decide_false, Bool.false_eq_true, if_false]
        exact Memory.read_eraseRange_inside _ hy.1 hy.2
      · exact houtside y (by omega)

/-- The completion of a program leaves what 44_regif_actions R255 and R256 say. -/
theorem completeProgram_leaves (a v : Word) {s t : State} (hw : Memory.wf s.flash.mem = true)
    (ht : t.flash.mem = (completeProgram a v s).mem) : programLeaves s t a v (completeProgram a v s).flags := by
  refine ⟨fun y hy => by rw [byteAt, ht]; exact completeProgram_outside a v s hy, ?_⟩
  simp only [byteAt, ht]
  by_cases hp : (a.toNat - s.cfg.flashBase.toNat) / 2048 ∈ s.cfg.wrpPages
  · have hp' : pageOf s.cfg a.toNat ∈ s.cfg.wrpPages := hp
    simp [completeProgram, hp, hp', flagsWrprterr]
  · have hp' : pageOf s.cfg a.toNat ∉ s.cfg.wrpPages := hp
    rw [if_neg hp]
    by_cases hr : rejects s = true
    · simp only [completeProgram, List.contains_eq_mem, hp', hr, decide_false, Bool.false_eq_true, if_false, if_true]
      refine ⟨rfl, fun i hi => ⟨writeWord_falls hw _ ?_ hi, partlyProgrammed_keeps hw _ _ _ hi⟩⟩
      apply BitVec.eq_of_getLsbD_eq
      intro j hj
      simp only [partlyProgrammed, BitVec.getLsbD_and, BitVec.getLsbD_not, BitVec.getLsbD_zero]
      grind
    · by_cases he : Memory.readWord s.flash.mem a.toNat = 0xFFFFFFFF#32
      · simp only [completeProgram, List.contains_eq_mem, hp', hr, he, decide_false, Bool.false_eq_true, if_false, if_true]
        exact ⟨rfl, fun i hi => Memory.read_writeWord_inside hw _ _ hi⟩
      · simp only [completeProgram, List.contains_eq_mem, hp', hr, he, decide_false, Bool.false_eq_true, if_false]
        split
        · exact .inl ⟨rfl, rfl⟩
        · refine .inr ⟨rfl, fun i hi => writeWord_falls hw _ ?_ hi⟩
          rw [BitVec.and_assoc]
          simp

end Sys2Proof.Machine
end

