-- ==== Sys2Proof/Laws/PerInstr.lean ====
section
/-! SUPPORT. A statement for every instruction, made constructor by constructor: the encoder's word has the bits that the
instruction's row of spec/opcode_table.json fixes. -/

namespace Sys2Proof.Laws.TableRow

/-- The mask and match columns of the instruction's row; `none` where the row gives none. -/
def maskMatch : Instr → Option (Word × Word)
  | .erasePage _ _ => some (0xFFFFFFFF#32, 0x00000001#32)
  | .programWord _ _ => some (0xFFFFFFFF#32, 0x00000002#32)
  | .rdSr => none
  | .rdCr => none
  | .wrKeyrKey1 => some (0xFFFFFFFF#32, 0x45670123#32)
  | .wrKeyrKey2 => some (0xFFFFFFFF#32, 0xCDEF89AB#32)
  | .w1cSrEop => some (0xFFFFFFFF#32, 0x00000020#32)
  | .w1cSrWrprterr => some (0xFFFFFFFF#32, 0x00000010#32)
  | .w1cSrBoth => some (0xFFFFFFFF#32, 0x00000030#32)
  | .setPer => some (0x00000002#32, 0x00000002#32)
  | .setPg => some (0x00000001#32, 0x00000001#32)
  | .clrPer => some (0x00000002#32, 0x00000000#32)
  | .clrPg => some (0x00000001#32, 0x00000000#32)
  | .setStrt => some (0x00000040#32, 0x00000040#32)
  | .wrAr _ => none
  | .wrMem32 _ _ => none

/-- The word of an encoding that a row can fix: a frame's first word, or the data of a write or of a modify. -/
def fixedWord : Encoding → Option Word
  | .frame f => some f.cmd
  | .bus (.read32 _) => none
  | .bus (.write32 _ v) => some v
  | .bus (.modify32 _ _ v) => some v

/-- The encoder's word obeys the instruction's row, and the instruction is a frame exactly if it is a command. -/
def Statement (i : Instr) : Prop :=
  (∀ mask value, maskMatch i = some (mask, value) → ∃ w, fixedWord (encode i) = some w ∧ w &&& mask = value) ∧
    (i.isCommand = true ↔ ∃ f, encode i = .frame f)

theorem erasePage (a d : Word) : Statement (.erasePage a d) := by
  simp [Statement, maskMatch, fixedWord, encode, Instr.isCommand]
theorem programWord (a v : Word) : Statement (.programWord a v) := by
  simp [Statement, maskMatch, fixedWord, encode, Instr.isCommand]
theorem rdSr : Statement .rdSr := by
  simp [Statement, maskMatch, fixedWord, encode, Instr.isCommand]
theorem rdCr : Statement .rdCr := by
  simp [Statement, maskMatch, fixedWord, encode, Instr.isCommand]
theorem wrKeyrKey1 : Statement .wrKeyrKey1 := by
  simp [Statement, maskMatch, fixedWord, encode, Instr.isCommand, Config.key1]
theorem wrKeyrKey2 : Statement .wrKeyrKey2 := by
  simp [Statement, maskMatch, fixedWord, encode, Instr.isCommand, Config.key2]
theorem w1cSrEop : Statement .w1cSrEop := by
  simp [Statement, maskMatch, fixedWord, encode, Instr.isCommand]
theorem w1cSrWrprterr : Statement .w1cSrWrprterr := by
  simp [Statement, maskMatch, fixedWord, encode, Instr.isCommand]
theorem w1cSrBoth : Statement .w1cSrBoth := by
  simp [Statement, maskMatch, fixedWord, encode, Instr.isCommand]
theorem setPer : Statement .setPer := by
  simp [Statement, maskMatch, fixedWord, encode, Instr.isCommand]
theorem setPg : Statement .setPg := by
  simp [Statement, maskMatch, fixedWord, encode, Instr.isCommand]
theorem clrPer : Statement .clrPer := by
  simp [Statement, maskMatch, fixedWord, encode, Instr.isCommand]
theorem clrPg : Statement .clrPg := by
  simp [Statement, maskMatch, fixedWord, encode, Instr.isCommand]
theorem setStrt : Statement .setStrt := by
  simp [Statement, maskMatch, fixedWord, encode, Instr.isCommand]
theorem wrAr (a : Word) : Statement (.wrAr a) := by
  simp [Statement, maskMatch, fixedWord, encode, Instr.isCommand]
theorem wrMem32 (a v : Word) : Statement (.wrMem32 a v) := by
  simp [Statement, maskMatch, fixedWord, encode, Instr.isCommand]

end Sys2Proof.Laws.TableRow
end

