-- ==== Sys2Proof/Laws/Sequencer.lean ====
section
/-! SUPPORT. What a step of the sequencer can do, said once: the codes name the states, a bus state's step is its action and
its transition, and a transition touches the sequencer's own registers only. -/

namespace Sys2Proof.Machine

@[simp] theorem Fsm.ofCode_code (q : Fsm) : Fsm.ofCode q.code = some q := by cases q <;> rfl

@[simp] theorem Fsm.code_inj {q r : Fsm} : q.code = r.code ↔ q = r := by
  constructor
  · intro h
    have := congrArg Fsm.ofCode h
    simpa using this
  · rintro rfl; rfl

/-- The sequencer's step in the state `st` names. -/
theorem sequencerStep_at {s : State} {q : Fsm} (h : s.fcs.st = q.code) : sequencerStep s = stepIn q s := by
  simp [sequencerStep, h]

/-- The first step of a machine is its power-up. -/
theorem step_unpowered {s : State} (hp : s.poweredUp = false) : step s = .next (powerUp s) := by
  simp [step, systemStep, hp]

/-- With nothing scheduled the sequencer moves. -/
theorem step_unscheduled {s : State} (hp : s.poweredUp = true) (h : s.moves = []) : step s = sequencerStep s := by
  simp [step, systemStep, agentStep, hp, h]

/-- A scheduled move is taken off the schedule and made. -/
theorem step_scheduled {s : State} {m : Move} {ms : List Move} (hp : s.poweredUp = true) (h : s.moves = m :: ms) :
    step s = applyMove m (s.setMoves ms) := by
  simp [step, systemStep, agentStep, hp, h]

/-- A state that issues a bus action takes that action and then its transition. -/
theorem stepIn_bus {q : Fsm} (hq : q ≠ .idle) (hr : q ≠ .respond) (s : State) : stepIn q s = busStep q s := by
  cases q <;> first | rfl | exact absurd rfl hq | exact absurd rfl hr

/-- If a bus state's step answers a next state, it is its action's next state after the transition. -/
theorem busStep_next {q : Fsm} {s t : State} (h : busStep q s = .next t) :
    ∃ i u, busAction s.cfg s.fcs q = some i ∧ exec i s = .next u ∧ t = advance q u := by
  simp only [busStep] at h
  split at h
  · rename_i i hi
    cases hu : exec i s with
    | next u =>
      simp only [hu, thenAdvance] at h
      cases h
      exact ⟨i, u, hi, hu, rfl⟩
    | fault r => simp [hu, thenAdvance] at h
    | refused r => simp [hu, thenAdvance] at h
  · cases h

/-- A bus state's step, from its action and what that answers. -/
theorem busStep_of_exec {q : Fsm} {s u : State} {i : Instr} (hi : busAction s.cfg s.fcs q = some i)
    (hu : exec i s = .next u) : busStep q s = .next (advance q u) := by
  simp [busStep, hi, hu, thenAdvance]

/-- The sequencer issues bus actions only, never a command. -/
theorem busAction_isCommand {c : Config} {f : Fcs} {q : Fsm} {i : Instr} (h : busAction c f q = some i) :
    i.isCommand = false := by
  unfold busAction at h
  split at h
  · cases q <;> simp only at h <;> first
      | (cases h; rfl)
      | (cases h)
      | (split at h <;> (cases h; rfl))
  · cases h

/-- A transition changes the sequencer's registers and nothing else. -/
theorem advance_frame (q : Fsm) (s : State) : advance q s = { s with fcs := (advance q s).fcs } := by
  cases q <;> simp only [advance, afterUnlocked, enterPoll, pollNext, timeOut, classify] <;> repeat' (first | rfl | split)

/-- A transition keeps the latched command. -/
theorem advance_command (q : Fsm) (s : State) :
    (advance q s).fcs.cOp = s.fcs.cOp ∧ (advance q s).fcs.cAddr = s.fcs.cAddr ∧ (advance q s).fcs.cData = s.fcs.cData := by
  cases q <;> simp only [advance, afterUnlocked, enterPoll, pollNext, timeOut, classify] <;>
    repeat' (first | exact ⟨rfl, rfl, rfl⟩ | exact ⟨trivial, trivial, trivial⟩ | split)

@[simp] theorem advance_flash (q : Fsm) (s : State) : (advance q s).flash = s.flash := by rw [advance_frame]
@[simp] theorem advance_port (q : Fsm) (s : State) : (advance q s).port = s.port := by rw [advance_frame]
@[simp] theorem advance_cfg (q : Fsm) (s : State) : (advance q s).cfg = s.cfg := by rw [advance_frame]
@[simp] theorem advance_moves (q : Fsm) (s : State) : (advance q s).moves = s.moves := by rw [advance_frame]
@[simp] theorem advance_poweredUp (q : Fsm) (s : State) : (advance q s).poweredUp = s.poweredUp := by rw [advance_frame]
@[simp] theorem advance_draws (q : Fsm) (s : State) : (advance q s).draws = s.draws := by rw [advance_frame]
@[simp] theorem advance_busData (q : Fsm) (s : State) : (advance q s).busData = s.busData := by rw [advance_frame]
@[simp] theorem advance_hostData (q : Fsm) (s : State) : (advance q s).hostData = s.hostData := by rw [advance_frame]

end Sys2Proof.Machine
end

