-- ==== Sys2Proof/Laws/Step.lean ====
section
/-! SUPPORT. What one step of the machine can do: the step is one agent's move, and only the flash macro, a device reset
and the first power-up touch the array's contents. -/

namespace Sys2Proof.Machine

/-! ### Which move a step is -/

/-- The sequencer's turn is its step in the state without the scheduled move. -/
theorem step_sequencer {s : State} (h : sequencerIsNext s = true) : step s = sequencerStep s.taken := by
  have hp : s.poweredUp = true := by simp only [sequencerIsNext, Bool.and_eq_true] at h; exact h.1
  cases hm : s.moves with
  | nil => rw [step_unscheduled hp hm]; congr 1; cases s; simp_all [State.taken]
  | cons m ms =>
    simp [sequencerIsNext, hp, hm] at h
    subst h
    rw [step_scheduled hp hm]
    simp only [applyMove, State.taken, hm, List.tail_cons, State.setMoves]

/-- A step of a machine that is powered up and answers a next state is one move: the sequencer's where none is scheduled, or
the first scheduled one. -/
theorem step_inversion {s t : State} (hp : s.poweredUp = true) (h : step s = .next t) :
    ∃ m, ((s.moves = [] ∧ m = .sequencer) ∨ ∃ rest, s.moves = m :: rest) ∧ applyMove m s.taken = .next t := by
  cases hm : s.moves with
  | nil =>
    refine ⟨.sequencer, .inl ⟨rfl, rfl⟩, ?_⟩
    rw [step_unscheduled hp hm] at h
    have e : s.taken = s := by cases s; simp_all [State.taken]
    rw [e]
    exact h
  | cons m ms =>
    refine ⟨m, .inr ⟨ms, rfl⟩, ?_⟩
    rw [step_scheduled hp hm] at h
    have e : s.taken = s.setMoves ms := by simp [State.taken, hm, State.setMoves]
    rw [e]
    exact h

/-- A code that names a state is the code of that state. -/
theorem Fsm.code_of_ofCode {b : BitVec 5} {q : Fsm} (h : Fsm.ofCode b = some q) : b = q.code := by
  revert b
  cases q <;> decide

/-- `IDLE`'s step. -/
theorem step_idle {s : State} (h : sequencerIsNext s = true) (hs : s.fcs.st = Fsm.idle.code) :
    step s = idleStep s.taken := by
  rw [step_sequencer h, sequencerStep_at (s := s.taken) hs]
  rfl

/-- A bus state's step, from its action and what that answers. -/
theorem step_of_exec {s u : State} {q : Fsm} {i : Instr} (h : sequencerIsNext s = true) (hs : s.fcs.st = q.code)
    (hi : busAction s.cfg s.fcs q = some i) (hu : exec i s.taken = .next u) : step s = .next (advance q u) := by
  have h1 : q ≠ .idle := by rintro rfl; simp [busAction] at hi
  have h2 : q ≠ .respond := by rintro rfl; simp [busAction] at hi
  have hi' : busAction s.taken.cfg s.taken.fcs q = some i := hi
  rw [step_sequencer h, sequencerStep_at (s := s.taken) hs, stepIn_bus h1 h2, busStep_of_exec hi' hu]

/-! ### What a move leaves -/

/-- The frame decoder reads commands only. -/
theorem decodeFrame_isCommand {f : Frame} {i : Instr} (h : decodeFrame f = .ok i) : i.isCommand = true := by
  unfold decodeFrame at h
  repeat' (split at h)
  all_goals cases h
  all_goals rfl

/-- The sequencer changes neither the parameters, nor the schedule, nor the array's contents, nor whether the machine is
powered up. -/
theorem sequencerStep_frame {s t : State} (h : sequencerStep s = .next t) :
    t.cfg = s.cfg ∧ t.moves = s.moves ∧ t.flash.mem = s.flash.mem ∧ t.poweredUp = s.poweredUp := by
  unfold sequencerStep at h
  split at h
  · rename_i q _
    by_cases h1 : q = .idle
    · subst h1
      simp only [stepIn, idleStep] at h
      split at h
      · unfold acceptFrame at h
        split at h
        · rename_i hd
          obtain ⟨a, b, c, _, _, _, _, _, d⟩ := exec_command_frame (decodeFrame_isCommand hd) h
          simp [a, b, c, d]
        · cases h; simp [acceptIllegal, accept]
      · cases h; simp
    by_cases h2 : q = .respond
    · subst h2; cases h; simp [respond]
    rw [stepIn_bus h1 h2] at h
    obtain ⟨i, u, hi, hu, rfl⟩ := busStep_next h
    obtain ⟨_, _, a, b, _, c, _, d⟩ := exec_bus_frame (busAction_isCommand hi) hu
    simp [a, b, c, d]
  · cases h

/-- A whole-word write of `CR` leaves the array's contents. -/
theorem crWrite_mem (c : Config) (v : Word) (f : Flash) : (crWrite c v f).mem = f.mem := by
  simp only [crWrite]
  split
  · rfl
  · show (if v.getLsbD 6 = true then startErase c _ else _ : Flash).mem = _
    split
    · rw [startErase_frame]
    · rfl

/-- Every move but the flash macro's and a device reset leaves the parameters, the schedule, the array's contents, and
whether the machine is powered up. -/
theorem applyMove_frame {m : Move} {s t : State} (h : applyMove m s = .next t) (h1 : m ≠ .completion)
    (h2 : m ≠ .deviceReset) :
    t.cfg = s.cfg ∧ t.moves = s.moves ∧ t.flash.mem = s.flash.mem ∧ t.poweredUp = s.poweredUp := by
  cases m with
  | completion => exact absurd rfl h1
  | deviceReset => exact absurd rfl h2
  | sequencer => exact sequencerStep_frame h
  | issue => simp only [applyMove, hostIssue] at h; split at h <;> cases h; simp
  | pollValid => cases h; simp [hostPollValid]
  | collect => simp only [applyMove, hostCollect] at h; split at h <;> cases h; simp
  | readRsp => cases h; simp only [hostReadRsp]; split <;> simp
  | readFlash a w =>
    simp only [applyMove, readFlash] at h
    split at h
    · split at h <;> cases h <;> simp
    · cases h
  | foreignRead r => simp only [applyMove, foreignAccess] at h; split at h <;> cases h; cases r <;> simp [regRead]
  | foreignWrite r v =>
    simp only [applyMove, foreignAccess] at h
    split at h
    · cases h
    · cases r with
      | keyr => rw [keyWrite_next h]; simp
      | sr => cases h; simp
      | ar => cases h; simp only [State.setFlash_flash]; rw [latchAr_frame]; simp
      | cr => cases h; simp [crWrite_mem]
  | foreignArrayWrite a w v =>
    simp only [applyMove, foreignAccess] at h
    split at h <;> cases h

/-- Every move keeps the parameters, the schedule, and whether the machine is powered up. -/
theorem applyMove_keeps {m : Move} {s t : State} (h : applyMove m s = .next t) :
    t.cfg = s.cfg ∧ t.moves = s.moves ∧ t.poweredUp = s.poweredUp := by
  by_cases h1 : m = .completion
  · subst h1; cases h; rw [completionStep_frame]; exact ⟨rfl, rfl, rfl⟩
  by_cases h2 : m = .deviceReset
  · subst h2; cases h; exact ⟨rfl, rfl, rfl⟩
  obtain ⟨a, b, _, d⟩ := applyMove_frame h h1 h2
  exact ⟨a, b, d⟩

/-- Every step keeps the parameters and leaves a machine that is powered up: there is no second power-up (log entry 32). -/
theorem step_keeps {s t : State} (h : step s = .next t) : t.cfg = s.cfg ∧ t.poweredUp = true := by
  cases hp : s.poweredUp with
  | false => rw [step_unpowered hp] at h; cases h; exact ⟨rfl, rfl⟩
  | true =>
    obtain ⟨m, _, hm⟩ := step_inversion hp h
    obtain ⟨a, _, d⟩ := applyMove_keeps hm
    exact ⟨a, d.trans hp⟩

/-- A step of a machine that is powered up takes the first move off the schedule. -/
theorem step_moves {s t : State} (hp : s.poweredUp = true) (h : step s = .next t) : t.moves = s.moves.tail := by
  obtain ⟨m, _, hm⟩ := step_inversion hp h
  exact (applyMove_keeps hm).2.1

/-! ### The placed instruction is the one the next step runs -/

/-- The opcode placed with a bus action names an operation. -/
theorem legalOpOr_cases (op : BitVec 2) : legalOpOr op = opErase ∨ legalOpOr op = opProgram := by
  simp only [legalOpOr]
  split
  · assumption
  · exact .inl rfl

/-- A placed bus action is the one the sequencer issues next (log entry 20). -/
theorem issuedAction_placeInstr {i : Instr} (hi : i.isCommand = false) (s : State) :
    issuedAction (placeInstr i s) = some i := by
  have h := legalOpOr_cases s.fcs.cOp
  cases i with
  | erasePage => cases hi
  | programWord => cases hi
  | setPer => rfl
  | setPg => rfl
  | clrPer => rfl
  | clrPg => rfl
  | setStrt => rfl
  | wrMem32 a v => rfl
  | _ => rcases h with h | h <;> (simp only [issuedAction, placeInstr, State.at, h]; rfl)

/-! ### Runs, one step at a time -/

/-- A run of one step more. -/
theorem steps_succ {s t : State} (h : step s = .next t) (k : Nat) : steps (k + 1) s = steps k t := by
  simp [steps, h]

/-- The trace of a run of one step more. -/
theorem trace_succ {s t : State} (h : step s = .next t) (k : Nat) :
    trace (k + 1) s = (nextAction s).toList ++ trace k t := by
  simp [trace, h]

/-- A run in two parts. -/
theorem steps_add {s t : State} {j : Nat} (h : steps j s = .next t) (k : Nat) : steps (j + k) s = steps k t := by
  induction j generalizing s with
  | zero => cases h; rw [Nat.zero_add]
  | succ j ih =>
    rw [Nat.succ_add]
    simp only [steps] at h ⊢
    split at h
    · exact ih h
    · cases h
    · cases h

/-- An invariant of steps is an invariant of runs. -/
theorem steps_induction {P : State → Prop} (hP : ∀ s t, P s → step s = .next t → P t) {k : Nat} {s t : State} (hs : P s)
    (h : steps k s = .next t) : P t := by
  induction k generalizing s with
  | zero => cases h; exact hs
  | succ k ih =>
    simp only [steps] at h
    split at h
    · rename_i u hu
      exact ih (hP _ _ hs hu) h
    · cases h
    · cases h

end Sys2Proof.Machine
end

