-- ==== Sys2Proof/Tests/Slice0.lean ====
section
/-! SUPPORT. Tests of one step each, with results taken from spec/95_test_vectors.md and from the spec's rules (named in each
comment), and for every obligation with hypotheses a concrete state and operands that meet them. -/

namespace Sys2Proof.Tests

open Sys2Proof Sys2Proof.Machine

/-! ### Helpers -/

/-- The next state of an outcome. -/
def nextOf : Host.Outcome State Fault Refusal → Option State
  | .next t => some t
  | .fault _ => none
  | .refused _ => none

/-- The fault of an outcome. -/
def faultOf : Host.Outcome State Fault Refusal → Option Fault
  | .next _ => none
  | .fault r => some r
  | .refused _ => none

theorem exists_next {o : Host.Outcome State Fault Refusal} (h : (nextOf o).isSome = true) : ∃ t, o = .next t := by
  cases o with
  | next t => exact ⟨t, rfl⟩
  | fault r => cases h
  | refused r => cases h

/-- The start state S0 of 95_test_vectors section 0, powered up, with a given schedule. -/
def s0 (ms : List Move) : State :=
  { State.reset with flash := { State.reset.flash with key := .unlocked }, moves := ms, poweredUp := true }

/-- S0 with a key state. -/
def keyed (k : KeyState) (ms : List Move) : State := { s0 ms with flash := { (s0 ms).flash with key := k } }

/-- S0 with status flags. -/
def flagged (eop wrp pg bsy : Bool) : State :=
  { s0 [] with flash := { (s0 []).flash with eop := eop, wrprterr := wrp, pgerr := pg, bsy := bsy } }

/-- The sequencer in a state of a command on the word 0x0800_3000, from an environment. -/
def inFsm (q : Fsm) (op : BitVec 2) (s : State) : State :=
  { s with fcs := { s.fcs with st := q.code, cOp := op, cAddr := 0x08003000#32, cData := 0x12345678#32 } }

/-- S0 with an operation in flight. -/
def busyWith (op : Inflight) (ms : List Move) : State :=
  { s0 ms with flash := { (s0 ms).flash with bsy := true, inflight := op, cr := { ControlReg.clear with strt := true } } }

/-- S0 with an enable bit, and `AR` written. -/
def enabled (per pg : Bool) (ar : Word) : State :=
  { s0 [] with flash := { (s0 []).flash with cr := { ControlReg.clear with per := per, pg := pg }, ar := ar } }

/-- S0 with array contents. -/
def stored (m : Memory) (s : State) : State := { s with flash := { s.flash with mem := m } }

/-- S0 with a frame on the command port. -/
def issued (c a d : Word) (ms : List Move) : State :=
  { s0 ms with port := { (s0 ms).port with cmd := c, addr := a, data := d, cmdPending := true } }

/-! ### WellFormed: an ill-formed term for each check -/

theorem test_wf_refuses_a_misaligned_payload : Instr.wf Config.ex (.wrMem32 0x08003002#32 0#32) = false := by decide
theorem test_wf_refuses_a_payload_outside : Instr.wf Config.ex (.wrMem32 0x08040000#32 0#32) = false := by decide
theorem test_wf_refuses_a_payload_on_a_register :
    Instr.wf { Config.ex with flashBase := 0x40022000#32, flashSize := 0x800 } (.wrMem32 0x40022010#32 0#32) = false := by
  decide
theorem test_wf_accepts_the_last_word : Instr.wf Config.ex (.wrMem32 0x0803FFFC#32 0#32) = true := by decide
theorem test_config_ex_is_wf : Config.ex.wf = true := by decide
theorem test_config_refuses_a_zero_poll_limit : ({ Config.ex with pollLimit := 0 } : Config).wf = false := by decide

/-! ### Decode: each row's word written out from 30_encoding R101 and R106 -/

theorem test_decode_erase_page :
    decodeFrame ⟨0b00000000000000000000000000000001#32, 0x08003000#32, 0xDEADBEEF#32⟩
      = .ok (.erasePage 0x08003000#32 0xDEADBEEF#32) := by rfl
theorem test_decode_program_word :
    decodeFrame ⟨0b00000000000000000000000000000010#32, 0x08003000#32, 0x12345678#32⟩
      = .ok (.programWord 0x08003000#32 0x12345678#32) := by rfl
theorem test_decode_rd_sr : decodeBus Config.ex (.read32 0x4002200C#32) = .ok .rdSr := by rfl
theorem test_decode_rd_cr : decodeBus Config.ex (.read32 0x40022010#32) = .ok .rdCr := by rfl
theorem test_decode_key1 : decodeBus Config.ex (.write32 0x40022004#32 0x45670123#32) = .ok .wrKeyrKey1 := by rfl
theorem test_decode_key2 : decodeBus Config.ex (.write32 0x40022004#32 0xCDEF89AB#32) = .ok .wrKeyrKey2 := by rfl
theorem test_decode_w1c_eop : decodeBus Config.ex (.write32 0x4002200C#32 0x20#32) = .ok .w1cSrEop := by rfl
theorem test_decode_w1c_wrprterr : decodeBus Config.ex (.write32 0x4002200C#32 0x10#32) = .ok .w1cSrWrprterr := by rfl
theorem test_decode_w1c_both : decodeBus Config.ex (.write32 0x4002200C#32 0x30#32) = .ok .w1cSrBoth := by rfl
theorem test_decode_set_per : decodeBus Config.ex (.modify32 0x40022010#32 0x2#32 0x2#32) = .ok .setPer := by rfl
theorem test_decode_set_pg : decodeBus Config.ex (.modify32 0x40022010#32 0x1#32 0x1#32) = .ok .setPg := by rfl
theorem test_decode_clr_per : decodeBus Config.ex (.modify32 0x40022010#32 0x2#32 0x0#32) = .ok .clrPer := by rfl
theorem test_decode_clr_pg : decodeBus Config.ex (.modify32 0x40022010#32 0x1#32 0x0#32) = .ok .clrPg := by rfl
theorem test_decode_set_strt : decodeBus Config.ex (.modify32 0x40022010#32 0x40#32 0x40#32) = .ok .setStrt := by rfl
theorem test_decode_wr_ar : decodeBus Config.ex (.write32 0x40022014#32 0x08003000#32) = .ok (.wrAr 0x08003000#32) := by rfl
theorem test_decode_wr_mem32 :
    decodeBus Config.ex (.write32 0x08003000#32 0x12345678#32) = .ok (.wrMem32 0x08003000#32 0x12345678#32) := by rfl

-- vectors V1 to V4: the reserved frames
theorem test_decode_refuses_op_00 : decodeFrame ⟨0x0#32, 0x08003000#32, 0#32⟩ = .error .reservedOp := by rfl
theorem test_decode_refuses_op_11 : decodeFrame ⟨0x3#32, 0x08003000#32, 0#32⟩ = .error .reservedOp := by rfl
theorem test_decode_refuses_bit_31 : decodeFrame ⟨0x80000001#32, 0x08003000#32, 0#32⟩ = .error .reservedBits := by rfl
theorem test_decode_refuses_bit_2 : decodeFrame ⟨0x5#32, 0x08003000#32, 0#32⟩ = .error .reservedBits := by rfl
theorem test_decode_refuses_another_key :
    decodeBus Config.ex (.write32 0x40022004#32 0xCDEF89AA#32) = .error .unknownRegisterValue := by rfl
theorem test_decode_refuses_a_read_of_ar : decodeBus Config.ex (.read32 0x40022014#32) = .error .unknownRead := by rfl
theorem test_decode_refuses_a_misaligned_payload :
    decodeBus Config.ex (.write32 0x08003002#32 0#32) = .error .notAnArrayWord := by rfl
theorem test_decode_refuses_a_modify_of_lock :
    decodeBus Config.ex (.modify32 0x40022010#32 0x80#32 0x80#32) = .error .unknownModify := by rfl

-- 30_encoding R108, with the lines of program L3-1
theorem test_assemble_erase :
    assembleLine ['e', 'r', 'a', 's', 'e', '_', 'p', 'a', 'g', 'e', ' ', ' ', '0', 'x', '0', '8', '0', '0', '3', '0', '0', '0']
      = some ⟨0x1#32, 0x08003000#32, 0#32⟩ := by decide
theorem test_assemble_program :
    assembleLine ['p', 'r', 'o', 'g', 'r', 'a', 'm', '_', 'w', 'o', 'r', 'd', ' ', '1', '3', '4', '2', '3', '0', '0', '1', '6',
      ',', ' ', '0', 'x', '1', '2', '3', '4', '_', '5', '6', '7', '8'] = some ⟨0x2#32, 0x08003000#32, 0x12345678#32⟩ := by decide
theorem test_program_of_two_lines_is_issued_in_order :
    issuesProgram [['e', 'r', 'a', 's', 'e', '_', 'p', 'a', 'g', 'e', ' ', '0', 'x', '8', '0', '0', '3', '0', '0', '0'],
      ['p', 'r', 'o', 'g', 'r', 'a', 'm', '_', 'w', 'o', 'r', 'd', ' ', '4', ',', '5']]
      (s0 (programMoves [(⟨0x1#32, 0x08003000#32, 0#32⟩, [.sequencer, .pollValid]), (⟨0x2#32, 4#32, 5#32⟩, [.completion])]))
      = true := by decide
theorem test_assemble_refuses_33_bits : literal ['0', 'x', '1', '0', '0', '0', '0', '0', '0', '0', '0'] = none := by decide

-- the opcode table's words, and the placing of one
theorem test_table_word_of_key2 : decodeTableWord 32 0xCDEF89AB = some .wrKeyrKey2 := by rfl
theorem test_table_word_of_set_strt : decodeTableWord 8 0x40 = some .setStrt := by rfl
theorem test_placed_key2_runs :
    (nextOf (step (State.reset.withFetchWord 32 0xCDEF89AB))).map (fun t => t.flash.key) = some .lockedOut := by decide
theorem test_placed_erase_is_accepted :
    (nextOf (step (State.reset.withFetchWord 96 (0x1 + 0x08003000 * 2 ^ 32)))).map (fun t => (t.fcs.st, t.fcs.cAddr))
      = some (1#5, 0x08003000#32) := by decide

/-! ### Acceptance (the examples of 40_entry_unlock R131 to R133) -/

theorem test_accept_last_page :
    (nextOf (exec (.erasePage 0x0803F800#32 0#32) (s0 []))).map (fun t => t.fcs.st) = some 1#5 := by decide
theorem test_refuse_page_at_flash_end :
    (nextOf (exec (.erasePage 0x08040000#32 0#32) (s0 []))).map (fun t => (t.fcs.st, t.fcs.out))
      = some (16#5, .invalidAddress) := by decide
theorem test_accept_last_word :
    (nextOf (exec (.programWord 0x0803FFFC#32 0#32) (s0 []))).map (fun t => (t.fcs.st, t.fcs.cOp)) = some (1#5, 2#2) := by
  decide
theorem test_refuse_word_below_base :
    (nextOf (exec (.programWord 0x07FFFFFC#32 0#32) (s0 []))).map (fun t => t.fcs.out) = some .invalidAddress := by decide
-- 40_entry_unlock R133: with `FLASH_END = 2^32` the last word is valid and does not wrap
theorem test_accept_last_word_of_the_space :
    validAddr { Config.ex with flashBase := 0xFFFC0000#32 } opProgram 0xFFFFFFFC#32 = true := by decide

/-! ### Bus actions -/

-- the example of 44_regif_actions R231, and vector W5's `SR` value
theorem test_rd_sr_after_an_erase :
    (nextOf (exec .rdSr (flagged true false false false))).map (fun t => t.busData) = some 0x20#32 := by decide
theorem test_rd_sr_of_pgerr_and_bsy :
    (nextOf (exec .rdSr (flagged false false true true))).map (fun t => t.busData) = some 0x05#32 := by decide
-- the example of 44_regif_actions R232, and its corner case
theorem test_rd_cr_after_reset : (nextOf (exec .rdCr State.reset)).map (fun t => t.busData) = some 0x80#32 := by decide
theorem test_rd_cr_key1_seen : (nextOf (exec .rdCr (keyed .key1Seen []))).map (fun t => t.busData) = some 0x80#32 := by decide
-- vectors K7, K3, K2 and K1
theorem test_key1_from_locked :
    (nextOf (exec .wrKeyrKey1 (keyed .locked []))).map (fun t => t.flash.key) = some .key1Seen := by decide
theorem test_key1_twice :
    (nextOf (exec .wrKeyrKey1 (keyed .key1Seen []))).map (fun t => t.flash.key) = some .lockedOut := by decide
theorem test_key2_first :
    (nextOf (exec .wrKeyrKey2 (keyed .locked []))).map (fun t => t.flash.key) = some .lockedOut := by decide
theorem test_key2_after_key1 :
    (nextOf (exec .wrKeyrKey2 (keyed .key1Seen []))).map (fun t => t.flash.key) = some .unlocked := by decide
-- vectors W1, W2, W5 and W4
theorem test_w1c_eop_keeps_wrprterr :
    (nextOf (exec .w1cSrEop (flagged true true false false))).map (fun t => srWord t.flash) = some 0x10#32 := by decide
theorem test_w1c_wrprterr_keeps_eop :
    (nextOf (exec .w1cSrWrprterr (flagged true true false false))).map (fun t => srWord t.flash) = some 0x20#32 := by decide
theorem test_w1c_both_keeps_pgerr :
    (nextOf (exec .w1cSrBoth (flagged true false true false))).map (fun t => srWord t.flash) = some 0x04#32 := by decide
theorem test_w1c_eop_leaves_bsy :
    (nextOf (exec .w1cSrEop (flagged true false false true))).map (fun t => srWord t.flash) = some 0x01#32 := by decide
-- the examples of 41_erase_page R161, 42_program_word R181 and 43_poll_classify R213, and vector E3's last `CR` value
theorem test_set_per : (nextOf (exec .setPer (s0 []))).map (fun t => crWord t.flash) = some 0x2#32 := by decide
theorem test_set_pg : (nextOf (exec .setPg (s0 []))).map (fun t => crWord t.flash) = some 0x1#32 := by decide
theorem test_clr_per : (nextOf (exec .clrPer (enabled true false 0#32))).map (fun t => crWord t.flash) = some 0#32 := by decide
theorem test_clr_per_keeps_strt :
    (nextOf (exec .clrPer (busyWith (.erase 6) []))).map (fun t => (crWord t.flash, t.flash.inflight))
      = some (0x40#32, .erase 6) := by decide
theorem test_clr_pg : (nextOf (exec .clrPg (enabled false true 0#32))).map (fun t => crWord t.flash) = some 0#32 := by decide
-- the example of 44_regif_actions R242, and vector M7
theorem test_set_strt_starts_page_6 :
    (nextOf (exec .setStrt (enabled true false 0x08003000#32))).map
      (fun t => (crWord t.flash, srWord t.flash, t.flash.inflight)) = some (0x42#32, 0x1#32, .erase 6) := by decide
theorem test_set_strt_with_per_clear :
    (nextOf (exec .setStrt (enabled false true 0x08003000#32))).map (fun t => (crWord t.flash, t.flash.inflight))
      = some (0x41#32, .none) := by decide
-- the example of 41_erase_page R162
theorem test_wr_ar : (nextOf (exec (.wrAr 0x08003000#32) (s0 []))).map (fun t => t.flash.ar) = some 0x08003000#32 := by decide
-- the example of 42_program_word R183, and 44_regif_actions R246
theorem test_wr_mem32 :
    (nextOf (exec (.wrMem32 0x08003000#32 0x12345678#32) (enabled false true 0#32))).map
      (fun t => (srWord t.flash, t.flash.inflight)) = some (0x1#32, .program 0x08003000#32 0x12345678#32) := by decide
theorem test_wr_mem32_without_pg :
    faultOf (exec (.wrMem32 0x08003000#32 0#32) (s0 [])) = some .unexpectedFlashWrite := by decide

/-! ### The sequencer (the examples of 43_poll_classify, and vectors C2, C4, C5 and C6) -/

theorem test_poll_limit_one :
    (nextOf (step (inFsm .poll opErase { busyWith (.erase 6) [] with cfg := { Config.ex with pollLimit := 1 } }))).map
      (fun t => (t.fcs.st, t.fcs.out, t.fcs.stale)) = some (15#5, .timeout, true) := by decide
theorem test_classify_wrprterr :
    (nextOf (step (inFsm .chkEop opErase (flagged false true false false)))).map (fun t => (t.fcs.st, t.fcs.out))
      = some (14#5, .eraseFailed) := by decide
theorem test_classify_pgerr_only :
    (nextOf (step (inFsm .chkEop opProgram (flagged false false true false)))).map (fun t => (t.fcs.st, t.fcs.out))
      = some (15#5, .programFailed) := by decide
theorem test_respond_with_wrp : rspWord true .eraseFailed = 0xA#32 := by decide
theorem test_respond_success_with_wrp : rspWord true .success = 0x8#32 := by decide

/-! ### The flash macro and reset (vectors M2, M3, M4, R1 and K8) -/

theorem test_macro_erases_a_page :
    (nextOf (step (stored [(0x08002FFF, 1#8), (0x08003000, 2#8), (0x080037FF, 3#8), (0x08003800, 4#8)]
      (busyWith (.erase 6) [.completion])))).map (fun t => (t.flash.mem, srWord t.flash, crWord t.flash))
      = some ([(0x08002FFF, 1#8), (0x08003800, 4#8)], 0x20#32, 0#32) := by decide
theorem test_macro_programs_little_endian :
    (nextOf (step (busyWith (.program 0x08003000#32 0x12345678#32) [.completion]))).map (fun t => t.flash.mem)
      = some [(0x08003000, 0x78#8), (0x08003001, 0x56#8), (0x08003002, 0x34#8), (0x08003003, 0x12#8)] := by decide
theorem test_macro_protects_page_0 :
    (nextOf (step (busyWith (.program 0x08000000#32 0#32) [.completion]))).map (fun t => (t.flash.mem, srWord t.flash))
      = some ([], 0x10#32) := by decide
theorem test_reset_reopens_the_lock_out :
    (nextOf (step (keyed .lockedOut [.deviceReset]))).map (fun t => (t.flash.key, t.fcs.st, t.port.rspValid))
      = some (.locked, 0#5, false) := by decide
-- 10_state R52: the first step from reset is the power-up, whatever is scheduled, and there is no second one
theorem test_power_up_from_reset :
    (nextOf (step { State.reset with moves := [.completion] })).map
      (fun t => (t.moves, t.flash.key, t.fcs.st, t.draws, t.poweredUp)) = some ([.completion], .locked, 0#5, 6, true) := by decide
theorem test_no_second_power_up :
    (nextOf (step (stored [(0x08003000, 5#8)] (s0 [])))).map (fun t => (t.flash.mem, t.flash.key, t.draws))
      = some ([(0x08003000, 5#8)], .unlocked, 0) := by decide

/-! ### The host -/

-- 20_memory R73 on vector PW1's bytes
theorem test_read_a_halfword :
    (nextOf (step (stored [(0x08003000, 0x78#8), (0x08003001, 0x56#8), (0x08003002, 0x34#8), (0x08003003, 0x12#8)]
      (s0 [.readFlash 0x08003002#32 2])))).map (fun t => t.hostData) = some 0x1234#32 := by decide
-- vector K9
theorem test_relock :
    (nextOf (step (s0 [.foreignWrite .cr 0x80#32]))).map (fun t => t.flash.key) = some .locked := by decide
-- vector K4
theorem test_wrong_second_key :
    (nextOf (step (keyed .key1Seen [.foreignWrite .keyr 0xCDEF89AA#32]))).map (fun t => t.flash.key) = some .lockedOut := by
  decide
theorem test_no_second_command :
    faultOf (step (issued 0x1#32 0#32 0#32 [.issue 0x1#32 0#32 0#32])) = some .hostProtocolViolation := by decide
-- 92_eei_decisions D40: an array write by another agent starts no program, even where R245 would admit it
theorem test_foreign_array_write_at_rest :
    faultOf (step { enabled false true 0#32 with moves := [.foreignArrayWrite 0x08003000#32 4 7#32] })
      = some .unexpectedFlashWrite := by decide
theorem test_foreign_misaligned_array_write :
    faultOf (step (s0 [.foreignArrayWrite 0x08003002#32 4 7#32])) = some .misalignedFlashWrite := by decide

/-! ### The hypotheses of the statements can be met -/

theorem exists_next_with {o : Host.Outcome State Fault Refusal} (p : State → Bool)
    (h : (nextOf o).map p = some true) : ∃ t, o = .next t ∧ p t = true := by
  cases o with
  | next t => exact ⟨t, rfl, by simpa [nextOf] using h⟩
  | fault r => cases h
  | refused r => cases h

/-- An erase of page 6 being polled, `n` polls done. -/
def polling (n : Nat) (ms : List Move) : State :=
  { inFsm .poll opErase (busyWith (.erase 6) ms) with
    fcs := { (inFsm .poll opErase (s0 ms)).fcs with n := n }
    flash := { (busyWith (.erase 6) ms).flash with
      cr := { ControlReg.clear with per := true, strt := true }, ar := 0x08003000#32 } }

/-- The start of a command from reset: locked, its frame on the port. -/
def fromReset (c a d : Word) (ms : List Move) : State :=
  { issued c a d ms with flash := { (issued c a d ms).flash with key := .locked } }

/-- The invariant says of the schedule only that it holds no foreign access. -/
theorem inv_of_moves {s : State} (ms : List Move) (h : Inv { s with moves := [] }) (ho : exclusiveOwnership ms = true) :
    Inv { s with moves := ms } := by
  obtain ⟨q, hq, h⟩ := h
  exact ⟨q, hq, { h with owners := ho }⟩

theorem issued_inv : Inv (issued 0x1#32 0x08003000#32 0#32 []) := ⟨.idle, rfl, by constructor <;> decide⟩
theorem fromReset_inv : Inv (fromReset 0x2#32 0x08003000#32 0#32 []) := ⟨.idle, rfl, by constructor <;> decide⟩
theorem polling_inv (ms : List Move) (h : exclusiveOwnership ms = true) : Inv (polling 7 ms) :=
  inv_of_moves (s := polling 7 []) ms ⟨.poll, rfl, by constructor <;> decide⟩ h

theorem test_meets_DeviceResetResetsAllButTheArray :
    (polling 7 [.deviceReset]).poweredUp = true ∧ (polling 7 [.deviceReset]).moves = .deviceReset :: [] ∧
    (polling 7 [.deviceReset]).flash.inflight = .erase 6 ∧
    Memory.wf (polling 7 [.deviceReset]).flash.mem = true ∧
    (s0 [.deviceReset]).moves = .deviceReset :: [] ∧ (s0 [.deviceReset]).flash.inflight = .none ∧
    (busyWith (.program 0x0803FFFC#32 0#32) [.deviceReset]).moves = .deviceReset :: [] ∧
    (busyWith (.program 0x0803FFFC#32 0#32) [.deviceReset]).flash.inflight = .program 0x0803FFFC#32 0#32 ∧
    Memory.wf (busyWith (.program 0x0803FFFC#32 0#32) [.deviceReset]).flash.mem = true ∧
    (∀ x ∈ [0x08003000, 0x080037FF], 0x08000000 + 6 * 2048 ≤ x ∧ x < 0x08000000 + 6 * 2048 + 2048) ∧
    (∀ x ∈ [0x08002FFF, 0x08003800], x < 0x08000000 + 6 * 2048 ∨ 0x08000000 + 6 * 2048 + 2048 ≤ x) ∧
    (∀ x ∈ [0x0803FFFC, 0x0803FFFF], (0x0803FFFC#32).toNat ≤ x ∧ x < (0x0803FFFC#32).toNat + 4) ∧
    State.reset.poweredUp = false ∧ State.reset.moves = [] ∧
    (∀ x ∈ [0x08000000, 0x0803FFFF], State.reset.cfg.flashBase.toNat ≤ x ∧
      x < State.reset.cfg.flashBase.toNat + State.reset.cfg.flashSize) := by
  simp [polling, inFsm, busyWith, s0, State.reset, Config.ex, Flash.reset, Memory.wf, Memory.wfFrom]

theorem test_meets_DecodeOfEncodeIsTheInstruction :
    Instr.wf Config.ex (.wrMem32 0x08000000#32 0xFFFFFFFF#32) = true ∧
    Instr.wf Config.ex (.wrMem32 0x0803FFFC#32 0#32) = true ∧ Instr.wf Config.ex (.erasePage 0xFFFFFFFF#32 1#32) = true := by
  decide

theorem test_meets_OnlyAnInstructionsEncodingDecodes :
    decode Config.ex (.frame ⟨0x2#32, 0xFFFFFFFF#32, 1#32⟩) = .ok (.programWord 0xFFFFFFFF#32 1#32) ∧
    decode Config.ex (.bus (.write32 0x0803FFFC#32 0#32)) = .ok (.wrMem32 0x0803FFFC#32 0#32) := ⟨rfl, rfl⟩

theorem test_meets_AssembledLinesAreLegalFrames :
    (assembleLine ['e', 'r', 'a', 's', 'e', '_', 'p', 'a', 'g', 'e', ' ', '0']).isSome = true ∧
    (assembleLine ['p', 'r', 'o', 'g', 'r', 'a', 'm', '_', 'w', 'o', 'r', 'd', ' ', '0', ',', '1']).isSome = true := by
  decide

theorem test_meets_ErasePageAcceptsAPageOfTheArray :
    ∀ a ∈ [0x08000000#32, 0x0803F800#32], a.toNat % 2048 = 0 ∧ (s0 []).cfg.flashBase.toNat ≤ a.toNat ∧
      a.toNat + 2048 ≤ (s0 []).cfg.flashBase.toNat + (s0 []).cfg.flashSize := by
  simp [s0, State.reset, Config.ex]

theorem test_meets_ProgramWordAcceptsAWordOfTheArray :
    ∀ a ∈ [0x08000000#32, 0x0803FFFC#32], a.toNat % 4 = 0 ∧ (s0 []).cfg.flashBase.toNat ≤ a.toNat ∧
      a.toNat + 4 ≤ (s0 []).cfg.flashBase.toNat + (s0 []).cfg.flashSize := by
  simp [s0, State.reset, Config.ex]

theorem test_meets_OtherAddressesEndInInvalidAddress :
    (∀ a ∈ [0x07FFF800#32, 0x08000001#32, 0x0803FC00#32, 0x08040000#32, 0xFFFFFFFF#32], ¬(a.toNat % 2048 = 0 ∧
      (s0 []).cfg.flashBase.toNat ≤ a.toNat ∧
      a.toNat + 2048 ≤ (s0 []).cfg.flashBase.toNat + (s0 []).cfg.flashSize)) ∧
    (∀ a ∈ [0x07FFFFFC#32, 0x0803FFFE#32, 0x08040000#32, 0xFFFFFFFC#32], ¬(a.toNat % 4 = 0 ∧
      (s0 []).cfg.flashBase.toNat ≤ a.toNat ∧
      a.toNat + 4 ≤ (s0 []).cfg.flashBase.toNat + (s0 []).cfg.flashSize)) := by
  simp [s0, State.reset, Config.ex]

theorem test_meets_IllegalFramesEndInInvalidCommand :
    ∀ c ∈ [0x0#32, 0x3#32, 0x4#32, 0x5#32, 0x80000001#32], sequencerIsNext (issued c 0#32 0#32 []) = true ∧
      (issued c 0#32 0#32 []).fcs.st = 0#5 ∧ (issued c 0#32 0#32 []).port.cmdPending = true ∧
      ((issued c 0#32 0#32 []).port.cmd.toNat / 4 ≠ 0 ∨
        ((issued c 0#32 0#32 []).port.cmd.toNat % 4 ≠ 1 ∧ (issued c 0#32 0#32 []).port.cmd.toNat % 4 ≠ 2)) := by
  simp [issued, s0, sequencerIsNext, State.reset, Fcs.reset]

theorem test_meets_IdleStepRunsTheDecodedCommandOrHolds :
    (sequencerIsNext (issued 0x1#32 0x08003000#32 0#32 [.sequencer]) = true ∧
      (issued 0x1#32 0x08003000#32 0#32 [.sequencer]).fcs.st = 0#5 ∧
      (issued 0x1#32 0x08003000#32 0#32 [.sequencer]).port.cmdPending = true ∧
      decodeFrame ⟨0x1#32, 0x08003000#32, 0#32⟩ = .ok (.erasePage 0x08003000#32 0#32)) ∧
    sequencerIsNext (s0 []) = true ∧ (s0 []).fcs.st = 0#5 ∧ (s0 []).port.cmdPending = false :=
  ⟨⟨rfl, rfl, rfl, rfl⟩, rfl, rfl, rfl⟩

theorem test_meets_BusStepRunsTheIssuedAction :
    (sequencerIsNext (polling 7 []) = true ∧ (polling 7 []).fcs.st = Fsm.poll.code ∧
      busAction (polling 7 []).cfg (polling 7 []).fcs .poll = some .rdSr ∧
      (nextOf (exec .rdSr (polling 7 []).taken)).isSome = true) ∧
    (busAction Config.ex (inFsm .payload opProgram (s0 [])).fcs .payload = some (.wrMem32 0x08003000#32 0x12345678#32) ∧
      faultOf (exec (.wrMem32 0x08003000#32 0x12345678#32) (inFsm .payload opProgram (s0 [])).taken)
        = some .unexpectedFlashWrite) := by decide

theorem test_meets_EachStateIssuesItsAction :
    (inFsm .setEn opErase (s0 [])).fcs.cOp = 0b01#2 ∧ (inFsm .setEn opErase (s0 [])).fcs.st = 7#5 ∧
    (inFsm .payload opProgram (s0 [])).fcs.cOp = 0b10#2 ∧ (inFsm .payload opProgram (s0 [])).fcs.st = 10#5 ∧
    (inFsm .start opProgram { s0 [] with cfg := { Config.ex with programStrt := true } }).cfg.programStrt = true ∧
    (inFsm .start opProgram { s0 [] with cfg := { Config.ex with programStrt := true } }).fcs.st = 9#5 ∧
    (inFsm .respond opErase (s0 [])).fcs.st = 16#5 := by decide

theorem test_meets_UnreachableStatesFault :
    (sequencerIsNext { s0 [] with fcs := { (s0 []).fcs with st := 17#5 } } = true ∧ 17 ≤ (17#5).toNat) ∧ 17 ≤ (31#5).toNat ∧
    ((inFsm .start opProgram (s0 [])).fcs.st = 9#5 ∧ (inFsm .start opProgram (s0 [])).fcs.cOp = 0b10#2 ∧
      (inFsm .start opProgram (s0 [])).cfg.programStrt = false) ∧
    (inFsm .payload opErase (s0 [])).fcs.st = 10#5 ∧ (inFsm .payload opErase (s0 [])).fcs.cOp = 0b01#2 := by decide

theorem test_meets_KeyWritesFollowTheTable :
    (keyed .locked []).flash.key = .locked ∧ (keyed .key1Seen []).flash.key = .key1Seen ∧
    (keyed .unlocked []).flash.key = .unlocked ∧ (keyed .lockedOut []).flash.key = .lockedOut ∧
    (keyed .lockedOut []).cfg.keyrLockoutWrite = .ignored ∧
    ({ keyed .lockedOut [] with cfg := { Config.ex with keyrLockoutWrite := .fault } } : State).cfg.keyrLockoutWrite
      = .fault := by decide

theorem test_meets_ModifiesChangeTheirFieldOrNothing :
    (enabled true false 0#32).flash.key = .unlocked ∧ (keyed .key1Seen []).flash.key ≠ .unlocked := by decide

theorem test_meets_ModifiesWriteTheTablesWord : (enabled true true 0#32).flash.key = .unlocked := by decide

theorem test_meets_SetStrtStartsAnEraseOrNothing :
    (∀ a ∈ [0x08000000#32, 0x0803FFFF#32], (enabled true false a).flash.key = .unlocked ∧
      (enabled true false a).flash.cr.per = true ∧ (enabled true false a).flash.cr.pg = false ∧
      (enabled true false a).flash.bsy = false ∧
      (enabled true false a).cfg.flashBase.toNat ≤ (enabled true false a).flash.ar.toNat ∧
      (enabled true false a).flash.ar.toNat < (enabled true false a).cfg.flashBase.toNat + (enabled true false a).cfg.flashSize) ∧
    ¬((enabled true false 0x08040000#32).flash.ar.toNat < 0x08000000 + 0x40000) ∧
    ¬(0x08000000 ≤ (enabled true false 0x07FFFFFF#32).flash.ar.toNat) ∧ (enabled true true 0#32).flash.cr.pg ≠ false ∧
    (busyWith (.erase 6) []).flash.bsy ≠ false ∧ (keyed .locked []).flash.key ≠ .unlocked := by
  simp [enabled, busyWith, keyed, s0, State.reset, Config.ex, Flash.reset]

theorem test_meets_WrArLatchesTheAddress :
    (s0 []).flash.key = .unlocked ∧ (keyed .lockedOut []).flash.key ≠ .unlocked := by decide

theorem test_meets_WrMem32StartsTheProgram :
    ∀ a ∈ [0x08000000#32, 0x0803FFFC#32], (enabled false true 0#32).flash.key = .unlocked ∧
      (enabled false true 0#32).flash.cr.pg = true ∧ (enabled false true 0#32).flash.cr.per = false ∧
      (enabled false true 0#32).flash.bsy = false ∧ a.toNat % 4 = 0 ∧
      (enabled false true 0#32).cfg.flashBase.toNat ≤ a.toNat ∧
      a.toNat + 4 ≤ (enabled false true 0#32).cfg.flashBase.toNat + (enabled false true 0#32).cfg.flashSize := by
  simp [enabled, s0, State.reset, Config.ex, Flash.reset]

theorem test_meets_WrMem32FaultsWhereNotAdmitted :
    (0x08003001#32).toNat % 4 ≠ 0 ∧ (0x08003003#32).toNat % 4 ≠ 0 ∧ (0x08003000#32).toNat % 4 = 0 ∧
    (keyed .locked []).flash.key ≠ .unlocked ∧ (s0 []).flash.cr.pg = false ∧ (enabled true true 0#32).flash.cr.per = true ∧
    (busyWith (.erase 6) []).flash.bsy = true ∧
    (∀ a ∈ [0x08040000#32, 0xFFFFFFFC#32], a.toNat % 4 = 0 ∧
      (s0 []).cfg.flashBase.toNat + (s0 []).cfg.flashSize < a.toNat + 4) ∧
    (0x07FFFFFC#32).toNat < (s0 []).cfg.flashBase.toNat := by
  simp [keyed, enabled, busyWith, s0, State.reset, Config.ex, Flash.reset, ControlReg.clear]

theorem test_meets_InstructionsLeaveTheArrayAndTheOtherSide :
    (∃ t, exec .setStrt (enabled true false 0x08003000#32) = .next t) ∧ Instr.isCommand .setStrt = false ∧
    (∃ t, exec (.erasePage 0x08003000#32 0#32) (s0 []) = .next t) ∧ Instr.isCommand (.erasePage 0x08003000#32 0#32) = true :=
  ⟨exists_next (by decide), rfl, exists_next (by decide), rfl⟩

theorem test_meets_ChkBusyRefusesABusyPeripheral :
    ∀ s ∈ [inFsm .chkBusy opErase (busyWith (.erase 8) []), inFsm .chkBusy opProgram (s0 [.sequencer])],
      sequencerIsNext s = true ∧ s.fcs.st = 1#5 ∧ (s.fcs.cOp = 0b01#2 ∨ s.fcs.cOp = 0b10#2) ∧
      (s.flash.bsy = true ∨ s.flash.bsy = false) := by decide

theorem test_meets_LockChecksBranchOnLockAndStale :
    ∀ s ∈ [inFsm .chkLock opErase (keyed .locked []), inFsm .rechkLock opProgram (keyed .lockedOut []),
        inFsm .chkLock opErase (s0 []), inFsm .rechkLock opProgram (s0 [])],
      sequencerIsNext s = true ∧ (s.fcs.cOp = 0b01#2 ∨ s.fcs.cOp = 0b10#2) ∧ (s.fcs.st = 2#5 ∨ s.fcs.st = 5#5) := by decide

theorem test_meets_HandshakeAndScrubSteps :
    ((inFsm .key1 opErase (keyed .locked [])).fcs.st = 3#5 ∧ (inFsm .key1 opErase (keyed .locked [])).flash.key = .locked) ∧
    ((inFsm .key2 opErase (keyed .key1Seen [])).fcs.st = 4#5 ∧
      (inFsm .key2 opErase (keyed .key1Seen [])).flash.key = .key1Seen) ∧
    (inFsm .scrub opProgram (flagged true true true false)).fcs.st = 6#5 ∧
    sequencerIsNext (inFsm .scrub opProgram (flagged true true true false)) = true := by decide

theorem test_meets_EnableAndLatchSteps :
    ∀ s ∈ [inFsm .setEn opErase (s0 []), inFsm .setEn opProgram (s0 []), inFsm .latchAddr opErase (s0 []),
        inFsm .latchAddr opProgram (s0 [])],
      sequencerIsNext s = true ∧ s.flash.key = .unlocked ∧ (s.fcs.st = 7#5 ∨ s.fcs.st = 8#5) := by decide

theorem test_meets_StartAndPayloadSteps :
    (∀ a ∈ [0x08000000#32, 0x0803FFFF#32],
      (inFsm .start opErase (enabled true false a)).fcs.st = 9#5 ∧
      (inFsm .start opErase (enabled true false a)).flash.cr.per = true ∧
      (inFsm .start opErase (enabled true false a)).flash.cr.pg = false ∧
      (inFsm .start opErase (enabled true false a)).flash.bsy = false ∧
      (inFsm .start opErase (enabled true false a)).cfg.flashBase.toNat ≤ a.toNat ∧
      a.toNat < (inFsm .start opErase (enabled true false a)).cfg.flashBase.toNat + 0x40000) ∧
    ((inFsm .start opProgram { enabled false true 0#32 with cfg := { Config.ex with programStrt := true } }).cfg.programStrt
        = true ∧ (enabled false true 0#32).flash.cr.per = false) ∧
    (sequencerIsNext (inFsm .payload opProgram (enabled false true 0#32)) = true ∧
      (inFsm .payload opProgram (enabled false true 0#32)).flash.key = .unlocked ∧
      (inFsm .payload opProgram (enabled false true 0#32)).fcs.st = 10#5 ∧
      (inFsm .payload opProgram (enabled false true 0#32)).flash.cr.pg = true ∧
      (inFsm .payload opProgram (enabled false true 0#32)).fcs.cAddr.toNat % 4 = 0 ∧
      0x08000000 ≤ (inFsm .payload opProgram (enabled false true 0#32)).fcs.cAddr.toNat ∧
      (inFsm .payload opProgram (enabled false true 0#32)).fcs.cAddr.toNat + 4 ≤ 0x08000000 + 0x40000) := by
  simp [inFsm, enabled, s0, State.reset, Config.ex, Flash.reset, sequencerIsNext, Fsm.code, opProgram]

theorem test_meets_PollCountsAndTimesOut :
    (sequencerIsNext (polling 7 []) = true ∧ (polling 7 []).fcs.st = 11#5 ∧ (polling 7 []).fcs.cOp = 0b01#2 ∧
      (polling 7 []).flash.bsy = true ∧ (polling 7 []).fcs.n + 1 = (polling 7 []).cfg.pollLimit) ∧
    (polling 6 []).fcs.n + 1 ≠ (polling 6 []).cfg.pollLimit ∧
    ((inFsm .poll opProgram (flagged true false false false)).fcs.st = 11#5 ∧
      (inFsm .poll opProgram (flagged true false false false)).flash.bsy = false) := by decide

theorem test_meets_ClassifierFollowsTheTable :
    ∀ s ∈ [inFsm .chkEop opErase (flagged true true false false), inFsm .chkEop opProgram (flagged false false true false),
        inFsm .chkEop opErase (flagged false true false false), inFsm .chkEop opProgram (flagged true false false false)],
      sequencerIsNext s = true ∧ s.fcs.st = 12#5 ∧ (s.fcs.cOp = 0b01#2 ∨ s.fcs.cOp = 0b10#2) := by decide

theorem test_meets_CleanupSteps :
    ∀ s ∈ [inFsm .clrEop opErase (flagged true true false false), inFsm .clrErr opProgram (flagged false true false false),
        inFsm .clrEn opErase (enabled true false 0#32), inFsm .clrEn opProgram (enabled false true 0#32)],
      sequencerIsNext s = true ∧ (s.fcs.cOp = 0b01#2 ∨ s.fcs.cOp = 0b10#2) ∧ s.flash.key = .unlocked ∧
      (s.fcs.st = 13#5 ∨ s.fcs.st = 14#5 ∨ s.fcs.st = 15#5) := by decide

theorem test_meets_RespondPostsTheOutcome :
    sequencerIsNext (inFsm .respond opErase (s0 [])) = true ∧ (inFsm .respond opErase (s0 [])).fcs.st = 16#5 := by decide

theorem test_meets_EraseCompletes :
    ∀ p ∈ [0, 127], (busyWith (.erase p) [.completion]).poweredUp = true ∧
      (busyWith (.erase p) [.completion]).moves = .completion :: [] ∧
      (busyWith (.erase p) [.completion]).flash.inflight = .erase p ∧
      (busyWith (.erase p) [.completion]).flash.owed = ⟨false, false, false⟩ ∧
      (busyWith (.erase p) [.completion]).cfg.splitCompletion = false ∧
      Memory.wf (busyWith (.erase p) [.completion]).flash.mem = true ∧ (p ∈ Config.ex.wrpPages ↔ p = 0) := by decide

/-- A state on a macro that may reject. -/
def mayReject (s : State) : State := { s with cfg := { s.cfg with macroMayReject := true } }

theorem test_meets_EraseCompletes_that_may_be_rejected :
    (mayReject (busyWith (.erase 127) [.completion])).poweredUp = true ∧
    (mayReject (busyWith (.erase 127) [.completion])).moves = .completion :: [] ∧
    (mayReject (busyWith (.erase 127) [.completion])).flash.inflight = .erase 127 ∧
    (mayReject (busyWith (.erase 127) [.completion])).flash.owed = ⟨false, false, false⟩ ∧
    (mayReject (busyWith (.erase 127) [.completion])).cfg.splitCompletion = false ∧
    (mayReject (busyWith (.erase 127) [.completion])).cfg.macroMayReject = true ∧
    Memory.wf (mayReject (busyWith (.erase 127) [.completion])).flash.mem = true := by decide

/-- A program in flight over given array contents. -/
def programming (a v : Word) (m : Memory) : State := stored m (busyWith (.program a v) [.completion])

theorem test_meets_ProgramCompletes :
    ∀ a ∈ [0x08000000#32, 0x0803FFFC#32], (programming a 0x1234#32 []).poweredUp = true ∧
      (programming a 0x1234#32 []).moves = .completion :: [] ∧
      (programming a 0x1234#32 []).flash.inflight = .program a 0x1234#32 ∧
      (programming a 0x1234#32 []).flash.owed = ⟨false, false, false⟩ ∧
      (programming a 0x1234#32 []).cfg.splitCompletion = false ∧
      Memory.wf (programming a 0x1234#32 []).flash.mem = true ∧
      ((a.toNat - 0x08000000) / 2048 ∈ Config.ex.wrpPages ↔ a = 0x08000000#32) ∧
      Memory.readWord (programming a 0x1234#32 []).flash.mem a.toNat = 0xFFFFFFFF#32 := by
  intro a ha
  fin_cases ha <;> decide

theorem test_meets_ProgramCompletes_that_may_be_rejected :
    (mayReject (programming 0x0803FFFC#32 7#32 [])).poweredUp = true ∧
    (mayReject (programming 0x0803FFFC#32 7#32 [])).moves = .completion :: [] ∧
    (mayReject (programming 0x0803FFFC#32 7#32 [])).flash.inflight = .program 0x0803FFFC#32 7#32 ∧
    (mayReject (programming 0x0803FFFC#32 7#32 [])).flash.owed = ⟨false, false, false⟩ ∧
    (mayReject (programming 0x0803FFFC#32 7#32 [])).cfg.splitCompletion = false ∧
    (mayReject (programming 0x0803FFFC#32 7#32 [])).cfg.macroMayReject = true ∧
    Memory.wf (mayReject (programming 0x0803FFFC#32 7#32 [])).flash.mem = true := by decide

theorem test_meets_ProgramOfAWordNotErasedIsADraw :
    ∀ s ∈ [programming 0x08003000#32 0#32 [(0x08003003, 0#8)], mayReject (programming 0x08003000#32 0#32 [(0x08003003, 0#8)])],
      s.poweredUp = true ∧ s.moves = .completion :: [] ∧ s.flash.inflight = .program 0x08003000#32 0#32 ∧
      s.flash.owed = ⟨false, false, false⟩ ∧ s.cfg.splitCompletion = false ∧ Memory.wf s.flash.mem = true ∧
      ((0x08003000#32).toNat - s.cfg.flashBase.toNat) / 2048 ∉ s.cfg.wrpPages ∧
      (∃ i < 4, byteAt s ((0x08003000#32).toNat + i) ≠ 0xFF#8) := by
  intro s hs
  fin_cases hs <;> decide

theorem test_meets_CompletionsMoveBitsOneWay :
    (busyWith (.erase 6) [.completion]).poweredUp = true ∧ (programming 0x08003000#32 7#32 []).poweredUp = true ∧
    (∃ t, step (busyWith (.erase 6) [.completion]) = .next t) ∧
    Memory.wf (busyWith (.erase 6) [.completion]).flash.mem = true ∧
    (busyWith (.erase 6) [.completion]).flash.inflight = .erase 6 ∧
    (∃ t, step (programming 0x08003000#32 7#32 []) = .next t) ∧
    (programming 0x08003000#32 7#32 []).flash.inflight = .program 0x08003000#32 7#32 ∧
    (∃ t, step (s0 [.completion]) = .next t) ∧ (s0 [.completion]).flash.inflight = .none :=
  ⟨rfl, rfl, exists_next (by decide), rfl, rfl, exists_next (by decide), rfl, exists_next (by decide), rfl⟩

theorem test_meets_SplitCompletionRaisesItsFlagsLater :
    (∀ op ∈ [Inflight.erase 0, .erase 127, .program 0x08000000#32 7#32, .program 0x0803FFFC#32 7#32],
      ∀ s ∈ [{ busyWith op [.completion] with cfg := { Config.ex with splitCompletion := true } }],
        s.poweredUp = true ∧ s.moves = .completion :: [] ∧ s.cfg.splitCompletion = true ∧ s.flash.owed = ⟨false, false, false⟩ ∧
        s.flash.inflight = op ∧ s.flash.inflight ≠ .none ∧ Memory.wf s.flash.mem = true) ∧
    (∀ s ∈ [{ s0 [.completion] with
        cfg := { Config.ex with splitCompletion := true }
        flash := { (s0 []).flash with owed := ⟨true, false, false⟩ } }],
      s.poweredUp = true ∧
      s.moves = .completion :: [] ∧ s.cfg.splitCompletion = true ∧ s.flash.owed ≠ ⟨false, false, false⟩) := by decide

theorem test_meets_HostIssuesAndCollectsInTurn :
    ((s0 [.issue 1#32 2#32 3#32]).poweredUp = true ∧ (s0 [.issue 1#32 2#32 3#32]).moves = .issue 1#32 2#32 3#32 :: [] ∧
      (s0 [.issue 1#32 2#32 3#32]).port.cmdPending = false ∧ (s0 [.issue 1#32 2#32 3#32]).fcs.st = 0#5) ∧
    (issued 1#32 0#32 0#32 [.issue 1#32 2#32 3#32]).port.cmdPending = true ∧ (polling 7 []).fcs.st ≠ 0#5 ∧
    ((s0 [.collect]).poweredUp = true ∧ (s0 [.collect]).moves = .collect :: [] ∧ (s0 [.collect]).port.rspValid = false) ∧
    ({ s0 [.collect] with port := { (s0 []).port with rspValid := true } } : State).port.rspValid = true := by decide

theorem test_meets_FlashReadsReturnTheBytes :
    (∀ x ∈ [(0x0803FFFF#32, 1), (0x0803FFFE#32, 2), (0x0803FFFC#32, 4), (0x08000000#32, 4)],
      (x.2 = 1 ∨ x.2 = 2 ∨ x.2 = 4) ∧ x.1.toNat % x.2 = 0 ∧
      (busyWith (.erase 6) [.readFlash x.1 x.2]).cfg.flashBase.toNat ≤ x.1.toNat ∧
      x.1.toNat + x.2 ≤
        (busyWith (.erase 6) [.readFlash x.1 x.2]).cfg.flashBase.toNat + (busyWith (.erase 6) []).cfg.flashSize ∧
      (busyWith (.erase 6) [.readFlash x.1 x.2]).poweredUp = true ∧
      (busyWith (.erase 6) [.readFlash x.1 x.2]).moves = .readFlash x.1 x.2 :: [] ∧
      covers Config.ex (s0 []).flash.inflight x.1.toNat x.2 = false) ∧
    (∀ a ∈ [0x08002FFC, 0x08003800], covers Config.ex (busyWith (.erase 6) []).flash.inflight a 4 = false) ∧
    (∀ a ∈ [0x08003000, 0x080037FC], covers Config.ex (busyWith (.erase 6) []).flash.inflight a 4 = true) ∧
    covers Config.ex (.program 0x08003000#32 7#32) 0x08003003 1 = true ∧
    covers Config.ex (.program 0x08003000#32 7#32) 0x08003004 1 = false := by
  refine ⟨?_, by decide, by decide, by decide, by decide⟩
  intro x hx
  fin_cases hx <;> decide

theorem test_meets_ForeignAccessesAreExcluded :
    (∀ m ∈ [Move.foreignRead .sr, .foreignWrite .keyr 0#32, .foreignArrayWrite 0x08003000#32 4 0#32],
      m.isForeign = true ∧ (polling 7 [m]).poweredUp = true ∧ (polling 7 [m]).moves = m :: [] ∧ (polling 7 [m]).fcs.st ≠ 0#5) ∧
    ({ busyWith (.erase 8) [.foreignRead .cr] with fcs := { (s0 []).fcs with stale := true } } : State).fcs.stale = true ∧
    (busyWith (.erase 8) [.foreignRead .cr]).flash.inflight ≠ .none ∧
    (∀ m ∈ [Move.foreignArrayWrite 0x08003000#32 4 0#32, .foreignArrayWrite 0x08003002#32 4 0#32,
        .foreignArrayWrite 0x08003001#32 2 0#32],
      m.isForeign = true ∧ (s0 [m]).poweredUp = true ∧ (s0 [m]).moves = m :: [] ∧
      ¬((s0 [m]).fcs.st ≠ 0#5 ∨ ((s0 [m]).fcs.stale = true ∧ (s0 [m]).flash.inflight ≠ .none))) := by decide

theorem test_meets_ForeignRegisterWrites :
    (s0 []).fcs.st = 0#5 ∧ (s0 []).fcs.stale = false ∧
    (keyed .locked [.foreignWrite .keyr 0xCDEF89AB#32]).flash.key = .locked ∧ 0xCDEF89AB#32 ≠ 0x45670123#32 ∧
    (keyed .key1Seen [.foreignWrite .keyr 0x45670123#32]).flash.key = .key1Seen ∧
    (keyed .key1Seen [.foreignWrite .keyr 0x45670123#32]).poweredUp = true ∧
    (keyed .key1Seen [.foreignWrite .keyr 0x45670123#32]).moves = .foreignWrite .keyr 0x45670123#32 :: [] ∧
    (s0 [.foreignWrite .cr 0x80#32]).flash.key = .unlocked ∧ (0x80#32).getLsbD 7 = true ∧ (0x7F#32).getLsbD 7 = false ∧
    (keyed .lockedOut [.foreignWrite .cr 0#32]).flash.key ≠ .unlocked ∧
    (s0 [.foreignWrite .sr 0x34#32]).poweredUp = true ∧
    (s0 [.foreignWrite .sr 0x34#32]).moves = .foreignWrite .sr 0x34#32 :: [] := by decide

theorem test_meets_OnlyDeviceResetLeavesLockedOut :
    (keyed .lockedOut [.foreignWrite .keyr 0x45670123#32]).poweredUp = true ∧
    (keyed .lockedOut [.foreignWrite .keyr 0x45670123#32]).flash.key = .lockedOut ∧
    (∃ t, step (keyed .lockedOut [.foreignWrite .keyr 0x45670123#32]) = .next t) ∧
    (∃ t, step (keyed .lockedOut [.deviceReset]) = .next t) :=
  ⟨rfl, rfl, exists_next (by decide), exists_next (by decide)⟩

theorem test_meets_OnlyCompletionAndResetChangeTheArray :
    (programming 0x0803FFFC#32 0#32 []).poweredUp = true ∧ (busyWith (.erase 6) [.completion]).poweredUp = true ∧
    (∃ t, step (programming 0x0803FFFC#32 0#32 []) = .next t ∧
      decide (byteAt t 0x0803FFFF ≠ byteAt (programming 0x0803FFFC#32 0#32 []) 0x0803FFFF) = true) ∧
    (∃ t, step (stored [(0x08003000, 2#8), (0x080037FF, 3#8)] (busyWith (.erase 6) [.completion])) = .next t ∧
      decide (byteAt t 0x080037FF ≠ 3#8) = true) :=
  ⟨rfl, rfl, exists_next_with _ (by decide), exists_next_with _ (by decide)⟩

theorem test_meets_StepsKeepTheParametersAndTheArrayForm :
    (∃ t, step (programming 0x0803FFFC#32 0#32 []) = .next t) ∧
    Memory.wf (programming 0x0803FFFC#32 0#32 []).flash.mem = true := ⟨exists_next (by decide), rfl⟩

theorem test_meets_EraseIgnoresItsDataWord :
    (polling 7 []).poweredUp = true ∧ (polling 7 []).fcs.cOp = 0b01#2 ∧ (polling 7 []).fcs.st ≠ 0#5 ∧
    (∀ rest, (polling 7 []).moves ≠ .deviceReset :: rest) ∧ (∃ t, step (polling 7 []) = .next t) :=
  ⟨rfl, rfl, by decide, by simp [polling, inFsm, busyWith, s0], exists_next (by decide)⟩

theorem test_meets_StepsKeepTheInvariant :
    (Inv (polling 7 []) ∧ ∃ t, step (polling 7 []) = .next t) ∧
    (Inv (polling 7 [.completion]) ∧ ∃ t, step (polling 7 [.completion]) = .next t) ∧
    (Inv (polling 7 [.deviceReset]) ∧ ∃ t, step (polling 7 [.deviceReset]) = .next t) ∧
    (Inv State.reset ∧ ∃ t, step State.reset = .next t) :=
  ⟨⟨polling_inv _ rfl, exists_next (by decide)⟩, ⟨polling_inv _ rfl, exists_next (by decide)⟩,
    ⟨polling_inv _ rfl, exists_next (by decide)⟩, ⟨⟨.idle, rfl, by constructor <;> decide⟩, exists_next (by decide)⟩⟩

theorem test_meets_SequencerAndMacroNeverFault :
    Inv (polling 7 [.completion, .sequencer]) ∧ (polling 7 []).cfg.keyrLockoutWrite = .ignored ∧
    onlyInner (polling 7 [.completion, .sequencer]).moves = true := ⟨polling_inv _ rfl, rfl, rfl⟩

theorem test_meets_NoEnableBitAndNoFlagAtRest :
    Inv (polling 7 [.completion]) ∧ ∃ t, steps 6 (polling 7 [.completion]) = .next t ∧
      (decide (t.fcs.st = 0#5) && !t.cfg.splitCompletion && !t.fcs.stale) = true :=
  ⟨polling_inv _ rfl, exists_next_with _ (by decide)⟩

theorem test_meets_EveryCommandEndsWithinTheBound :
    Inv (issued 0x1#32 0x08003000#32 0#32 []) ∧ (issued 0x1#32 0x08003000#32 0#32 []).port.cmdPending = true ∧
    (∀ m ∈ (issued 0x1#32 0x08003000#32 0#32 []).moves, m ≠ .deviceReset) ∧
    (∃ t, steps 23 (issued 0x1#32 0x08003000#32 0#32 []) = .next t) ∧
    15 + (issued 0x1#32 0x08003000#32 0#32 []).cfg.pollLimit
      ≤ sequencerMoves 23 (issued 0x1#32 0x08003000#32 0#32 []).moves :=
  ⟨issued_inv, rfl, by decide, exists_next (by decide), by decide⟩

/-- The schedule of a command whose operation completes before poll `k + 1`, from S0. -/
def commandRun (k : Nat) : List Move := sequencerRun (6 + k) ++ .completion :: sequencerRun 5

theorem test_meets_EraseCommandErasesItsPage :
    ∀ k ∈ [0, 7], Inv (issued 0x1#32 0x0803F800#32 9#32 (commandRun k)) ∧
      (issued 0x1#32 0x0803F800#32 9#32 (commandRun k)).cfg.splitCompletion = false ∧
      readyFor (issued 0x1#32 0x0803F800#32 9#32 (commandRun k)) 0x1#32 0x0803F800#32 9#32 ∧
      validAddr Config.ex opErase 0x0803F800#32 = true ∧
      ((0x0803F800#32).toNat - Config.ex.flashBase.toNat) / 2048 ∉ Config.ex.wrpPages ∧ k + 1 ≤ Config.ex.pollLimit ∧
      (issued 0x1#32 0x0803F800#32 9#32 (commandRun k)).moves =
        sequencerRun (1 + (eraseTrace (issued 0x1#32 0x0803F800#32 9#32 (commandRun k)) 0x0803F800#32).length + k) ++
          .completion :: sequencerRun 5 := by
  intro k hk
  refine ⟨inv_of_moves (s := issued 0x1#32 0x0803F800#32 9#32 []) _ ⟨.idle, rfl, by constructor <;> decide⟩ ?_, rfl,
    ⟨rfl, rfl, rfl, rfl, rfl, rfl, rfl, .inl rfl⟩, by decide, by decide, ?_, rfl⟩
  · revert k; decide
  · revert k; decide

theorem test_meets_EraseCommandErasesItsPage_that_may_be_rejected :
    ∀ s ∈ [mayReject (issued 0x1#32 0x0803F800#32 9#32 (commandRun 0))],
      Inv s ∧ s.cfg.splitCompletion = false ∧ s.cfg.macroMayReject = true ∧ readyFor s 0x1#32 0x0803F800#32 9#32 ∧
      validAddr s.cfg opErase 0x0803F800#32 = true ∧
      s.moves = sequencerRun (1 + (eraseTrace s 0x0803F800#32).length + 0) ++ .completion :: sequencerRun 5 := by
  intro s hs
  obtain rfl : s = _ := by simpa using hs
  exact ⟨inv_of_moves (s := mayReject (issued 0x1#32 0x0803F800#32 9#32 [])) _
    ⟨.idle, rfl, by constructor <;> decide⟩ (by decide), rfl, rfl, ⟨rfl, rfl, rfl, rfl, rfl, rfl, rfl, .inl rfl⟩, by decide, rfl⟩

theorem test_meets_CommandsOnAProtectedPageFail :
    Inv (issued 0x1#32 0x08000000#32 9#32 (commandRun 0)) ∧
    readyFor (issued 0x1#32 0x08000000#32 9#32 (commandRun 0)) 0x1#32 0x08000000#32 9#32 ∧
    validAddr Config.ex opErase 0x08000000#32 = true ∧
    ((0x08000000#32).toNat - Config.ex.flashBase.toNat) / 2048 ∈ Config.ex.wrpPages ∧
    (issued 0x1#32 0x08000000#32 9#32 (commandRun 0)).moves =
      sequencerRun (1 + (eraseTrace (issued 0x1#32 0x08000000#32 9#32 (commandRun 0)) 0x08000000#32).length + 0) ++
        .completion :: sequencerRun 5 ∧
    Inv (issued 0x2#32 0x080007FC#32 9#32 (commandRun 7)) ∧
    readyFor (issued 0x2#32 0x080007FC#32 9#32 (commandRun 7)) 0x2#32 0x080007FC#32 9#32 ∧
    validAddr Config.ex opProgram 0x080007FC#32 = true ∧
    ((0x080007FC#32).toNat - Config.ex.flashBase.toNat) / 2048 ∈ Config.ex.wrpPages ∧
    (issued 0x2#32 0x080007FC#32 9#32 (commandRun 7)).moves =
      sequencerRun (1 + (programTrace (issued 0x2#32 0x080007FC#32 9#32 (commandRun 7)) 0x080007FC#32 9#32).length + 7) ++
        .completion :: sequencerRun 5 :=
  ⟨inv_of_moves (s := issued 0x1#32 0x08000000#32 9#32 []) _ ⟨.idle, rfl, by constructor <;> decide⟩ (by decide),
    ⟨rfl, rfl, rfl, rfl, rfl, rfl, rfl, .inl rfl⟩, by decide, by decide, rfl,
    inv_of_moves (s := issued 0x2#32 0x080007FC#32 9#32 []) _ ⟨.idle, rfl, by constructor <;> decide⟩ (by decide),
    ⟨rfl, rfl, rfl, rfl, rfl, rfl, rfl, .inl rfl⟩, by decide, by decide, rfl⟩

theorem test_meets_ProgramCommandProgramsItsWord :
    ∀ m ∈ [([] : Memory), [(0x0803FFFC, 5#8)]],
      ∀ s ∈ [mayReject (stored m (issued 0x2#32 0x0803FFFC#32 9#32 (commandRun 7)))],
        Inv s ∧ s.cfg.splitCompletion = false ∧ readyFor s 0x2#32 0x0803FFFC#32 9#32 ∧
        validAddr s.cfg opProgram 0x0803FFFC#32 = true ∧
        ((0x0803FFFC#32).toNat - s.cfg.flashBase.toNat) / 2048 ∉ s.cfg.wrpPages ∧ 7 + 1 ≤ s.cfg.pollLimit ∧
        s.moves = sequencerRun (1 + (programTrace s 0x0803FFFC#32 9#32).length + 7) ++ .completion :: sequencerRun 5 := by
  intro m hm s hs
  obtain rfl : s = _ := by simpa using hs
  refine ⟨inv_of_moves (s := mayReject (stored m (issued 0x2#32 0x0803FFFC#32 9#32 []))) _ ⟨.idle, rfl, ?_⟩ ?_, rfl,
    ⟨rfl, rfl, rfl, rfl, rfl, rfl, rfl, .inl rfl⟩, ?_, ?_, ?_, rfl⟩
  · fin_cases hm <;> constructor <;> decide
  all_goals fin_cases hm <;> decide

theorem test_meets_UncompletedOperationTimesOut :
    (Inv (issued 0x1#32 0x08003000#32 0#32 []) ∧ (issued 0x1#32 0x08003000#32 0#32 []).moves = [] ∧
      readyFor (issued 0x1#32 0x08003000#32 0#32 []) 0x1#32 0x08003000#32 0#32 ∧
      validAddr Config.ex opErase 0x08003000#32 = true) ∧
    (Inv (fromReset 0x2#32 0x08003000#32 0#32 []) ∧ (fromReset 0x2#32 0x08003000#32 0#32 []).moves = [] ∧
      readyFor (fromReset 0x2#32 0x08003000#32 0#32 []) 0x2#32 0x08003000#32 0#32 ∧
      validAddr Config.ex opProgram 0x08003000#32 = true) :=
  ⟨⟨issued_inv, rfl, ⟨rfl, rfl, rfl, rfl, rfl, rfl, rfl, .inl rfl⟩, by decide⟩,
    ⟨fromReset_inv, rfl, ⟨rfl, rfl, rfl, rfl, rfl, rfl, rfl, .inr rfl⟩, by decide⟩⟩

/-- A command that meets a busy peripheral. -/
def busyEntry (c a : Word) : State :=
  { busyWith (.erase 8) [] with port := (issued c a 0#32 []).port }

theorem test_meets_BusyCommandTouchesNothing :
    ∀ x ∈ [(0x1#32, 0x0803F800#32), (0x2#32, 0x0803FFFC#32)], (busyEntry x.1 x.2).poweredUp = true ∧
      (busyEntry x.1 x.2).moves = [] ∧
      (busyEntry x.1 x.2).fcs.st = 0#5 ∧ (busyEntry x.1 x.2).port.cmdPending = true ∧ (busyEntry x.1 x.2).flash.bsy = true ∧
      (((busyEntry x.1 x.2).port.cmd = 0x1#32 ∧
          validAddr (busyEntry x.1 x.2).cfg opErase (busyEntry x.1 x.2).port.addr = true) ∨
        ((busyEntry x.1 x.2).port.cmd = 0x2#32 ∧
          validAddr (busyEntry x.1 x.2).cfg opProgram (busyEntry x.1 x.2).port.addr = true)) := by
  intro x hx
  fin_cases hx <;> decide

/-- A command on a locked-out peripheral. -/
def lockedOutEntry (c a : Word) : State := { keyed .lockedOut [] with port := (issued c a 0#32 []).port }

theorem test_meets_LockedOutCommandFailsToUnlock :
    ∀ x ∈ [(0x1#32, 0x0803F800#32), (0x2#32, 0x0803FFFC#32)], (lockedOutEntry x.1 x.2).poweredUp = true ∧
      (lockedOutEntry x.1 x.2).moves = [] ∧
      (lockedOutEntry x.1 x.2).fcs.st = 0#5 ∧ (lockedOutEntry x.1 x.2).port.cmdPending = true ∧
      (lockedOutEntry x.1 x.2).flash.bsy = false ∧ (lockedOutEntry x.1 x.2).flash.key = .lockedOut ∧
      (lockedOutEntry x.1 x.2).cfg.keyrLockoutWrite = .ignored ∧
      (((lockedOutEntry x.1 x.2).port.cmd = 0x1#32 ∧
          validAddr (lockedOutEntry x.1 x.2).cfg opErase (lockedOutEntry x.1 x.2).port.addr = true) ∨
        ((lockedOutEntry x.1 x.2).port.cmd = 0x2#32 ∧
          validAddr (lockedOutEntry x.1 x.2).cfg opProgram (lockedOutEntry x.1 x.2).port.addr = true)) := by
  intro x hx
  fin_cases hx <;> decide

theorem test_meets_KeyPortIsWrittenOnlyWhenLocked :
    Inv (fromReset 0x2#32 0x08003000#32 0#32 []) ∧
    (∃ t, steps 3 (fromReset 0x2#32 0x08003000#32 0#32 []) = .next t ∧
      decide (issuedAction t = some .wrKeyrKey1) = true) ∧
    (∃ t, steps 4 (fromReset 0x2#32 0x08003000#32 0#32 []) = .next t ∧
      decide (issuedAction t = some .wrKeyrKey2) = true) :=
  ⟨fromReset_inv, exists_next_with _ (by decide), exists_next_with _ (by decide)⟩

/-- A host program of an erase and of an illegal command, the first with a completion in its wait. -/
def twoCommands : List (Frame × List Move) :=
  [(⟨0x1#32, 0x0803F800#32, 0#32⟩, sequencerRun 12 ++ .completion :: sequencerRun 11),
   (⟨0x3#32, 0xFFFFFFFF#32, 0#32⟩, sequencerRun 23)]

theorem test_meets_HostProgramsEnd :
    Inv (s0 (programMoves twoCommands)) ∧ (s0 (programMoves twoCommands)).fcs.st = 0#5 ∧
    (s0 (programMoves twoCommands)).port.cmdPending = false ∧
    (s0 (programMoves twoCommands)).cfg.keyrLockoutWrite = .ignored ∧ twoCommands ≠ [] ∧
    (∀ x ∈ twoCommands,
      onlyInner x.2 = true ∧ 15 + (s0 (programMoves twoCommands)).cfg.pollLimit ≤ sequencerMoves x.2.length x.2) :=
  ⟨inv_of_moves (s := s0 []) _ ⟨.idle, rfl, by constructor <;> decide⟩ (by decide), rfl, rfl, rfl, by decide, by decide⟩

/-- The same program on the machine right after reset. -/
theorem test_meets_HostProgramsEnd_from_reset :
    Inv { State.reset with moves := programMoves twoCommands } ∧ State.reset.poweredUp = false ∧ State.reset.fcs.st = 0#5 ∧
    State.reset.port.cmdPending = false ∧ State.reset.cfg.keyrLockoutWrite = .ignored :=
  ⟨inv_of_moves (s := State.reset) _ ⟨.idle, rfl, by constructor <;> decide⟩ (by decide), rfl, rfl, rfl, rfl⟩

end Sys2Proof.Tests
end

section
/-! The array's canonical form is kept by every step (log entry 3). -/

namespace Sys2Proof.Machine

/-- A move keeps the canonical form: the macro's completion and a device reset rebuild the array's list by operations that
keep it, and no other move touches the list (10_state R48). -/
theorem applyMove_wf {m : Move} {s t : State} (h : applyMove m s = .next t) (hw : Memory.wf s.flash.mem = true) :
    Memory.wf t.flash.mem = true := by
  by_cases hcompletion : m = .completion
  · subst hcompletion
    cases h
    exact completionStep_wf hw
  by_cases hreset : m = .deviceReset
  · subst hreset
    cases h
    exact resetMem_wf hw
  obtain ⟨-, -, hmem, -⟩ := applyMove_frame h hcompletion hreset
  rwa [hmem]

/-- A step keeps the canonical form: the first power-up lists the bytes it draws canonically (10_state R52), and every later
step is a move. -/
theorem step_wf {s t : State} (h : step s = .next t) (hw : Memory.wf s.flash.mem = true) :
    Memory.wf t.flash.mem = true := by
  cases hp : s.poweredUp with
  | false =>
    rw [step_unpowered hp] at h
    cases h
    exact powerUpMem_wf s
  | true =>
    obtain ⟨_, -, hmove⟩ := step_inversion hp h
    exact applyMove_wf (s := s.taken) hmove hw

/-- Settles O46: the frame of a step (`step_keeps`) and the canonical form (`step_wf`), both by the power-up or the one move
that the step is. -/
theorem stepsKeepTheParametersAndTheArrayForm : Obligations.StepsKeepTheParametersAndTheArrayForm := by
  intro s t h
  obtain ⟨hcfg, hpowered⟩ := step_keeps h
  exact ⟨hcfg, hpowered, step_wf h⟩

end Sys2Proof.Machine
end

section
/-! The invariant, cut into the clauses that hold over ranges of states and those of one state. -/

namespace Sys2Proof.Machine

/-- The clauses of `InvAt` on a machine that is powered up, all but those about a single state of the sequencer. Each is
guarded by a truth value computed from the state `q`, so that a clause whose guard has one value in two states is the same
proposition in both. -/
structure SharedInv (q : Fsm) (s : State) : Prop where
  powered : s.poweredUp = true
  config : s.cfg.wf = true
  owners : exclusiveOwnership s.moves = true
  canonical : Memory.wf s.flash.mem = true
  bounded : Memory.within s.cfg s.flash.mem = true
  busy : s.flash.bsy = true ↔ s.flash.inflight ≠ .none
  target : targetOk s.cfg s.flash.inflight = true
  pair : pairReachable s.cfg q s.fcs.cOp = true
  address : q.inCommand = true → validAddr s.cfg s.fcs.cOp s.fcs.cAddr = true
  perBit : s.flash.cr.per = (q.enabled && s.fcs.cOp == opErase)
  pgBit : s.flash.cr.pg = (q.enabled && s.fcs.cOp == opProgram)
  opened : q.opened = true → s.flash.key = .unlocked
  settled : q.macroIdle s.fcs.cOp = true → s.flash.bsy = false
  polls : s.fcs.n ≤ s.cfg.pollLimit
  latched : q.latched = true → s.flash.ar = s.fcs.cAddr
  abandoned : s.flash.bsy = true → s.fcs.stale = true ∨ (q == .poll || q == .start) = true
  current : q.current = true → s.fcs.stale = false
  nothingOwed : s.cfg.splitCompletion = false → s.flash.owed = StatusFlags.clear
  oneFlag : s.cfg.splitCompletion = false → s.fcs.stale = false → ¬(s.flash.eop = true ∧ s.flash.wrprterr = true)
  quiet : s.cfg.splitCompletion = false → s.fcs.stale = false →
    (s.flash.bsy = true ∨ q.flagsMayStand s.fcs.cOp = false) → s.flash.eop = false ∧ s.flash.wrprterr = false
  portFree : (q != .idle) = true → s.port.rspValid = false ∧ s.port.cmdPending = false

/-- The clauses of `InvAt` about the state `q` alone. -/
def OwnInv (q : Fsm) (s : State) : Prop :=
  match q with
  | .key1 => s.flash.key ≠ .unlocked
  | .key2 => s.flash.key = .key1Seen ∨ s.flash.key = .lockedOut
  | .rechkLock => s.flash.key = .unlocked ∨ s.flash.key = .lockedOut
  | .poll => s.fcs.n < s.cfg.pollLimit
  | .clrEop => (s.cfg.splitCompletion = false → s.flash.wrprterr = true → s.fcs.capWrp = true) ∧ s.fcs.out = .success
  | .clrErr => (s.cfg.splitCompletion = false → s.flash.eop = false) ∧ s.fcs.out = failedOutcome s.fcs.cOp
  | .clrEn => s.fcs.out = .success ∨ s.fcs.out = failedOutcome s.fcs.cOp ∨ (s.fcs.out = .timeout ∧ s.fcs.stale = true)
  | .respond => s.fcs.out = .unlockFailed → s.flash.key = .lockedOut
  | _ => True

/-- On a machine that is powered up the invariant gives its shared clauses. -/
theorem InvAt.shared {q : Fsm} {s : State} (hp : s.poweredUp = true) (h : InvAt q s) : SharedInv q s where
  powered := hp
  config := h.config
  owners := h.owners
  canonical := h.canonical
  bounded := h.bounded
  busy := h.busy
  target := h.target
  pair := h.pair
  address := h.address
  perBit := h.perBit
  pgBit := h.pgBit
  opened := h.opened
  settled := h.settled
  polls := h.polls
  latched := h.latched
  abandoned := fun hb => by simpa using h.abandoned hb
  current := h.current
  nothingOwed := h.nothingOwed
  oneFlag := h.oneFlag
  quiet := h.quiet
  portFree := fun hq => by
    have hq : q ≠ .idle := by simpa using hq
    exact ⟨by simpa using mt h.posted hq, by simpa using mt h.pending hq⟩

/-- The invariant gives the clauses about the state it is in. -/
theorem InvAt.own {q : Fsm} {s : State} (h : InvAt q s) : OwnInv q s := by
  cases q with
  | key1 => exact h.lockedAtKey1 rfl
  | key2 => exact h.afterKey1 rfl
  | rechkLock => exact h.afterKey2 rfl
  | poll => exact h.pollsLeft rfl
  | clrEop => exact ⟨fun hc => h.eopCaptured hc rfl, h.eopOutcome rfl⟩
  | clrErr => exact ⟨fun hc => h.errCaptured hc rfl, h.errOutcome rfl⟩
  | clrEn => exact h.enOutcome rfl
  | respond => exact h.unlockFailed rfl
  | _ => trivial

/-- The shared clauses and those of the state make up the invariant. -/
theorem SharedInv.invAt {q : Fsm} {s : State} (h : SharedInv q s) (ho : OwnInv q s) : InvAt q s where
  config := h.config
  owners := h.owners
  canonical := h.canonical
  bounded := h.bounded
  busy := h.busy
  target := h.target
  pair := h.pair
  address := h.address
  perBit := h.perBit
  pgBit := h.pgBit
  opened := h.opened
  lockedAtKey1 := by rintro rfl; exact ho
  afterKey1 := by rintro rfl; exact ho
  afterKey2 := by rintro rfl; exact ho
  settled := h.settled
  polls := h.polls
  pollsLeft := by rintro rfl; exact ho
  latched := h.latched
  abandoned := fun hb => by simpa using h.abandoned hb
  current := h.current
  nothingOwed := h.nothingOwed
  oneFlag := h.oneFlag
  quiet := h.quiet
  eopCaptured := by rintro hc rfl; exact ho.1 hc
  errCaptured := by rintro hc rfl; exact ho.1 hc
  eopOutcome := by rintro rfl; exact ho.2
  errOutcome := by rintro rfl; exact ho.2
  enOutcome := by rintro rfl; exact ho
  posted := fun hv => by
    by_contra hq
    simpa [hv] using h.portFree (by simpa using hq)
  pending := fun hv => by
    by_contra hq
    simpa [hv] using h.portFree (by simpa using hq)
  unlockFailed := by rintro rfl; exact ho
  unpowered := fun hp => by simp [h.powered] at hp

/-- A state that `st` names and that meets both kinds of clauses meets the invariant. -/
theorem SharedInv.inv {q : Fsm} {s : State} (h : SharedInv q s) (hq : s.fcs.st = q.code) (ho : OwnInv q s) : Inv s :=
  ⟨q, hq, h.invAt ho⟩

end Sys2Proof.Machine
end

section
/-! The transitions of the sequencer keep the invariant: one lemma for each state that issues a bus action
(43_poll_classify R201). -/

namespace Sys2Proof.Machine

/-! ### What a valid address and a start trigger give -/

/-- Outside `IDLE` and `RESPOND` the opcode of a reachable pair names an operation (43_poll_classify R201). -/
theorem cOp_of_pairReachable {c : Config} {q : Fsm} {op : BitVec 2} (hq : q.inCommand = true)
    (h : pairReachable c q op = true) : op = opErase ∨ op = opProgram := by
  cases q with
  | idle => cases hq
  | respond => cases hq
  | start =>
    have h : op = opErase ∨ op = opProgram ∧ c.programStrt = true := by simpa [pairReachable] using h
    exact h.imp_right And.left
  | payload => exact .inr (by simpa [pairReachable] using h)
  | _ => simpa [pairReachable] using h

/-- A valid address of an erase lies on a page of the array (40_entry_unlock R133). -/
theorem validAddr_erase {c : Config} {a : Word} (h : validAddr c opErase a = true) :
    pageOf c a.toNat < c.numPages ∧ inArray c a.toNat = true := by
  simp only [validAddr, if_true, inArray, Bool.and_eq_true, decide_eq_true_eq] at h ⊢
  simp only [pageOf, Config.numPages, Config.flashEnd, Config.pageSize] at h ⊢
  omega

/-- The start trigger of an erase starts it on the page that holds `AR` (44_regif_actions R242). -/
theorem setStrtFlash_starts {c : Config} {f : Flash} (hkey : f.key = .unlocked) (hper : f.cr.per = true)
    (hpg : f.cr.pg = false) (hbsy : f.bsy = false) (har : inArray c f.ar.toNat = true) :
    setStrtFlash c f =
      { f with cr := { f.cr with strt := true }, inflight := .erase (pageOf c f.ar.toNat), bsy := true } := by
  simp [setStrtFlash, startErase, eraseStarts, hkey, lockOf, hper, hpg, hbsy, har]

/-- Without `PER` a start trigger sets `STRT` and starts nothing (44_regif_actions R242). -/
theorem setStrtFlash_without_per {c : Config} {f : Flash} (hkey : f.key = .unlocked) (hper : f.cr.per = false) :
    setStrtFlash c f = { f with cr := { f.cr with strt := true } } := by
  simp [setStrtFlash, startErase, eraseStarts, hkey, lockOf, hper]

/-- A command polls at least once (00_scope R8). -/
theorem pollLimit_pos {c : Config} (h : c.wf = true) : 0 < c.pollLimit := by
  simp only [Config.wf, Bool.and_eq_true, decide_eq_true_eq] at h
  omega

/-! ### A bus state's step -/

/-- If a bus state's step answers a next state, it is what its action answers, after the transition. -/
theorem exec_of_busStep {q : Fsm} {i : Instr} {s t : State} (h : busStep q s = .next t)
    (hi : busAction s.cfg s.fcs q = some i) : ∃ u, exec i s = .next u ∧ t = advance q u := by
  obtain ⟨j, u, hj, hu, rfl⟩ := busStep_next h
  obtain rfl : i = j := by simpa [hi] using hj
  exact ⟨u, hu, rfl⟩

/-- A bus state's step, where its action and what that answers are known. -/
theorem eq_advance_of_busStep {q : Fsm} {i : Instr} {s u t : State} (h : busStep q s = .next t)
    (hi : busAction s.cfg s.fcs q = some i) (hu : exec i s = .next u) : t = advance q u := by
  rw [busStep_of_exec hi hu] at h
  cases h
  rfl

/-! ### The lock checks and the handshake -/

/-- `CHK_BUSY` (40_entry_unlock R135): the lock check relies on `BSY = 0`. -/
theorem chkBusy_keeps_inv {s t : State} (h : SharedInv .chkBusy s) (hstep : busStep .chkBusy s = .next t) : Inv t := by
  obtain rfl := eq_advance_of_busStep hstep (if_pos h.pair) rfl
  simp only [advance, State.setBusData_busData, srBsy_srWord]
  cases hbsy : s.flash.bsy with
  | true => exact SharedInv.inv (q := .respond) { h with pair := rfl, address := nofun } rfl nofun
  | false => exact SharedInv.inv (q := .chkLock) { h with settled := fun _ => hbsy } rfl trivial

/-- Both lock checks, when the control register is open (40_entry_unlock R137, R141): without an abandoned operation the
command goes on to set its enable bit, and with one to the scrub. -/
theorem afterUnlocked_keeps_inv {s : State} (h : SharedInv .chkLock s) (hkey : s.flash.key = .unlocked) :
    Inv (afterUnlocked s) := by
  simp only [afterUnlocked]
  cases hstale : s.fcs.stale with
  | true => exact SharedInv.inv (q := .scrub) { h with opened := fun _ => hkey } rfl trivial
  | false =>
    exact SharedInv.inv (q := .setEn) { h with opened := fun _ => hkey, current := fun _ => hstale } rfl trivial

/-- `CHK_LOCK` (40_entry_unlock R137). -/
theorem chkLock_keeps_inv {s t : State} (h : SharedInv .chkLock s) (hstep : busStep .chkLock s = .next t) : Inv t := by
  obtain rfl := eq_advance_of_busStep hstep (if_pos h.pair) rfl
  simp only [advance, State.setBusData_busData, crLock_crWord]
  cases hlock : lockOf s.flash.key with
  | true =>
    have hkey : s.flash.key ≠ .unlocked := fun hk => by simp [hk, lockOf] at hlock
    exact SharedInv.inv (q := .key1) { h with } rfl hkey
  | false =>
    exact afterUnlocked_keeps_inv (s := s.setBusData (crWord s.flash)) { h with } (lockOf_eq_false.mp hlock)

/-- A write of the key port before the register is open keeps the shared clauses. -/
theorem SharedInv.keyWrite {q : Fsm} {k : Word} {s t : State} (h : SharedInv q s) (hq : q.opened = false)
    (hwrite : Machine.keyWrite k s = .next t) : SharedInv q t := by
  rw [keyWrite_next hwrite]
  exact { h with opened := fun ho => by simp [hq] at ho }

/-- `KEY1` (40_entry_unlock R139, 44_regif_actions R236): a second `KEY1` locks out. -/
theorem key1_keeps_inv {s t : State} (h : SharedInv .key1 s) (ho : OwnInv .key1 s)
    (hstep : busStep .key1 s = .next t) : Inv t := by
  obtain ⟨u, hu, rfl⟩ := exec_of_busStep hstep (if_pos h.pair)
  have hkey : u.flash.key = .key1Seen ∨ u.flash.key = .lockedOut := by
    obtain ⟨hopen, -⟩ | ⟨-, hnext⟩ := keyWrite_key hu
    · exact absurd hopen ho
    · rw [hnext]
      cases hk : s.flash.key with
      | unlocked => exact absurd hk ho
      | _ => decide
  exact SharedInv.inv (q := .key2) { h.keyWrite rfl hu with } rfl hkey

/-- `KEY2` (40_entry_unlock R140, 44_regif_actions R236). -/
theorem key2_keeps_inv {s t : State} (h : SharedInv .key2 s) (ho : OwnInv .key2 s)
    (hstep : busStep .key2 s = .next t) : Inv t := by
  obtain ⟨u, hu, rfl⟩ := exec_of_busStep hstep (if_pos h.pair)
  have hkey : u.flash.key = .unlocked ∨ u.flash.key = .lockedOut := by
    obtain ⟨-, hnext⟩ | ⟨-, hnext⟩ := keyWrite_key hu
    · exact hnext
    · rw [hnext]
      obtain hk | hk := ho <;> rw [hk] <;> decide
  exact SharedInv.inv (q := .rechkLock) { h.keyWrite rfl hu with } rfl hkey

/-- `RECHK_LOCK` (40_entry_unlock R141, R142): a register that is still locked is locked out. -/
theorem rechkLock_keeps_inv {s t : State} (h : SharedInv .rechkLock s) (ho : OwnInv .rechkLock s)
    (hstep : busStep .rechkLock s = .next t) : Inv t := by
  obtain rfl := eq_advance_of_busStep hstep (if_pos h.pair) rfl
  simp only [advance, State.setBusData_busData, crLock_crWord]
  cases hlock : lockOf s.flash.key with
  | true =>
    have hkey : s.flash.key = .lockedOut := ho.resolve_left fun hk => by simp [hk, lockOf] at hlock
    exact SharedInv.inv (q := .respond) { h with pair := rfl, address := nofun, settled := nofun } rfl fun _ => hkey
  | false =>
    exact afterUnlocked_keeps_inv (s := s.setBusData (crWord s.flash)) { h with } (lockOf_eq_false.mp hlock)

/-! ### From the scrub to the start of the operation -/

/-- `SCRUB` (40_entry_unlock R144): it clears what an abandoned operation left, of which none is in flight any more. -/
theorem scrub_keeps_inv {s t : State} (h : SharedInv .scrub s) (hstep : busStep .scrub s = .next t) : Inv t := by
  obtain rfl := eq_advance_of_busStep hstep (if_pos h.pair) rfl
  have hbsy : s.flash.bsy = false := h.settled rfl
  have hclear : (w1cSr 0x30#32 s.flash).eop = false ∧ (w1cSr 0x30#32 s.flash).wrprterr = false := by simp
  exact SharedInv.inv (q := .setEn)
    { h with
      abandoned := fun hb => absurd (hbsy.symm.trans hb) nofun
      current := fun _ => rfl
      oneFlag := fun _ _ hflags => absurd (hclear.1.symm.trans hflags.1) nofun
      quiet := fun _ _ _ => hclear } rfl trivial

/-- `SET_EN` (41_erase_page R161, 42_program_word R181). -/
theorem setEn_keeps_inv {s t : State} (h : SharedInv .setEn s) (hstep : busStep .setEn s = .next t) : Inv t := by
  have hkey : s.flash.key = .unlocked := h.opened rfl
  have hper : s.flash.cr.per = false := h.perBit
  have hpg : s.flash.cr.pg = false := h.pgBit
  have haction : busAction s.cfg s.fcs .setEn = if s.fcs.cOp = opErase then some .setPer else some .setPg := if_pos h.pair
  obtain hop | hop := cOp_of_pairReachable rfl h.pair
  · rw [if_pos hop] at haction
    obtain rfl := eq_advance_of_busStep hstep haction rfl
    rw [modifyCr_unlocked _ hkey]
    exact SharedInv.inv (q := .latchAddr)
      { h with
        perBit := by simp [hop, Fsm.enabled, advance]
        pgBit := by simp [hop, hpg, opErase, opProgram, advance] } rfl trivial
  · rw [if_neg (by simp [hop, opErase, opProgram])] at haction
    obtain rfl := eq_advance_of_busStep hstep haction rfl
    rw [modifyCr_unlocked _ hkey]
    exact SharedInv.inv (q := .latchAddr)
      { h with
        perBit := by simp [hop, hper, opErase, opProgram, advance]
        pgBit := by simp [hop, Fsm.enabled, advance] } rfl trivial

/-- `LATCH_ADDR` (41_erase_page R162, 42_program_word R182). -/
theorem latchAddr_keeps_inv {s t : State} (h : SharedInv .latchAddr s) (hstep : busStep .latchAddr s = .next t) :
    Inv t := by
  obtain rfl := eq_advance_of_busStep hstep (if_pos h.pair) rfl
  have hkey : s.flash.key = .unlocked := h.opened rfl
  have hlatch : latchAr s.fcs.cAddr s.flash = { s.flash with ar := s.fcs.cAddr } := by simp [latchAr, hkey, lockOf]
  simp only [advance, State.setFlash_fcs, hlatch]
  obtain hop | hop := cOp_of_pairReachable rfl h.pair
  · rw [if_pos hop]
    exact SharedInv.inv (q := .start)
      { h with
        pair := by simp [hop, pairReachable]
        settled := fun _ => h.settled rfl
        latched := fun _ => rfl
        abandoned := fun hb => (h.abandoned hb).imp_right nofun
        quiet := fun hc hs hq => h.quiet hc hs (.inr rfl) } rfl trivial
  · rw [if_neg (by simp [hop, opErase, opProgram])]
    exact SharedInv.inv (q := .payload)
      { h with
        pair := by simp [hop, pairReachable]
        latched := fun _ => rfl } rfl trivial

/-- `START` (41_erase_page R163, 42_program_word R184): an erase starts here, a program has started before. -/
theorem start_keeps_inv {s t : State} (h : SharedInv .start s) (hstep : busStep .start s = .next t) : Inv t := by
  obtain rfl := eq_advance_of_busStep hstep (if_pos h.pair) rfl
  have hkey : s.flash.key = .unlocked := h.opened rfl
  have haddr := h.address rfl
  have hper : s.flash.cr.per = (s.fcs.cOp == opErase) := h.perBit
  have hpg : s.flash.cr.pg = (s.fcs.cOp == opProgram) := h.pgBit
  obtain hop | hop := cOp_of_pairReachable rfl h.pair
  · rw [hop] at haddr hper hpg
    obtain ⟨hpage, hin⟩ := validAddr_erase haddr
    rw [← h.latched rfl] at hpage hin
    have hbsy : s.flash.bsy = false := h.settled (by simp [Fsm.macroIdle, hop])
    rw [setStrtFlash_starts hkey hper hpg hbsy hin]
    exact SharedInv.inv (q := .poll)
      { h with
        busy := by simp [advance, enterPoll]
        target := decide_eq_true hpage
        pair := by simp [hop, pairReachable, advance, enterPoll]
        settled := nofun
        polls := Nat.zero_le _
        abandoned := fun _ => .inr rfl
        quiet := fun hc hs _ => h.quiet hc hs (.inr (by simp [Fsm.flagsMayStand, hop, opErase, opProgram])) }
      rfl (pollLimit_pos h.config)
  · rw [hop] at hper
    rw [setStrtFlash_without_per hkey hper]
    exact SharedInv.inv (q := .poll)
      { h with
        pair := by simp [hop, pairReachable, advance, enterPoll]
        settled := nofun
        polls := Nat.zero_le _
        abandoned := fun _ => .inr rfl
        quiet := fun hc hs hq => h.quiet hc hs (.inl (hq.resolve_right nofun)) }
      rfl (pollLimit_pos h.config)

/-- `PAYLOAD` (42_program_word R183): the program starts. -/
theorem payload_keeps_inv {s t : State} (h : SharedInv .payload s) (hstep : busStep .payload s = .next t) : Inv t := by
  obtain ⟨u, hu, rfl⟩ := exec_of_busStep hstep (if_pos h.pair)
  obtain ⟨halign, hinside, -, rfl⟩ := arrayWrite_next hu
  have hop : s.fcs.cOp = opProgram := by simpa [pairReachable] using h.pair
  have htarget : targetOk s.cfg (.program s.fcs.cAddr s.fcs.cData) = true := by
    simp [targetOk, Config.wordBytes, halign, hinside]
  have hbusy : true = true ↔ Inflight.program s.fcs.cAddr s.fcs.cData ≠ .none := by simp
  simp only [advance]
  cases hstrt : s.cfg.programStrt with
  | true =>
    exact SharedInv.inv (q := .start)
      { h with
        busy := hbusy
        target := htarget
        pair := by simp [hop, hstrt, pairReachable]
        settled := fun hm => by simp [Fsm.macroIdle, hop, opErase, opProgram] at hm
        abandoned := fun _ => .inr rfl
        quiet := fun hc hs _ => h.quiet hc hs (.inr rfl) } rfl trivial
  | false =>
    exact SharedInv.inv (q := .poll)
      { h with
        busy := hbusy
        target := htarget
        pair := by simp [hop, pairReachable, enterPoll]
        settled := nofun
        polls := Nat.zero_le _
        abandoned := fun _ => .inr rfl
        quiet := fun hc hs _ => h.quiet hc hs (.inr rfl) } rfl (pollLimit_pos h.config)

/-! ### Polling, classification and clean-up -/

/-- `POLL` (43_poll_classify R202, R203): the last poll allowed abandons the operation. -/
theorem poll_keeps_inv {s t : State} (h : SharedInv .poll s) (ho : OwnInv .poll s)
    (hstep : busStep .poll s = .next t) : Inv t := by
  obtain rfl := eq_advance_of_busStep hstep (if_pos h.pair) rfl
  have hleft : s.fcs.n < s.cfg.pollLimit := ho
  simp only [advance, pollNext, State.setBusData_busData, srBsy_srWord]
  cases hbsy : s.flash.bsy with
  | false =>
    exact SharedInv.inv (q := .chkEop)
      { h with
        settled := fun _ => hbsy
        polls := hleft
        abandoned := fun hb => absurd (hbsy.symm.trans hb) nofun } rfl trivial
  | true =>
    rw [if_neg nofun]
    split
    · exact SharedInv.inv (q := .clrEn)
        { h with
          polls := hleft
          abandoned := fun _ => .inl rfl
          current := nofun
          oneFlag := fun _ hs => absurd hs nofun
          quiet := fun _ hs => absurd hs nofun } rfl (.inr (.inr ⟨rfl, rfl⟩))
    · rename_i hn
      exact SharedInv.inv (q := .poll) { h with polls := hleft } rfl (Nat.lt_of_le_of_ne hleft hn)

/-- `CHK_EOP` (43_poll_classify R207, R208): the flags captured are those that stand. -/
theorem chkEop_keeps_inv {s t : State} (h : SharedInv .chkEop s) (hstep : busStep .chkEop s = .next t) : Inv t := by
  obtain rfl := eq_advance_of_busStep hstep (if_pos h.pair) rfl
  have hbsy : s.flash.bsy = false := h.settled rfl
  simp only [advance, classify, State.setBusData_busData, srEop_srWord, srWrprterr_srWord]
  cases heop : s.flash.eop with
  | true => exact SharedInv.inv (q := .clrEop) { h with } rfl ⟨fun _ hw => hw, rfl⟩
  | false =>
    cases hwrp : s.flash.wrprterr with
    | true => exact SharedInv.inv (q := .clrErr) { h with } rfl ⟨fun _ => heop, rfl⟩
    | false =>
      exact SharedInv.inv (q := .clrEn)
        { h with
          settled := nofun
          abandoned := fun hb => absurd (hbsy.symm.trans hb) nofun
          current := nofun
          quiet := fun _ _ _ => ⟨heop, hwrp⟩ } rfl (.inr (.inl rfl))

/-- A clear of the flags that stand, before the enable bit is cleared (43_poll_classify R209, R211). -/
theorem clearFlags_keeps_inv {m : Word} {s : State} (h : SharedInv .clrEop s)
    (hout : s.fcs.out = .success ∨ s.fcs.out = failedOutcome s.fcs.cOp)
    (hclear : s.cfg.splitCompletion = false → (w1cSr m s.flash).eop = false ∧ (w1cSr m s.flash).wrprterr = false) :
    Inv ((s.setFlash (w1cSr m s.flash)).goto .clrEn) := by
  have hown : OwnInv .clrEn ((s.setFlash (w1cSr m s.flash)).goto .clrEn) := hout.imp_right .inl
  have hbsy : s.flash.bsy = false := h.settled rfl
  exact SharedInv.inv (q := .clrEn)
    { h with
      settled := nofun
      abandoned := fun hb => absurd (hbsy.symm.trans hb) nofun
      current := nofun
      oneFlag := fun hc _ hflags => absurd ((hclear hc).1.symm.trans hflags.1) nofun
      quiet := fun hc _ _ => hclear hc } rfl hown

/-- `CLR_EOP` (43_poll_classify R209). -/
theorem clrEop_keeps_inv {s t : State} (h : SharedInv .clrEop s) (ho : OwnInv .clrEop s)
    (hstep : busStep .clrEop s = .next t) : Inv t := by
  obtain ⟨hcaptured, hout⟩ := ho
  have haction : busAction s.cfg s.fcs .clrEop = if s.fcs.capWrp = true then some .w1cSrBoth else some .w1cSrEop :=
    if_pos h.pair
  cases hcap : s.fcs.capWrp with
  | true =>
    obtain rfl := eq_advance_of_busStep hstep (haction.trans (if_pos hcap)) rfl
    exact clearFlags_keeps_inv h (.inl hout) fun _ => by simp
  | false =>
    obtain rfl := eq_advance_of_busStep hstep (haction.trans (if_neg (by simp [hcap]))) rfl
    refine clearFlags_keeps_inv h (.inl hout) fun hc => ?_
    have hwrp : s.flash.wrprterr = false := by simpa [hcap] using hcaptured hc
    simp [hwrp]

/-- `CLR_ERR` (43_poll_classify R211). -/
theorem clrErr_keeps_inv {s t : State} (h : SharedInv .clrErr s) (ho : OwnInv .clrErr s)
    (hstep : busStep .clrErr s = .next t) : Inv t := by
  obtain ⟨heop, hout⟩ := ho
  obtain rfl := eq_advance_of_busStep hstep (if_pos h.pair) rfl
  exact clearFlags_keeps_inv { h with } (.inr hout) fun hc => by simp [heop hc]

/-- `CLR_EN` (43_poll_classify R213). -/
theorem clrEn_keeps_inv {s t : State} (h : SharedInv .clrEn s) (ho : OwnInv .clrEn s)
    (hstep : busStep .clrEn s = .next t) : Inv t := by
  have hkey : s.flash.key = .unlocked := h.opened rfl
  have hper : s.flash.cr.per = (s.fcs.cOp == opErase) := h.perBit
  have hpg : s.flash.cr.pg = (s.fcs.cOp == opProgram) := h.pgBit
  have hout : s.fcs.out ≠ .unlockFailed := by
    obtain hout | hout | ⟨hout, -⟩ := ho <;> rw [hout]
    · decide
    · simp only [failedOutcome]; split <;> decide
    · decide
  have haction : busAction s.cfg s.fcs .clrEn = if s.fcs.cOp = opErase then some .clrPer else some .clrPg := if_pos h.pair
  obtain hop | hop := cOp_of_pairReachable rfl h.pair
  · obtain rfl := eq_advance_of_busStep hstep (haction.trans (if_pos hop)) rfl
    rw [modifyCr_unlocked _ hkey]
    exact SharedInv.inv (q := .respond)
      { h with
        pair := rfl
        address := nofun
        perBit := rfl
        pgBit := by rw [hop] at hpg; exact hpg
        opened := nofun
        latched := nofun }
      rfl fun ho => absurd ho hout
  · obtain rfl := eq_advance_of_busStep hstep (haction.trans (if_neg (by simp [hop, opErase, opProgram]))) rfl
    rw [modifyCr_unlocked _ hkey]
    exact SharedInv.inv (q := .respond)
      { h with
        pair := rfl
        address := nofun
        perBit := by rw [hop] at hper; exact hper
        pgBit := rfl
        opened := nofun
        latched := nofun }
      rfl fun ho => absurd ho hout

end Sys2Proof.Machine
end

section
/-! Acceptance, the response and every move of the other agents keep the invariant. -/

namespace Sys2Proof.Machine

/-! ### `IDLE`, `RESPOND` and the whole sequencer -/

/-- An acceptance that ends at once (40_entry_unlock R131). -/
theorem accept_finish_keeps_inv {op : BitVec 2} {addr data : Word} {o : CmdOutcome} {s : State} (h : SharedInv .idle s)
    (ho : o ≠ .unlockFailed) : Inv ((accept op addr data s).finish o) :=
  SharedInv.inv (q := .respond)
    { h with
      pair := rfl
      address := nofun
      polls := Nat.zero_le _
      latched := nofun
      portFree := fun _ => ⟨rfl, rfl⟩ } rfl fun he => absurd he ho

/-- The acceptance of a legal frame: only a valid address leads on (40_entry_unlock R133). -/
theorem validateAddr_accept_keeps_inv {op : BitVec 2} {addr data : Word} {s : State} (h : SharedInv .idle s)
    (hop : op = opErase ∨ op = opProgram) : Inv (validateAddr (accept op addr data s)) := by
  simp only [validateAddr]
  split
  · rename_i hvalid
    exact SharedInv.inv (q := .chkBusy)
      { h with
        pair := by obtain rfl | rfl := hop <;> rfl
        address := fun _ => hvalid
        polls := Nat.zero_le _
        latched := nofun
        portFree := fun _ => ⟨rfl, rfl⟩ } rfl trivial
  · exact accept_finish_keeps_inv h nofun

/-- `IDLE` (40_entry_unlock R130, R131). -/
theorem idle_keeps_inv {s t : State} (h : SharedInv .idle s) (hst : s.fcs.st = Fsm.idle.code)
    (hstep : idleStep s = .next t) : Inv t := by
  simp only [idleStep] at hstep
  split at hstep
  · simp only [acceptFrame] at hstep
    split at hstep
    · rename_i i hdecode
      have hcommand : i.isCommand = true := decodeFrame_isCommand hdecode
      cases i with
      | erasePage => cases hstep; exact validateAddr_accept_keeps_inv h (.inl rfl)
      | programWord => cases hstep; exact validateAddr_accept_keeps_inv h (.inr rfl)
      | _ => cases hcommand
    · cases hstep
      exact accept_finish_keeps_inv h nofun
  · cases hstep
    exact h.inv hst trivial

/-- `RESPOND` (43_poll_classify R216). -/
theorem respond_keeps_inv {s : State} (h : SharedInv .respond s) : Inv (respond s) :=
  SharedInv.inv (q := .idle) { h with portFree := nofun } rfl trivial

/-- Every step of the sequencer keeps the invariant (43_poll_classify R201). -/
theorem sequencerStep_keeps_inv {q : Fsm} {s t : State} (h : SharedInv q s) (ho : OwnInv q s)
    (hst : s.fcs.st = q.code) (hstep : sequencerStep s = .next t) : Inv t := by
  rw [sequencerStep_at hst] at hstep
  cases q with
  | idle => exact idle_keeps_inv h hst hstep
  | chkBusy => exact chkBusy_keeps_inv h hstep
  | chkLock => exact chkLock_keeps_inv h hstep
  | key1 => exact key1_keeps_inv h ho hstep
  | key2 => exact key2_keeps_inv h ho hstep
  | rechkLock => exact rechkLock_keeps_inv h ho hstep
  | scrub => exact scrub_keeps_inv h hstep
  | setEn => exact setEn_keeps_inv h hstep
  | latchAddr => exact latchAddr_keeps_inv h hstep
  | start => exact start_keeps_inv h hstep
  | payload => exact payload_keeps_inv h hstep
  | poll => exact poll_keeps_inv h ho hstep
  | chkEop => exact chkEop_keeps_inv h hstep
  | clrEop => exact clrEop_keeps_inv h ho hstep
  | clrErr => exact clrErr_keeps_inv h ho hstep
  | clrEn => exact clrEn_keeps_inv h ho hstep
  | respond => cases hstep; exact respond_keeps_inv h

/-! ### The flash macro -/

/-- An operation in flight that is not abandoned runs where its flags may stand (43_poll_classify R205). -/
theorem SharedInv.flagsMayStand {q : Fsm} {s : State} (h : SharedInv q s) (hbsy : s.flash.bsy = true)
    (hstale : s.fcs.stale = false) : q.flagsMayStand s.fcs.cOp = true := by
  have hq : q = .poll ∨ q = .start := by simpa [hstale] using h.abandoned hbsy
  obtain rfl | rfl := hq
  · rfl
  · obtain hop | hop := cOp_of_pairReachable rfl h.pair
    · have hidle : s.flash.bsy = false := h.settled (by simp [Fsm.macroIdle, hop])
      exact absurd (hidle.symm.trans hbsy) nofun
    · simp [Fsm.flagsMayStand, hop]

/-- The end of an operation in flight keeps the shared clauses: no flag of another operation stands, and the completion raises
one at most (44_regif_actions R255). -/
theorem SharedInv.settle {q : Fsm} {r : Completion} {s : State} (h : SharedInv q s) (hbsy : s.flash.bsy = true)
    (hwf : Memory.wf r.mem = true) (hwithin : Memory.within s.cfg r.mem = true)
    (hflags : ¬(r.flags.eop = true ∧ r.flags.wrprterr = true)) : SharedInv q (Machine.settle r s) := by
  have hbusy : false = true ↔ Inflight.none ≠ .none := by simp
  simp only [Machine.settle]
  obtain ⟨-, hraise⟩ | ⟨hsplit, howe⟩ := raiseOrOwe_cases s.cfg r.flags
    { s.flash with mem := r.mem, bsy := false, cr := { s.flash.cr with strt := false }, inflight := .none }
  · rw [hraise]
    exact { h with
      canonical := hwf
      bounded := hwithin
      busy := hbusy
      target := rfl
      settled := fun _ => rfl
      abandoned := nofun
      oneFlag := fun hc hs => by
        obtain ⟨heop, hwrp⟩ := h.quiet hc hs (.inl hbsy)
        simpa [heop, hwrp] using hflags
      quiet := fun _ hs hq => absurd ((h.flagsMayStand hbsy hs).symm.trans (hq.resolve_left nofun)) nofun }
  · rw [howe]
    exact { h with
      canonical := hwf
      bounded := hwithin
      busy := hbusy
      target := rfl
      settled := fun _ => rfl
      abandoned := nofun
      nothingOwed := fun hc => absurd (hc.symm.trans hsplit) nofun
      quiet := fun hc => absurd (hc.symm.trans hsplit) nofun }

/-- The second step of a split completion keeps the shared clauses: they say nothing of the flags under `SPLIT_COMPLETION`. -/
theorem SharedInv.payOwed {q : Fsm} {s : State} (h : SharedInv q s) (howed : s.flash.owed ≠ StatusFlags.clear) :
    SharedInv q (Machine.payOwed s) :=
  { h with
    nothingOwed := fun hc => absurd (h.nothingOwed hc) howed
    oneFlag := fun hc => absurd (h.nothingOwed hc) howed
    quiet := fun hc => absurd (h.nothingOwed hc) howed }

/-- A step of the flash macro keeps the shared clauses. -/
theorem SharedInv.completionStep {q : Fsm} {s : State} (h : SharedInv q s) : SharedInv q (Machine.completionStep s) := by
  have htarget := h.target
  obtain ⟨howed, e⟩ | ⟨-, -, e⟩ | ⟨p, -, hflight, e⟩ | ⟨a, v, -, hflight, e⟩ := completionStep_cases s <;> rw [e]
  · exact h.payOwed howed
  · exact h
  · rw [hflight] at htarget
    have hpage : p < s.cfg.numPages := of_decide_eq_true htarget
    refine h.settle (h.busy.mpr (by simp [hflight])) (completeErase_wf p h.canonical)
      (completeErase_within h.config hpage rfl h.bounded) ?_
    obtain e | e | e := completeErase_flags p s <;> rw [e] <;> decide
  · rw [hflight] at htarget
    simp only [targetOk, Bool.and_eq_true] at htarget
    refine h.settle (h.busy.mpr (by simp [hflight])) (completeProgram_wf a v h.canonical)
      (completeProgram_within htarget.2 h.bounded) ?_
    obtain e | e | e | e := completeProgram_flags a v s <;> rw [e] <;> decide

/-- The flash macro never writes the key state. -/
theorem completionStep_key (s : State) : (completionStep s).flash.key = s.flash.key := by
  obtain ⟨-, e⟩ | ⟨-, -, e⟩ | ⟨_, -, -, e⟩ | ⟨_, _, -, -, e⟩ := completionStep_cases s <;> rw [e]
  · rfl
  · simp
  · simp

/-- Without split completion the flash macro has no step while nothing is in flight. -/
theorem SharedInv.completionStep_eq_self {q : Fsm} {s : State} (h : SharedInv q s) (hbsy : s.flash.bsy = false)
    (hc : s.cfg.splitCompletion = false) : Machine.completionStep s = s := by
  have hflight : s.flash.inflight = .none := by simpa [hbsy] using h.busy
  simp [Machine.completionStep, h.nothingOwed hc, hflight]

/-- A step of the flash macro keeps the clauses of each state. -/
theorem SharedInv.own_completionStep {q : Fsm} {s : State} (h : SharedInv q s) (ho : OwnInv q s) :
    OwnInv q (Machine.completionStep s) := by
  have hfcs : (Machine.completionStep s).fcs = s.fcs := by rw [completionStep_frame]
  have hcfg : (Machine.completionStep s).cfg = s.cfg := by rw [completionStep_frame]
  cases q with
  | clrEop =>
    refine ⟨fun hc => ?_, by rw [hfcs]; exact ho.2⟩
    rw [hcfg] at hc
    rw [h.completionStep_eq_self (h.settled rfl) hc]
    exact ho.1 hc
  | clrErr =>
    refine ⟨fun hc => ?_, by rw [hfcs]; exact ho.2⟩
    rw [hcfg] at hc
    rw [h.completionStep_eq_self (h.settled rfl) hc]
    exact ho.1 hc
  | key1 | key2 | rechkLock | poll | clrEn | respond => simpa only [OwnInv, hfcs, hcfg, completionStep_key] using ho
  | _ => trivial

/-! ### Resets -/

/-- The reset values around an array of the machine meet the invariant (10_state R50, R51). -/
theorem resetTo_inv {mem : Memory} {s : State} (hp : s.poweredUp = true) (hconfig : s.cfg.wf = true)
    (howners : exclusiveOwnership s.moves = true) (hwf : Memory.wf mem = true) (hwithin : Memory.within s.cfg mem = true) :
    Inv (resetTo mem s) :=
  SharedInv.inv (q := .idle)
    { powered := hp
      config := hconfig
      owners := howners
      canonical := hwf
      bounded := hwithin
      busy := by simp [Flash.reset]
      target := rfl
      pair := rfl
      address := nofun
      perBit := rfl
      pgBit := rfl
      opened := nofun
      settled := nofun
      polls := Nat.zero_le _
      latched := nofun
      abandoned := nofun
      current := nofun
      nothingOwed := fun _ => rfl
      oneFlag := fun _ _ => by simp [Flash.reset]
      quiet := fun _ _ _ => ⟨rfl, rfl⟩
      portFree := nofun } rfl trivial

/-- A device reset draws bytes of the array only (70_reset_and_hazards R303). -/
theorem SharedInv.resetMem_within {q : Fsm} {s : State} (h : SharedInv q s) : Memory.within s.cfg (resetMem s) = true := by
  have htarget := h.target
  cases hflight : s.flash.inflight with
  | none => simpa [resetMem, coveredRange, hflight, Memory.update] using h.bounded
  | erase p =>
    rw [hflight] at htarget
    have hpage : p < s.cfg.numPages := of_decide_eq_true htarget
    simp only [resetMem, hflight, coveredRange]
    exact Memory.update_within _ h.bounded (page_contained h.config hpage)
  | program a v =>
    rw [hflight] at htarget
    simp only [targetOk, Bool.and_eq_true] at htarget
    simp only [resetMem, hflight, coveredRange]
    exact Memory.update_within _ h.bounded htarget.2

/-- A device reset keeps the invariant. -/
theorem SharedInv.deviceReset_inv {q : Fsm} {s : State} (h : SharedInv q s) : Inv (deviceReset s) :=
  resetTo_inv h.powered h.config h.owners (resetMem_wf h.canonical) h.resetMem_within

/-- The first power-up leads to the invariant (10_state R52). -/
theorem powerUp_inv {s : State} (hconfig : s.cfg.wf = true) (howners : exclusiveOwnership s.moves = true) :
    Inv (powerUp s) :=
  resetTo_inv (s := s.setPowered) rfl hconfig howners (powerUpMem_wf s) (powerUpMem_within s)

/-! ### All moves -/

/-- Every move but a foreign access keeps the invariant (60_exceptions R285). -/
theorem applyMove_keeps_inv {q : Fsm} {m : Move} {s t : State} (h : SharedInv q s) (ho : OwnInv q s)
    (hst : s.fcs.st = q.code) (hm : m.isForeign = false) (hmove : applyMove m s = .next t) : Inv t := by
  have hread (w : Word) : Inv (s.setHostData w) := SharedInv.inv { h with } hst ho
  have hdraw (w : Word) : Inv ((s.setHostData w).drawn 1) := SharedInv.inv { h with } hst ho
  cases m with
  | sequencer => exact sequencerStep_keeps_inv h ho hst hmove
  | completion =>
    cases hmove
    exact h.completionStep.inv (by rw [completionStep_frame]; exact hst) (h.own_completionStep ho)
  | issue =>
    simp only [applyMove, hostIssue] at hmove
    split at hmove
    · cases hmove
    · rename_i hfree
      cases hmove
      obtain rfl : q = .idle := by simpa [commandInProgress, hst] using (not_or.mp hfree).2
      exact SharedInv.inv (q := .idle) { h with portFree := nofun } hst trivial
  | pollValid => cases hmove; exact hread _
  | collect =>
    simp only [applyMove, hostCollect] at hmove
    split at hmove <;> cases hmove
    exact hread _
  | readRsp =>
    cases hmove
    simp only [hostReadRsp]
    split
    · exact hread _
    · exact hdraw _
  | readFlash =>
    simp only [applyMove, readFlash] at hmove
    split at hmove
    · split at hmove <;> cases hmove
      · exact hdraw _
      · exact hread _
    · cases hmove
  | deviceReset => cases hmove; exact h.deviceReset_inv
  | foreignRead => cases hm
  | foreignWrite => cases hm
  | foreignArrayWrite => cases hm

/-- Where the host keeps its duty, the move of a step is no foreign access, and the duty is still kept for the moves after
it (60_exceptions R285). -/
theorem owners_of_step {m : Move} {s : State} (h : exclusiveOwnership s.moves = true)
    (hm : (s.moves = [] ∧ m = .sequencer) ∨ ∃ rest, s.moves = m :: rest) :
    m.isForeign = false ∧ exclusiveOwnership s.taken.moves = true := by
  obtain ⟨hnil, rfl⟩ | ⟨rest, hcons⟩ := hm
  · exact ⟨rfl, by simp [State.taken, hnil, exclusiveOwnership]⟩
  · rw [hcons] at h
    simpa [exclusiveOwnership, State.taken, hcons] using h

/-- Settles O49: the step is the power-up, or one move, and each keeps the clauses that `SharedInv` and `OwnInv` divide the
invariant into. -/
theorem stepsKeepTheInvariant : Obligations.StepsKeepTheInvariant := by
  rintro s t ⟨q, hst, hinv⟩ hstep
  cases hp : s.poweredUp with
  | false =>
    rw [step_unpowered hp] at hstep
    cases hstep
    exact powerUp_inv hinv.config hinv.owners
  | true =>
    obtain ⟨m, hsource, hmove⟩ := step_inversion hp hstep
    obtain ⟨hm, howners⟩ := owners_of_step hinv.owners hsource
    exact applyMove_keeps_inv (s := s.taken) { hinv.shared hp with owners := howners } hinv.own hst hm hmove

end Sys2Proof.Machine
end

section
/-! The frame of the instructions, and which steps change the array (10_state R48). -/

namespace Sys2Proof.Machine

/-- Settles O25: the frames of a command (`exec_command_frame`) and of a bus action (`exec_bus_frame`). -/
theorem instructionsLeaveTheArrayAndTheOtherSide : Obligations.InstructionsLeaveTheArrayAndTheOtherSide := by
  intro i s t h
  cases hi : i.isCommand with
  | true =>
    obtain ⟨hflash, hcfg, hmoves, hbus, hhost, hdraws, hstale, hrsp, hpowered⟩ := exec_command_frame hi h
    exact ⟨fun a => by simp only [byteAt, hflash], hcfg, hpowered, hmoves, hhost, nofun,
      fun _ => ⟨hflash, hbus, hdraws, hrsp, hstale⟩⟩
  | false =>
    obtain ⟨hfcs, hport, hcfg, hmoves, hhost, hmem, -, hpowered⟩ := exec_bus_frame hi h
    exact ⟨fun a => by simp only [byteAt, hmem], hcfg, hpowered, hmoves, hhost, fun _ => ⟨hfcs, hport⟩, nofun⟩

/-- A step of the flash macro changes no byte outside the operation in flight. -/
theorem completionStep_outside (s : State) {x : Nat}
    (h : x < (coveredRange s.cfg s.flash.inflight).1 ∨
      (coveredRange s.cfg s.flash.inflight).1 + (coveredRange s.cfg s.flash.inflight).2 ≤ x) :
    Memory.read (completionStep s).flash.mem x = Memory.read s.flash.mem x := by
  obtain ⟨-, e⟩ | ⟨-, -, e⟩ | ⟨p, -, hflight, e⟩ | ⟨a, v, -, hflight, e⟩ := completionStep_cases s <;> rw [e]
  · rfl
  · rw [hflight] at h
    simpa using completeErase_outside p s h
  · rw [hflight] at h
    simpa using completeProgram_outside a v s h

/-- A move that changes a byte of the array is the macro's completion or a device reset, and the byte belongs to the operation
in flight (10_state R48, 70_reset_and_hazards R303). -/
theorem applyMove_changes_byte {m : Move} {s t : State} {x : Nat} (h : applyMove m s = .next t)
    (hx : byteAt t x ≠ byteAt s x) :
    (m = .completion ∨ m = .deviceReset) ∧ (coveredRange s.cfg s.flash.inflight).1 ≤ x ∧
      x < (coveredRange s.cfg s.flash.inflight).1 + (coveredRange s.cfg s.flash.inflight).2 := by
  by_cases hcompletion : m = .completion
  · subst hcompletion
    cases h
    have hinside := mt (completionStep_outside s) hx
    exact ⟨.inl rfl, by omega⟩
  by_cases hreset : m = .deviceReset
  · subst hreset
    cases h
    have hinside := mt (resetMem_outside s) hx
    exact ⟨.inr rfl, by omega⟩
  obtain ⟨-, -, hmem, -⟩ := applyMove_frame h hcompletion hreset
  exact absurd (by simp only [byteAt, hmem]) hx

/-- Settles O45: `applyMove_changes_byte` for the one move that the step is. -/
theorem onlyCompletionAndResetChangeTheArray : Obligations.OnlyCompletionAndResetChangeTheArray := by
  intro s t x hp hstep hx
  obtain ⟨m, hsource, hmove⟩ := step_inversion hp hstep
  obtain ⟨hm, hlow, hhigh⟩ := applyMove_changes_byte (s := s.taken) hmove hx
  refine ⟨?_, ?_⟩
  · obtain ⟨-, rfl⟩ | hscheduled := hsource
    · exact absurd hm (by decide)
    · obtain rfl | rfl := hm
      · exact .inl hscheduled
      · exact .inr hscheduled
  · change (coveredRange s.cfg s.flash.inflight).1 ≤ x at hlow
    change x < (coveredRange s.cfg s.flash.inflight).1 + (coveredRange s.cfg s.flash.inflight).2 at hhigh
    cases hflight : s.flash.inflight with
    | none => rw [hflight] at hhigh; exact absurd hhigh (Nat.not_lt_zero x)
    | erase p => rw [hflight] at hlow hhigh; exact .inl ⟨p, rfl, hlow, hhigh⟩
    | program a v => rw [hflight] at hlow hhigh; exact .inr ⟨a, v, rfl, hlow, hhigh⟩

end Sys2Proof.Machine
end

section
/-! The machine at rest and right after reset (10_state R50, R51, R53). -/

namespace Sys2Proof.Machine

/-- A run from the invariant stays in it. -/
theorem steps_keep_inv {k : Nat} {s t : State} (hs : Inv s) (h : steps k s = .next t) : Inv t :=
  steps_induction stepsKeepTheInvariant hs h

/-- The invariant of a state in `IDLE` is that of `IDLE`. -/
theorem Inv.idle {s : State} (h : Inv s) (hst : s.fcs.st = Fsm.idle.code) : InvAt .idle s := by
  obtain ⟨q, hq, hinv⟩ := h
  obtain rfl : q = .idle := Fsm.code_inj.mp (hq.symm.trans hst)
  exact hinv

/-- Settles O51: the run stays in the invariant, whose clauses `perBit`, `pgBit` and `quiet` say this of `IDLE`. -/
theorem noEnableBitAndNoFlagAtRest : Obligations.NoEnableBitAndNoFlagAtRest := by
  intro k s t hs hrun hst
  have hidle : InvAt .idle t := (steps_keep_inv hs hrun).idle hst
  exact ⟨hidle.perBit, hidle.pgBit, fun hc hstale => hidle.quiet hc hstale (.inr rfl)⟩

/-- Settles O1: each value is read off `State.reset`. -/
theorem resetLeavesTheSpecifiedValues : Obligations.ResetLeavesTheSpecifiedValues := by
  unfold Obligations.ResetLeavesTheSpecifiedValues
  decide

/-- Settles O48: `State.reset` is a fixed state in `IDLE`, and each clause is evaluated on it. -/
theorem resetMeetsTheInvariant : Obligations.ResetMeetsTheInvariant := by
  refine ⟨.idle, rfl, ?_⟩
  constructor <;> decide

end Sys2Proof.Machine
end

section
/-! What each state of the sequencer issues (43_poll_classify R201), and what `RD_CR` reads (44_regif_actions R232). -/

namespace Sys2Proof.Machine

/-- The action issued in the state that `st` names. -/
theorem issuedAction_at {s : State} {q : Fsm} (h : s.fcs.st = q.code) : issuedAction s = busAction s.cfg s.fcs q := by
  simp [issuedAction, h]

/-- Outside `START` and `PAYLOAD` either opcode is reachable (43_poll_classify R201). -/
theorem pairReachable_of_command {c : Config} {q : Fsm} {op : BitVec 2} (hop : op = opErase ∨ op = opProgram)
    (hstart : q ≠ .start) (hpayload : q ≠ .payload) : pairReachable c q op = true := by
  cases q with
  | start => exact absurd rfl hstart
  | payload => exact absurd rfl hpayload
  | _ => obtain rfl | rfl := hop <;> rfl

/-- The action of a command's state, from its row of the table where that does not depend on the opcode. -/
theorem issuedAction_of_command {s : State} {i : Instr} (q : Fsm) (hop : s.fcs.cOp = opErase ∨ s.fcs.cOp = opProgram)
    (hstart : q ≠ .start) (hpayload : q ≠ .payload)
    (hrow : pairReachable s.cfg q s.fcs.cOp = true → busAction s.cfg s.fcs q = some i) (hst : s.fcs.st = q.code) :
    issuedAction s = some i :=
  (issuedAction_at hst).trans (hrow (pairReachable_of_command hop hstart hpayload))

/-- At an unreachable pair no action is issued. -/
theorem busAction_unreachable {c : Config} {f : Fcs} {q : Fsm} (h : pairReachable c q f.cOp = false) :
    busAction c f q = none := by
  simp [busAction, h]

/-- The codes 17 to 31 name no state (10_state R31). -/
theorem Fsm.ofCode_unused {b : BitVec 5} (h : 17 ≤ b.toNat) : Fsm.ofCode b = none := by
  revert b
  decide

/-- At an unreachable pair the sequencer faults (43_poll_classify R201). -/
theorem sequencerStep_unreachable {s : State} {q : Fsm} (hst : s.fcs.st = q.code)
    (hpair : pairReachable s.cfg q s.fcs.cOp = false) : sequencerStep s = .fault .illegalFsmState := by
  have hidle : q ≠ .idle := by rintro rfl; cases hpair
  have hrespond : q ≠ .respond := by rintro rfl; cases hpair
  rw [sequencerStep_at hst, stepIn_bus hidle hrespond]
  simp [busStep, busAction_unreachable hpair]

/-- Settles O13: the rows of the table, read off `busAction` at the state's name. -/
theorem eachStateIssuesItsAction : Obligations.EachStateIssuesItsAction := by
  intro s
  have hissued {q : Fsm} {o : Option Instr} (ho : busAction s.cfg s.fcs q = o) (hst : s.fcs.st = q.code) :
      issuedAction s = o := (issuedAction_at hst).trans ho
  refine ⟨fun hop => ?_, fun hop => ?_, fun hop => ?_, ?_⟩
  · have row {i : Instr} (q : Fsm) := issuedAction_of_command (s := s) (i := i) q hop
    exact ⟨row .chkBusy nofun nofun fun h => if_pos h,
      row .chkLock nofun nofun fun h => if_pos h,
      row .key1 nofun nofun fun h => if_pos h,
      row .key2 nofun nofun fun h => if_pos h,
      row .rechkLock nofun nofun fun h => if_pos h,
      row .scrub nofun nofun fun h => if_pos h,
      row .latchAddr nofun nofun fun h => if_pos h,
      row .poll nofun nofun fun h => if_pos h,
      row .chkEop nofun nofun fun h => if_pos h,
      row .clrEop nofun nofun fun h => (if_pos h).trans (apply_ite some _ _ _).symm,
      row .clrErr nofun nofun fun h => if_pos h⟩
  · exact ⟨hissued (q := .setEn) (by simp [busAction, pairReachable, hop, opErase]),
      hissued (q := .start) (by simp [busAction, pairReachable, hop, opErase]),
      hissued (q := .clrEn) (by simp [busAction, pairReachable, hop, opErase])⟩
  · exact ⟨hissued (q := .setEn) (by simp [busAction, pairReachable, hop, opErase, opProgram]),
      fun hst hstrt => hissued (q := .start) (by simp [busAction, pairReachable, hop, opProgram, hstrt]) hst,
      hissued (q := .payload) (by simp [busAction, pairReachable, hop, opProgram]),
      hissued (q := .clrEn) (by simp [busAction, pairReachable, hop, opErase, opProgram])⟩
  · rintro (hst | hst)
    · exact hissued (q := .idle) rfl hst
    · exact hissued (q := .respond) rfl hst

/-- Settles O14: an unused code names no state (`Fsm.ofCode_unused`), and the two pairs are unreachable
(`sequencerStep_unreachable`). -/
theorem unreachableStatesFault : Obligations.UnreachableStatesFault := by
  intro s hnext h
  rw [step_sequencer hnext]
  obtain hcode | ⟨hst, hop, hstrt⟩ | ⟨hst, hop⟩ := h
  · simp [sequencerStep, State.taken, Fsm.ofCode_unused hcode]
  · exact sequencerStep_unreachable (s := s.taken) (q := .start) hst
      (by simp [State.taken, pairReachable, hop, hstrt, opErase])
  · exact sequencerStep_unreachable (s := s.taken) (q := .payload) hst
      (by simp [State.taken, pairReachable, hop, opProgram])

/-- `LOCK` is 1 exactly if `key` is not `Unlocked` (10_state R41). -/
theorem lockOf_eq_decide (k : KeyState) : lockOf k = decide (k ≠ .unlocked) := by
  cases k <;> rfl

/-- Settles O16: `RD_CR` reads the word `crWord`, whose bits `crBits_getLsbD` gives. -/
theorem rdCrReturnsTheControlFields : Obligations.RdCrReturnsTheControlFields := by
  intro s
  refine ⟨crWord s.flash, rfl, fun i => ?_⟩
  rw [← lockOf_eq_decide]
  exact crBits_getLsbD s.flash.cr (lockOf s.flash.key) i

end Sys2Proof.Machine
end

section
/-! Reads of the flash array by the host or another agent (20_memory R72, R73, R78). -/

namespace Sys2Proof.Machine

/-- A word of the array is little-endian (20_memory R72). -/
theorem Memory.readWord_toNat (m : Memory) (a : Nat) :
    (Memory.readWord m a).toNat = (Memory.read m a).toNat + 256 * (Memory.read m (a + 1)).toNat +
      65536 * (Memory.read m (a + 2)).toNat + 16777216 * (Memory.read m (a + 3)).toNat := by
  have h0 := (Memory.read m a).isLt
  have h1 := (Memory.read m (a + 1)).isLt
  have h2 := (Memory.read m (a + 2)).isLt
  simp only [Memory.readWord, BitVec.toNat_append]
  rw [← Nat.shiftLeft_add_eq_or_of_lt h2, ← Nat.shiftLeft_add_eq_or_of_lt h1, ← Nat.shiftLeft_add_eq_or_of_lt h0]
  simp only [Nat.shiftLeft_eq]
  omega

/-- The low bytes of a word, zero-extended (20_memory R73). -/
theorem lowBytes_toNat {n : Nat} (hn : n = 1 ∨ n = 2 ∨ n = 4) (w : Word) :
    (lowBytes n w).toNat = w.toNat % 256 ^ n := by
  have hw := w.isLt
  obtain rfl | rfl | rfl := hn <;> simp [lowBytes] <;> omega

/-- A read of the low bytes of a word of the array is the sum of the bytes in it (20_memory R72, R73). -/
theorem lowBytes_readWord_toNat {n : Nat} (hn : n = 1 ∨ n = 2 ∨ n = 4) (m : Memory) (a : Nat) :
    (lowBytes n (Memory.readWord m a)).toNat =
      (Memory.read m a).toNat + (if 2 ≤ n then 256 * (Memory.read m (a + 1)).toNat else 0) +
        (if n = 4 then 65536 * (Memory.read m (a + 2)).toNat + 16777216 * (Memory.read m (a + 3)).toNat else 0) := by
  have h0 := (Memory.read m a).isLt
  have h1 := (Memory.read m (a + 1)).isLt
  have h2 := (Memory.read m (a + 2)).isLt
  have h3 := (Memory.read m (a + 3)).isLt
  rw [lowBytes_toNat hn, Memory.readWord_toNat]
  obtain rfl | rfl | rfl := hn <;> simp <;> omega

/-- The bytes that an operation in flight covers are the page of an erase or the word of a program (20_memory R78). -/
theorem covers_iff (c : Config) (op : Inflight) (a len : Nat) :
    covers c op a len = true ↔
      (∃ p, op = .erase p ∧ c.flashBase.toNat + p * 2048 < a + len ∧ a < c.flashBase.toNat + p * 2048 + 2048) ∨
      (∃ b v, op = .program b v ∧ b.toNat < a + len ∧ a < b.toNat + 4) := by
  simp only [covers, Bool.and_eq_true, decide_eq_true_eq]
  cases op with
  | none => simp [coveredRange]
  | erase p => simp [coveredRange, pageBase, Config.base, Config.pageSize]
  | program b v => simp [coveredRange, Config.wordBytes]

/-- The reads that 20_memory R78 describes. -/
theorem readDescribed_iff (c : Config) (a n : Nat) :
    readDescribed c a n = true ↔
      (n = 1 ∨ n = 2 ∨ n = 4) ∧ a % n = 0 ∧ c.flashBase.toNat ≤ a ∧ a + n ≤ c.flashBase.toNat + c.flashSize := by
  simp only [readDescribed, Config.contains, Bool.and_eq_true, Bool.or_eq_true, beq_iff_eq, decide_eq_true_eq]
  simp only [Config.flashEnd, Config.base, and_assoc, or_assoc]

/-- A described read that no operation in flight covers returns bytes of the array. -/
theorem readFlash_uncovered {s : State} {a : Word} {n : Nat} (hread : readDescribed s.cfg a.toNat n = true)
    (hcovers : covers s.cfg s.flash.inflight a.toNat n = false) :
    readFlash a n s = .next (s.setHostData (lowBytes n (Memory.readWord s.flash.mem a.toNat))) := by
  simp [readFlash, hread, hcovers]

/-- A described read that an operation in flight covers returns a draw. -/
theorem readFlash_covered {s : State} {a : Word} {n : Nat} (hread : readDescribed s.cfg a.toNat n = true)
    (hcovers : covers s.cfg s.flash.inflight a.toNat n = true) :
    readFlash a n s = .next ((s.setHostData (lowBytes n s.nextWord)).drawn 1) := by
  simp [readFlash, hread, hcovers]

/-- Settles O41: the step is the read (`readFlash_uncovered`, `readFlash_covered`), whose value `lowBytes_readWord_toNat` and
`lowBytes_toNat` give; `covers_iff` says which bytes are covered. -/
theorem flashReadsReturnTheBytes : Obligations.FlashReadsReturnTheBytes := by
  intro s rest a n hp hmoves hn haligned hlow hhigh
  have hread : readDescribed s.cfg a.toNat n = true := (readDescribed_iff ..).mpr ⟨hn, haligned, hlow, hhigh⟩
  have hstep : step s = readFlash a n s.taken := by
    rw [step_scheduled hp hmoves]
    simp [applyMove, State.taken, State.setMoves, hmoves]
  refine ⟨fun hcovers => ?_, fun hcovers => ?_, covers_iff ..⟩
  · exact ⟨_, hstep.trans (readFlash_uncovered (s := s.taken) hread hcovers), lowBytes_readWord_toNat hn ..⟩
  · exact ⟨_, hstep.trans (readFlash_covered (s := s.taken) hread hcovers), lowBytes_toNat hn _⟩

end Sys2Proof.Machine
end

section
/-! The encodings of 30_encoding: the decoder undoes the encoder, and reads nothing but what the encoder writes. -/

namespace Sys2Proof.Machine

/-! ### What each decoder reads -/

/-- The erase frame (30_encoding R101). -/
theorem decodeFrame_erase (a d : Word) : decodeFrame ⟨0x1#32, a, d⟩ = .ok (.erasePage a d) := by
  simp [decodeFrame, cmdRes, cmdOp, opErase]

/-- The program frame (30_encoding R101). -/
theorem decodeFrame_program (a v : Word) : decodeFrame ⟨0x2#32, a, v⟩ = .ok (.programWord a v) := by
  simp [decodeFrame, cmdRes, cmdOp, opErase, opProgram]

/-- A write to a payload's address is read as the payload write: no register's address comes before it. -/
theorem decodeWrite_payload {c : Config} {a : Word} (h : Instr.payloadAddrOk c a = true) (v : Word) :
    decodeWrite c a v = .ok (.wrMem32 a v) := by
  have hreg : isRegisterAddr a = false := by
    simp only [Instr.payloadAddrOk, Bool.and_eq_true, Bool.not_eq_true'] at h
    exact h.2
  simp only [isRegisterAddr, Bool.or_eq_false_iff, beq_eq_false_iff_ne] at hreg
  obtain ⟨⟨⟨hkeyr, hsr⟩, hcr⟩, har⟩ := hreg
  rw [decodeWrite, if_neg hkeyr, if_neg hsr, if_neg har, if_neg hcr, if_pos h]

/-- Settles O3: every encoding but the payload write's is at a fixed address, where the decoder computes; the payload write's
is `decodeWrite_payload`. -/
theorem decodeOfEncodeIsTheInstruction : Obligations.DecodeOfEncodeIsTheInstruction := by
  intro c i hwf
  cases i with
  | erasePage a d => exact decodeFrame_erase a d
  | programWord a v => exact decodeFrame_program a v
  | wrMem32 a v => exact decodeWrite_payload hwf v
  | _ => rfl

/-! ### What is read is an instruction's own encoding -/

/-- A command word is its two fields (30_encoding R101). -/
theorem cmd_eq_append (cmd : Word) : cmd = cmdRes cmd ++ cmdOp cmd := by
  apply BitVec.eq_of_getLsbD_eq
  intro i hi
  simp only [cmdRes, cmdOp, BitVec.getLsbD_append, BitVec.getLsbD_extractLsb']
  split
  · simp [*]
  · simp [show i - 2 < 30 by omega, show 2 + (i - 2) = i by omega]

/-- The frame decoder reads the two commands' frames only (30_encoding R103). -/
theorem encode_of_decodeFrame {f : Frame} {i : Instr} (h : decodeFrame f = .ok i) :
    encode i = .frame f ∧ ∀ c, i.wf c = true := by
  obtain ⟨cmd, addr, data⟩ := f
  have hcmd := cmd_eq_append cmd
  simp only [decodeFrame] at h
  split_ifs at h with hres herase hprogram <;> cases h
  · rw [hres, herase] at hcmd
    subst hcmd
    exact ⟨rfl, fun _ => rfl⟩
  · rw [hres, hprogram] at hcmd
    subst hcmd
    exact ⟨rfl, fun _ => rfl⟩

/-- The write decoder reads an action's own address and value only (30_encoding R106). -/
theorem encode_of_decodeWrite {c : Config} {a v : Word} {i : Instr} (h : decodeWrite c a v = .ok i) :
    encode i = .bus (.write32 a v) ∧ i.wf c = true := by
  simp only [decodeWrite] at h
  split_ifs at h with hkeyr hkey1 hkey2 hsr heop hwrp hboth har hcr hpayload <;> cases h
  · exact ⟨by rw [hkeyr, hkey1]; rfl, rfl⟩
  · exact ⟨by rw [hkeyr, hkey2]; rfl, rfl⟩
  · exact ⟨by rw [hsr, heop]; rfl, rfl⟩
  · exact ⟨by rw [hsr, hwrp]; rfl, rfl⟩
  · exact ⟨by rw [hsr, hboth]; rfl, rfl⟩
  · exact ⟨by rw [har]; rfl, rfl⟩
  · exact ⟨rfl, hpayload⟩

/-- The modify decoder reads an action's own mask and value only (30_encoding R106). -/
theorem encode_of_decodeModify {c : Config} {a mask value : Word} {i : Instr} (h : decodeModify a mask value = .ok i) :
    encode i = .bus (.modify32 a mask value) ∧ i.wf c = true := by
  simp only [decodeModify] at h
  split_ifs at h <;> cases h <;> subst_vars <;> exact ⟨rfl, rfl⟩

/-- The bus decoder reads an action's own access only (30_encoding R106). -/
theorem encode_of_decodeBus {c : Config} {b : BusAccess} {i : Instr} (h : decodeBus c b = .ok i) :
    encode i = .bus b ∧ i.wf c = true := by
  cases b with
  | read32 a =>
    simp only [decodeBus] at h
    split_ifs at h <;> cases h <;> subst_vars <;> exact ⟨rfl, rfl⟩
  | write32 a v => exact encode_of_decodeWrite h
  | modify32 a mask value => exact encode_of_decodeModify h

/-- Settles O4: a frame by `encode_of_decodeFrame`, a bus access by `encode_of_decodeBus`. -/
theorem onlyAnInstructionsEncodingDecodes : Obligations.OnlyAnInstructionsEncodingDecodes := by
  intro c e i h
  cases e with
  | frame f =>
    obtain ⟨hencode, hwf⟩ := encode_of_decodeFrame h
    exact ⟨hencode, hwf c⟩
  | bus b => exact encode_of_decodeBus h

/-! ### Words written out, and the assembler -/

/-- Settles O5: each word is the encoding of the instruction it is read as, so `decodeOfEncodeIsTheInstruction` reads it. -/
theorem writtenOutWordsDecode : Obligations.WrittenOutWordsDecode := by
  have hdecode := decodeOfEncodeIsTheInstruction Config.ex
  exact ⟨hdecode (.erasePage _ _) rfl, hdecode (.programWord _ _) rfl, hdecode .rdSr rfl, hdecode .rdCr rfl,
    hdecode .wrKeyrKey1 rfl, hdecode .w1cSrBoth rfl, hdecode .setStrt rfl, hdecode (.wrAr _) rfl,
    hdecode (.wrMem32 _ _) rfl⟩

/-- A line that assembles is an erase with a `DATA` word of 0 or a program (30_encoding R108). -/
theorem assembleLine_cases {line : List Char} {f : Frame} (h : assembleLine line = some f) :
    (∃ x, f = ⟨0x1#32, x, 0#32⟩) ∨ ∃ x y, f = ⟨0x2#32, x, y⟩ := by
  unfold assembleLine at h
  split at h
  · split at h
    · obtain ⟨x, -, rfl⟩ := Option.map_eq_some_iff.mp h
      exact .inl ⟨x, rfl⟩
    · cases h
  · split at h
    · split at h
      · cases h
        exact .inr ⟨_, _, rfl⟩
      · cases h
    · cases h
  · cases h

/-- Settles O6: the frame is one of the two that `assembleLine_cases` gives, and the decoder reads both. -/
theorem assembledLinesAreLegalFrames : Obligations.AssembledLinesAreLegalFrames := by
  intro line f h
  obtain ⟨x, rfl⟩ | ⟨x, y, rfl⟩ := assembleLine_cases h
  · exact .inl ⟨rfl, decodeFrame_erase x 0#32⟩
  · exact .inr (decodeFrame_program x y)

end Sys2Proof.Machine
end

section
/-! The word a modify of `CR` writes over the word read (30_encoding R106, R107). -/

namespace Sys2Proof.Machine

/-! ### The word under a mask -/

/-- A modify that sets the bits of its mask writes the old word OR the mask. -/
theorem modify_set (w mask : Word) : (w &&& ~~~mask) ||| mask = w ||| mask := by
  apply BitVec.eq_of_getLsbD_eq
  intro i hi
  simp only [BitVec.getLsbD_or, BitVec.getLsbD_and, BitVec.getLsbD_not, hi, decide_true, Bool.true_and]
  cases mask.getLsbD i <;> simp

/-- A modify that clears the bits of its mask writes the old word AND the mask's complement. -/
theorem modify_clear (w mask : Word) : (w &&& ~~~mask) ||| 0#32 = w &&& ~~~mask := BitVec.or_zero

/-- A modify of bit `k` changes that bit and no other. -/
theorem getLsbD_modify (w : Word) (b : Bool) {i k : Nat} (hi : i < 32) :
    ((w &&& ~~~BitVec.twoPow 32 k) ||| if b = true then BitVec.twoPow 32 k else 0#32).getLsbD i =
      if i = k then b else w.getLsbD i := by
  by_cases hik : i = k
  · subst hik
    cases b <;> simp [hi]
  · cases b <;> simp [hi, hik]

/-! ### The control register under a modify -/

/-- A modify of bit `k` writes the word of the fields that differ from the old ones in that bit. -/
theorem modify_crBits {mask value : Word} {r r' : ControlReg} {lock : Bool} (k : Nat) (b : Bool)
    (h : ∀ i, (crBits r' lock).getLsbD i = if i = k then b else (crBits r lock).getLsbD i)
    (hmask : mask = BitVec.twoPow 32 k := by decide)
    (hvalue : value = if b = true then BitVec.twoPow 32 k else 0#32 := by decide) :
    (crBits r lock &&& ~~~mask) ||| value = crBits r' lock := by
  rw [hmask, hvalue]
  exact BitVec.eq_of_getLsbD_eq fun i hi => (getLsbD_modify _ b hi).trans (h i).symm

/-- `PG` is bit 0 of `CR` (10_state R45). -/
theorem crBits_pg_getLsbD (r : ControlReg) (lock b : Bool) (i : Nat) :
    (crBits { r with pg := b } lock).getLsbD i = if i = 0 then b else (crBits r lock).getLsbD i := by
  rw [crBits_getLsbD, crBits_getLsbD]
  grind

/-- `PER` is bit 1 of `CR` (10_state R45). -/
theorem crBits_per_getLsbD (r : ControlReg) (lock b : Bool) (i : Nat) :
    (crBits { r with per := b } lock).getLsbD i = if i = 1 then b else (crBits r lock).getLsbD i := by
  rw [crBits_getLsbD, crBits_getLsbD]
  grind

/-- `STRT` is bit 6 of `CR` (10_state R45). -/
theorem crBits_strt_getLsbD (r : ControlReg) (lock b : Bool) (i : Nat) :
    (crBits { r with strt := b } lock).getLsbD i = if i = 6 then b else (crBits r lock).getLsbD i := by
  rw [crBits_getLsbD, crBits_getLsbD]
  grind

/-- While unlocked a start trigger leaves `CR` with `STRT` set, whether it starts an erase or not (44_regif_actions R242). -/
theorem crWord_setStrtFlash {c : Config} {f : Flash} (hkey : f.key = .unlocked) :
    crWord (setStrtFlash c f) = crBits { f.cr with strt := true } (lockOf f.key) := by
  rw [setStrtFlash, if_neg (by simp [hkey, lockOf]), startErase_frame]
  rfl

/-- While unlocked a modify of a field leaves `CR` with that field changed (44_regif_actions R241). -/
theorem crWord_modifyCr (g : ControlReg → ControlReg) {f : Flash} (hkey : f.key = .unlocked) :
    crWord (modifyCr g f) = crBits (g f.cr) (lockOf f.key) := by
  rw [modifyCr_unlocked g hkey]
  rfl

/-- Settles O20: a modify writes its bit over the word read (`modify_crBits`), as executing it changes the field of that bit;
the table's words are `modify_set` and `modify_clear`. -/
theorem modifiesWriteTheTablesWord : Obligations.ModifiesWriteTheTablesWord := by
  intro s hkey
  refine ⟨fun i hi => ?_, ⟨_, rfl, congrArg some (modify_set _ _)⟩, ⟨_, rfl, congrArg some (modify_set _ _)⟩,
    ⟨_, rfl, congrArg some (modify_clear _ 0x2#32)⟩, ⟨_, rfl, congrArg some (modify_clear _ 0x1#32)⟩,
    ⟨_, rfl, congrArg some (modify_set _ _)⟩⟩
  simp only [List.mem_cons, List.not_mem_nil, or_false] at hi
  obtain rfl | rfl | rfl | rfl | rfl := hi <;> refine ⟨_, _, rfl, rfl, congrArg some ?_⟩ <;>
    simp only [State.setFlash_flash, crWord_modifyCr _ hkey, crWord_setStrtFlash hkey]
  · exact modify_crBits 1 true (crBits_per_getLsbD _ _ _)
  · exact modify_crBits 0 true (crBits_pg_getLsbD _ _ _)
  · exact modify_crBits 1 false (crBits_per_getLsbD _ _ _)
  · exact modify_crBits 0 false (crBits_pg_getLsbD _ _ _)
  · exact modify_crBits 6 true (crBits_strt_getLsbD _ _ _)

end Sys2Proof.Machine
end

section
/-! An erase takes nothing from its `DATA` word (30_encoding R102): every step of it is the same with another `c_data`. -/

namespace Sys2Proof.Machine

/-- The state with another `c_data`. -/
def State.setData (s : State) (d : Word) : State := s.setFcs { s.fcs with cData := d }

/-! ### The sequencer -/

/-- A bus action does not read the sequencer's registers: its operands are in the instruction. -/
theorem exec_bus_setFcs {i : Instr} {s t : State} (f : Fcs) (hi : i.isCommand = false) (h : exec i s = .next t) :
    exec i (s.setFcs f) = .next (t.setFcs f) := by
  have hkeyWrite {k : Word} (hk : keyWrite k s = .next t) : keyWrite k (s.setFcs f) = .next (t.setFcs f) := by
    simp only [keyWrite, State.setFcs_flash, State.setFcs_cfg] at hk ⊢
    split at hk
    · cases hk; rfl
    · cases hk; rfl
    · cases hk; rfl
    · split at hk <;> cases hk
      rfl
  cases i with
  | erasePage => cases hi
  | programWord => cases hi
  | wrKeyrKey1 => exact hkeyWrite h
  | wrKeyrKey2 => exact hkeyWrite h
  | wrMem32 a v =>
    obtain ⟨halign, hinside, hadmitted, rfl⟩ := arrayWrite_next h
    exact arrayWrite_admitted (s := s.setFcs f) halign hinside hadmitted
  | _ => cases h; rfl

/-- A transition does not read `c_data` (43_poll_classify R201). -/
theorem advance_setData (q : Fsm) (s : State) (d : Word) : advance q (s.setData d) = (advance q s).setData d := by
  cases q <;> simp only [advance, afterUnlocked, enterPoll, pollNext, timeOut, classify,
    apply_ite (State.setData · d)] <;> rfl

/-- Only the payload write takes an operand from `c_data`, and an erase issues none (43_poll_classify R201). -/
theorem busAction_erase_data {c : Config} {f : Fcs} (hop : f.cOp = opErase) (q : Fsm) (d : Word) :
    busAction c { f with cData := d } q = busAction c f q := by
  cases q with
  | payload => simp [busAction, pairReachable, hop, opErase, opProgram]
  | _ => rfl

/-- A bus state's step of an erase is the same with another `c_data`. -/
theorem busStep_setData {q : Fsm} {s t : State} (d : Word) (hop : s.fcs.cOp = opErase) (h : busStep q s = .next t) :
    busStep q (s.setData d) = .next (t.setData d) := by
  obtain ⟨i, u, hi, hu, rfl⟩ := busStep_next h
  have haction : busAction s.cfg (s.setData d).fcs q = some i := (busAction_erase_data hop q d).trans hi
  have hfcs : u.fcs = s.fcs := (exec_bus_frame (busAction_isCommand hi) hu).1
  have hexec : exec i (s.setData d) = .next (u.setData d) := by
    rw [State.setData, State.setData, hfcs]
    exact exec_bus_setFcs _ (busAction_isCommand hi) hu
  rw [busStep_of_exec haction hexec, advance_setData]

/-- The sequencer's step of an erase is the same with another `c_data`; in `IDLE` no command is in progress. -/
theorem sequencerStep_setData {s t : State} (d : Word) (hop : s.fcs.cOp = opErase) (hst : s.fcs.st ≠ Fsm.idle.code)
    (h : sequencerStep s = .next t) : sequencerStep (s.setData d) = .next (t.setData d) := by
  unfold sequencerStep at h
  split at h
  · rename_i q hq
    have hcode := Fsm.code_of_ofCode hq
    rw [sequencerStep_at (s := s.setData d) hcode]
    by_cases hidle : q = .idle
    · exact absurd (hidle ▸ hcode) hst
    by_cases hrespond : q = .respond
    · subst hrespond
      cases h
      rfl
    rw [stepIn_bus hidle hrespond] at h ⊢
    exact busStep_setData d hop h
  · cases h

/-! ### The other agents -/

/-- The flash macro does not read `c_data`. -/
theorem completionStep_setData (s : State) (d : Word) :
    completionStep (s.setData d) = (completionStep s).setData d := by
  obtain ⟨howed, e⟩ | ⟨howed, hflight, e⟩ | ⟨p, howed, hflight, e⟩ | ⟨a, v, howed, hflight, e⟩ := completionStep_cases s
  · rw [e]
    exact if_neg howed
  all_goals
    rw [e]
    refine (if_pos howed).trans ?_
    simp only [State.setData, State.setFcs_flash, hflight] <;> rfl

/-- A move during an erase is the same with another `c_data`: an issue and a foreign access fault (60_exceptions R285), and the
other agents do not read the register. -/
theorem applyMove_setData {m : Move} {s t : State} (d : Word) (hop : s.fcs.cOp = opErase) (hst : s.fcs.st ≠ Fsm.idle.code)
    (hm : m ≠ .deviceReset) (h : applyMove m s = .next t) : applyMove m (s.setData d) = .next (t.setData d) := by
  have hprogress : commandInProgress s = true := bne_iff_ne.mpr hst
  have howned (o : Host.Outcome State Fault Refusal) : foreignAccess s o = .fault .hostProtocolViolation :=
    if_pos (by simp [sequencerOwns, hprogress])
  cases m with
  | sequencer => exact sequencerStep_setData d hop hst h
  | completion => cases h; exact congrArg _ (completionStep_setData s d)
  | issue => simp [applyMove, hostIssue, hprogress] at h
  | pollValid => cases h; rfl
  | collect =>
    simp only [applyMove, hostCollect] at h
    split at h <;> cases h
    rename_i hvalid
    exact if_pos hvalid
  | readRsp =>
    cases h
    simp only [hostReadRsp, apply_ite (State.setData · d)]
    rfl
  | readFlash a n =>
    simp only [applyMove, readFlash] at h
    split at h
    · rename_i hread
      split at h <;> cases h <;> rename_i hcovers
      · exact readFlash_covered (s := s.setData d) hread hcovers
      · exact readFlash_uncovered (s := s.setData d) hread (eq_false_of_ne_true hcovers)
    · cases h
  | deviceReset => exact absurd rfl hm
  | foreignRead => simp [applyMove, howned] at h
  | foreignWrite => simp [applyMove, howned] at h
  | foreignArrayWrite => simp [applyMove, howned] at h

/-- A step of a machine that is powered up is the next move. -/
theorem step_eq_applyMove {m : Move} {s : State} (hp : s.poweredUp = true)
    (hm : (s.moves = [] ∧ m = .sequencer) ∨ ∃ rest, s.moves = m :: rest) : step s = applyMove m s.taken := by
  obtain ⟨hnil, rfl⟩ | ⟨rest, hcons⟩ := hm
  · exact step_sequencer (by simp [sequencerIsNext, hp, hnil])
  · rw [step_scheduled hp hcons]
    simp [State.taken, State.setMoves, hcons]

/-- Settles O47: the step is one move, and a move of an erase is the same with another `c_data` (`applyMove_setData`). -/
theorem eraseIgnoresItsDataWord : Obligations.EraseIgnoresItsDataWord := by
  intro s t d hp hop hst hreset h
  obtain ⟨m, hm, hmove⟩ := step_inversion hp h
  have hm' : m ≠ .deviceReset := by
    rintro rfl
    obtain ⟨-, hsequencer⟩ | ⟨rest, hcons⟩ := hm
    · cases hsequencer
    · exact hreset rest hcons
  have hstep := step_eq_applyMove (s := s.setData d) hp hm
  exact hstep.trans (applyMove_setData (s := s.taken) d hop hst hm' hmove)

end Sys2Proof.Machine
end

section
/-! The acceptance of a frame (40_entry_unlock R131 to R134): which frames are legal, which addresses are valid, and what an
accepted command does to the state. -/

namespace Sys2Proof.Machine

/-! ### Addresses -/

/-- The valid addresses of an erase are the page bases of the array (40_entry_unlock R133). -/
theorem validAddr_erase_iff (c : Config) (a : Word) : validAddr c opErase a = true ↔
    a.toNat % 2048 = 0 ∧ c.flashBase.toNat ≤ a.toNat ∧ a.toNat + 2048 ≤ c.flashBase.toNat + c.flashSize := by
  simp only [validAddr, if_true, Bool.and_eq_true, decide_eq_true_eq]
  exact and_assoc

/-- The valid addresses of a program are the words of the array (40_entry_unlock R133). -/
theorem validAddr_program_iff (c : Config) (a : Word) : validAddr c opProgram a = true ↔
    a.toNat % 4 = 0 ∧ c.flashBase.toNat ≤ a.toNat ∧ a.toNat + 4 ≤ c.flashBase.toNat + c.flashSize := by
  simp only [validAddr, if_neg (show opProgram ≠ opErase by decide), if_true, Bool.and_eq_true, decide_eq_true_eq]
  exact and_assoc

/-- A command with a valid address goes on to `CHK_BUSY` (40_entry_unlock R131). -/
theorem validateAddr_accept_valid {op : BitVec 2} {a : Word} {s : State} (d : Word) (h : validAddr s.cfg op a = true) :
    validateAddr (accept op a d s) = (accept op a d s).goto .chkBusy :=
  if_pos h

/-- A command with any other address ends in `InvalidAddress` (40_entry_unlock R133). -/
theorem validateAddr_accept_invalid {op : BitVec 2} {a : Word} {s : State} (d : Word)
    (h : ¬validAddr s.cfg op a = true) : validateAddr (accept op a d s) = (accept op a d s).finish .invalidAddress :=
  if_neg h

/-- Settles O7: the address is valid (`validAddr_erase_iff`), so the acceptance goes on to `CHK_BUSY`. -/
theorem erasePageAcceptsAPageOfTheArray : Obligations.ErasePageAcceptsAPageOfTheArray := by
  intro a d s haligned hlow hhigh
  have hvalid := (validAddr_erase_iff s.cfg a).mpr ⟨haligned, hlow, hhigh⟩
  exact congrArg Host.Outcome.next (validateAddr_accept_valid d hvalid)

/-- Settles O8: the address is valid (`validAddr_program_iff`), so the acceptance goes on to `CHK_BUSY`. -/
theorem programWordAcceptsAWordOfTheArray : Obligations.ProgramWordAcceptsAWordOfTheArray := by
  intro a v s haligned hlow hhigh
  have hvalid := (validAddr_program_iff s.cfg a).mpr ⟨haligned, hlow, hhigh⟩
  exact congrArg Host.Outcome.next (validateAddr_accept_valid v hvalid)

/-- Settles O9: the address is not valid, so the acceptance ends at once (`validateAddr_accept_invalid`). -/
theorem otherAddressesEndInInvalidAddress : Obligations.OtherAddressesEndInInvalidAddress := by
  refine fun a d s => ⟨fun h => ?_, fun h => ?_⟩
  · have hinvalid := mt (validAddr_erase_iff s.cfg a).mp h
    exact congrArg Host.Outcome.next (validateAddr_accept_invalid d hinvalid)
  · have hinvalid := mt (validAddr_program_iff s.cfg a).mp h
    exact congrArg Host.Outcome.next (validateAddr_accept_invalid d hinvalid)

/-! ### Frames -/

/-- The frame decoder reads exactly the legal frames (30_encoding R103, 40_entry_unlock R132). -/
theorem decodeFrame_ok_iff (f : Frame) : (∃ i, decodeFrame f = .ok i) ↔ legalCmd f.cmd = true := by
  simp only [decodeFrame, legalCmd, Bool.and_eq_true, Bool.or_eq_true, beq_iff_eq]
  split_ifs <;> simp [*]

/-- `CMD[31:2]` and `CMD[1:0]` as numbers (30_encoding R101). -/
theorem legalCmd_iff (cmd : Word) :
    legalCmd cmd = true ↔ cmd.toNat / 4 = 0 ∧ (cmd.toNat % 4 = 1 ∨ cmd.toNat % 4 = 2) := by
  have hres : (cmdRes cmd).toNat = cmd.toNat / 4 := by
    have := cmd.isLt
    simp only [cmdRes, BitVec.extractLsb'_toNat, Nat.shiftRight_eq_div_pow]
    omega
  have hop : (cmdOp cmd).toNat = cmd.toNat % 4 := by
    simp [cmdOp, BitVec.extractLsb'_toNat]
  simp [legalCmd, ← BitVec.toNat_inj, hres, hop, opErase, opProgram]

/-- A legal frame runs its command (40_entry_unlock R131). -/
theorem acceptFrame_legal {s : State} {i : Instr} (h : decodeFrame (portFrame s) = .ok i) :
    acceptFrame s = exec i s := by
  simp [acceptFrame, h]

/-- An illegal frame ends in `InvalidCommand` (40_entry_unlock R132). -/
theorem acceptFrame_illegal {s : State} (h : ¬legalCmd s.port.cmd = true) :
    acceptFrame s = .next (acceptIllegal (portFrame s) s) := by
  cases hdecode : decodeFrame (portFrame s) with
  | ok i => exact absurd ((decodeFrame_ok_iff (portFrame s)).mp ⟨i, hdecode⟩) h
  | error e => simp [acceptFrame, hdecode]

/-- A command with a valid address is accepted with the opcode it names, and goes on to `CHK_BUSY`
(40_entry_unlock R131). -/
theorem acceptFrame_valid {s : State}
    (h : (s.port.cmd = 0x1#32 ∧ validAddr s.cfg opErase s.port.addr = true) ∨
      (s.port.cmd = 0x2#32 ∧ validAddr s.cfg opProgram s.port.addr = true)) :
    ∃ op, (op = opErase ∨ op = opProgram) ∧
      acceptFrame s = .next ((accept op s.port.addr s.port.data s).goto .chkBusy) := by
  obtain ⟨hcmd, hvalid⟩ | ⟨hcmd, hvalid⟩ := h
  · have hdecode : decodeFrame (portFrame s) = .ok (.erasePage s.port.addr s.port.data) := by
      rw [portFrame, hcmd]
      exact decodeFrame_erase _ _
    exact ⟨opErase, .inl rfl,
      (acceptFrame_legal hdecode).trans (congrArg _ (validateAddr_accept_valid _ hvalid))⟩
  · have hdecode : decodeFrame (portFrame s) = .ok (.programWord s.port.addr s.port.data) := by
      rw [portFrame, hcmd]
      exact decodeFrame_program _ _
    exact ⟨opProgram, .inr rfl,
      (acceptFrame_legal hdecode).trans (congrArg _ (validateAddr_accept_valid _ hvalid))⟩

/-- The step of `IDLE` with a command pending is its acceptance (40_entry_unlock R131). -/
theorem step_pending {s : State} (hnext : sequencerIsNext s = true) (hst : s.fcs.st = Fsm.idle.code)
    (hpending : s.port.cmdPending = true) : step s = acceptFrame s.taken :=
  (step_idle hnext hst).trans (if_pos hpending)

/-- Settles O10: the decoder reads the legal frames (`decodeFrame_ok_iff`), which `legalCmd_iff` describes, and any other
frame is accepted as an illegal one. -/
theorem illegalFramesEndInInvalidCommand : Obligations.IllegalFramesEndInInvalidCommand := by
  refine ⟨fun f => (decodeFrame_ok_iff f).trans (legalCmd_iff f.cmd), fun s hnext hst hpending hcmd => ?_⟩
  have hillegal : ¬legalCmd s.port.cmd = true := by
    rw [legalCmd_iff]
    omega
  exact (step_pending hnext hst hpending).trans (acceptFrame_illegal (s := s.taken) hillegal)

end Sys2Proof.Machine
end

section
/-! The steps from `CHK_BUSY` to `SCRUB` (40_entry_unlock R135 to R144). -/

namespace Sys2Proof.Machine

/-! ### Transitions -/

/-- `CHK_BUSY` with `BSY = 1` (40_entry_unlock R135). -/
theorem advance_chkBusy_busy {s : State} (h : s.flash.bsy = true) :
    advance .chkBusy (s.setBusData (srWord s.flash)) = (s.setBusData (srWord s.flash)).finish .busy := by
  simp [advance, h]

/-- `CHK_BUSY` with `BSY = 0` (40_entry_unlock R135). -/
theorem advance_chkBusy_free {s : State} (h : s.flash.bsy = false) :
    advance .chkBusy (s.setBusData (srWord s.flash)) = (s.setBusData (srWord s.flash)).goto .chkLock := by
  simp [advance, h]

/-- `CHK_LOCK` with `LOCK = 1` (40_entry_unlock R137). -/
theorem advance_chkLock_locked {s : State} (h : s.flash.key ≠ .unlocked) :
    advance .chkLock (s.setBusData (crWord s.flash)) = (s.setBusData (crWord s.flash)).goto .key1 := by
  simp [advance, lockOf_eq_decide, h]

/-- `RECHK_LOCK` with `LOCK = 1` (40_entry_unlock R141). -/
theorem advance_rechkLock_locked {s : State} (h : s.flash.key ≠ .unlocked) :
    advance .rechkLock (s.setBusData (crWord s.flash)) = (s.setBusData (crWord s.flash)).finish .unlockFailed := by
  simp [advance, lockOf_eq_decide, h]

/-- Both lock checks with `LOCK = 0` (40_entry_unlock R137, R141). -/
theorem advance_lockCheck_open {q : Fsm} {s : State} (hq : q = .chkLock ∨ q = .rechkLock)
    (h : s.flash.key = .unlocked) : advance q (s.setBusData (crWord s.flash)) =
      (s.setBusData (crWord s.flash)).setFcs
        { s.fcs with st := if s.fcs.stale = true then Fsm.scrub.code else Fsm.setEn.code } := by
  have hlock : crLock (crWord s.flash) = false := by simp [lockOf_eq_decide, h]
  obtain rfl | rfl := hq <;> cases hstale : s.fcs.stale <;> simp [advance, hlock, afterUnlocked, hstale, State.goto]

/-- While locked out a key write that is ignored changes nothing (44_regif_actions R238). -/
theorem keyWrite_lockedOut_ignored {s : State} (k : Word) (hkey : s.flash.key = .lockedOut)
    (hignored : s.cfg.keyrLockoutWrite = .ignored) : keyWrite k s = .next s := by
  simp [keyWrite, hkey, hignored]

/-! ### Steps -/

/-- The action of a command's state, from its row of the table where that does not depend on the opcode
(43_poll_classify R201). -/
theorem busAction_of_command {c : Config} {f : Fcs} {i : Instr} (q : Fsm) (hop : f.cOp = opErase ∨ f.cOp = opProgram)
    (hrow : pairReachable c q f.cOp = true → busAction c f q = some i)
    (hq : q ≠ .start ∧ q ≠ .payload := by decide) : busAction c f q = some i :=
  hrow (pairReachable_of_command hop hq.1 hq.2)

/-- Settles O26: the transition after `RD_SR`, by the `BSY` it read. -/
theorem chkBusyRefusesABusyPeripheral : Obligations.ChkBusyRefusesABusyPeripheral := by
  intro s hnext hst hop
  have hstep := step_of_exec (q := .chkBusy) hnext hst (busAction_of_command _ hop fun h => if_pos h) rfl
  exact ⟨fun hbsy => hstep.trans (congrArg _ (advance_chkBusy_busy (s := s.taken) hbsy)),
    fun hbsy => hstep.trans (congrArg _ (advance_chkBusy_free (s := s.taken) hbsy))⟩

/-- Settles O27: the transitions after `RD_CR`, by the `LOCK` it read. -/
theorem lockChecksBranchOnLockAndStale : Obligations.LockChecksBranchOnLockAndStale := by
  intro s hnext hop
  have hstep {q : Fsm} (hq : q = .chkLock ∨ q = .rechkLock) (hst : s.fcs.st = q.code) :
      step s = .next (advance q (s.taken.setBusData (crWord s.taken.flash))) := by
    obtain rfl | rfl := hq
    · exact step_of_exec hnext hst (busAction_of_command _ hop fun h => if_pos h) rfl
    · exact step_of_exec hnext hst (busAction_of_command _ hop fun h => if_pos h) rfl
  refine ⟨fun hst hkey => ?_, fun hst hkey => ?_, fun hst hkey => ?_⟩
  · exact (hstep (.inl rfl) hst).trans (congrArg _ (advance_chkLock_locked (s := s.taken) hkey))
  · exact (hstep (.inr rfl) hst).trans (congrArg _ (advance_rechkLock_locked (s := s.taken) hkey))
  · have hopen {q : Fsm} (hq : q = .chkLock ∨ q = .rechkLock) (hcode : s.fcs.st = q.code) :=
      (hstep hq hcode).trans (congrArg _ (advance_lockCheck_open (s := s.taken) hq hkey))
    exact hst.elim (hopen (q := .chkLock) (.inl rfl)) (hopen (q := .rechkLock) (.inr rfl))

/-- Settles O28: each write as its rule has it in that key state, and a transition that tests nothing. -/
theorem handshakeAndScrubSteps : Obligations.HandshakeAndScrubSteps := by
  intro s hnext hop
  refine ⟨fun hst hkey => ?_, fun hst hkey => ?_, fun hst => ?_⟩
  · have hwrite : keyWrite Config.key1 s.taken = .next (s.taken.setFlash { s.flash with key := .key1Seen }) := by
      simp [keyWrite, State.taken, hkey, handshakeKey]
    exact step_of_exec (q := .key1) hnext hst (busAction_of_command _ hop fun h => if_pos h) hwrite
  · have hwrite : keyWrite Config.key2 s.taken = .next (s.taken.setFlash { s.flash with key := .unlocked }) := by
      simp [keyWrite, State.taken, hkey, handshakeKey]
    exact step_of_exec (q := .key2) hnext hst (busAction_of_command _ hop fun h => if_pos h) hwrite
  · have hclear : w1cSr 0x30#32 s.flash = { s.flash with eop := false, wrprterr := false } := by
      simp [w1cSr]
    have hexec : exec .w1cSrBoth s.taken = .next (s.taken.setFlash { s.flash with eop := false, wrprterr := false }) :=
      congrArg (fun f => Host.Outcome.next (s.taken.setFlash f)) hclear
    exact step_of_exec (q := .scrub) hnext hst (busAction_of_command _ hop fun h => if_pos h) hexec

/-! ### The key port -/

/-- Only `KEY1` and `KEY2` write the key port (43_poll_classify R201). -/
theorem state_of_keyWrite {c : Config} {f : Fcs} {q : Fsm} {i : Instr} (h : busAction c f q = some i)
    (hi : i = .wrKeyrKey1 ∨ i = .wrKeyrKey2) : q = .key1 ∨ q = .key2 := by
  simp only [busAction] at h
  split at h
  · cases q with
    | key1 => exact .inl rfl
    | key2 => exact .inr rfl
    | setEn | clrEop | clrEn => obtain rfl | rfl := hi <;> dsimp only at h <;> split at h <;> cases h
    | _ => obtain rfl | rfl := hi <;> cases h
  · cases h

/-- In `KEY1` and `KEY2` `LOCK` is 1 (40_entry_unlock R138). -/
theorem InvAt.locked_of_keyState {q : Fsm} {s : State} (h : InvAt q s) (hq : q = .key1 ∨ q = .key2) :
    s.flash.key ≠ .unlocked := by
  obtain hq | hq := hq
  · exact h.lockedAtKey1 hq
  · obtain hkey | hkey := h.afterKey1 hq <;> simp [hkey]

/-- Settles O59: the run stays in the invariant, and a key is written in `KEY1` and `KEY2` only. -/
theorem keyPortIsWrittenOnlyWhenLocked : Obligations.KeyPortIsWrittenOnlyWhenLocked := by
  intro k s t hs hrun
  obtain ⟨q, hst, hinv⟩ := steps_keep_inv hs hrun
  rw [issuedAction_at hst]
  exact ⟨fun h => hinv.locked_of_keyState (state_of_keyWrite h (.inl rfl)),
    fun h => hinv.locked_of_keyState (state_of_keyWrite h (.inr rfl))⟩

end Sys2Proof.Machine
end

section
/-! Whole commands that end before they change the environment (40_entry_unlock R136, R142), as runs with their traces. -/

namespace Sys2Proof.Machine

/-! ### Runs with their traces -/

/-- `k` steps lead from `s` to `t` and issue the bus actions `l`, in order. -/
def RunsTo (k : Nat) (s : State) (l : List Instr) (t : State) : Prop := steps k s = .next t ∧ trace k s = l

/-- The empty run. -/
theorem RunsTo.refl (s : State) : RunsTo 0 s [] s := ⟨rfl, rfl⟩

/-- A run of one step more. -/
theorem RunsTo.cons {k : Nat} {s u t : State} {l : List Instr} (hstep : step s = .next u) (hrun : RunsTo k u l t) :
    RunsTo (k + 1) s ((nextAction s).toList ++ l) t :=
  ⟨(steps_succ hstep k).trans hrun.1, by rw [trace_succ hstep, hrun.2]⟩

/-- The sequencer has the machine to itself: it is powered up, and no move of another agent is scheduled. Updates of other
fields leave this as it is by definition, so that in a run of the sequencer the proof for the first state serves for all. -/
def Alone (s : State) : Prop := s.poweredUp = true ∧ s.moves = []

/-- Where no move is scheduled the next step is the sequencer's. -/
theorem Alone.sequencerIsNext {s : State} (h : Alone s) : sequencerIsNext s = true := by
  simp [Machine.sequencerIsNext, h.1, h.2]

/-- Where no move is scheduled none is taken off the schedule. -/
theorem Alone.taken {s : State} (h : Alone s) : s.taken = s := by
  obtain ⟨-, hmoves⟩ := h
  cases s
  cases hmoves
  rfl

/-- The next action is the one issued in the state that `st` names. -/
theorem Alone.nextAction {s : State} {q : Fsm} (h : Alone s) (hst : s.fcs.st = q.code) :
    nextAction s = busAction s.cfg s.fcs q :=
  (if_pos h.sequencerIsNext).trans (issuedAction_at hst)

/-- A run whose first step is a bus action `i` and the transition to `v` after it. -/
theorem RunsTo.bus {k : Nat} {s u v t : State} {l : List Instr} {q : Fsm} {i : Instr} (hs : Alone s)
    (hst : s.fcs.st = q.code) (hi : busAction s.cfg s.fcs q = some i) (hexec : exec i s = .next u)
    (hadvance : advance q u = v) (hrun : RunsTo k v l t) : RunsTo (k + 1) s (i :: l) t := by
  have hstep : step s = .next (advance q u) := step_of_exec hs.sequencerIsNext hst hi (hs.taken.symm ▸ hexec)
  have h := RunsTo.cons (hadvance ▸ hstep) hrun
  rwa [hs.nextAction hst, hi] at h

/-- A run whose first step issues no bus action. -/
theorem RunsTo.silent {k : Nat} {s u t : State} {l : List Instr} {q : Fsm} (hs : Alone s) (hst : s.fcs.st = q.code)
    (hi : busAction s.cfg s.fcs q = none) (hstep : step s = .next u) (hrun : RunsTo k u l t) : RunsTo (k + 1) s l t := by
  have h := RunsTo.cons hstep hrun
  rwa [hs.nextAction hst, hi] at h

/-- The step of `RESPOND` (43_poll_classify R216). -/
theorem RunsTo.respond {s : State} (hs : Alone s) (hst : s.fcs.st = Fsm.respond.code) :
    RunsTo 1 s [] (Machine.respond s) := by
  have hstep : step s = .next (Machine.respond s) := by
    rw [step_sequencer hs.sequencerIsNext, hs.taken, sequencerStep_at hst]
    rfl
  exact .silent hs hst rfl hstep (.refl _)

/-- An outcome that no completion was classified for is posted with `WRP = 0` (43_poll_classify R216). -/
theorem respond_rsp_unclassified {s : State} {o : CmdOutcome} (hout : s.fcs.out = o) (ho : o.classified = false) :
    (respond s).port.rsp = rspWord false o := by
  simp [Machine.respond, rspWrp, hout, ho]

/-- A run whose first step accepts a valid command. -/
theorem RunsTo.accept {k : Nat} {s t : State} {l : List Instr} {op : BitVec 2} (hs : Alone s)
    (hst : s.fcs.st = Fsm.idle.code) (hpending : s.port.cmdPending = true)
    (haccept : acceptFrame s = .next ((Machine.accept op s.port.addr s.port.data s).goto .chkBusy))
    (hrun : RunsTo k ((Machine.accept op s.port.addr s.port.data s).goto .chkBusy) l t) : RunsTo (k + 1) s l t := by
  have hstep := step_pending hs.sequencerIsNext hst hpending
  rw [hs.taken, haccept] at hstep
  exact .silent hs hst rfl hstep hrun

/-! ### The two commands that end in the entry -/

/-- Settles O57: the run is the acceptance, the busy check and the response, none of which writes the environment. -/
theorem busyCommandTouchesNothing : Obligations.BusyCommandTouchesNothing := by
  intro s hpowered hmoves hst hpending hbsy hcmd
  have hs : Alone s := ⟨hpowered, hmoves⟩
  obtain ⟨op, hop, haccept⟩ := acceptFrame_valid hcmd
  have hrun : RunsTo 3 s [.rdSr] _ :=
    .accept hs hst hpending haccept <|
    .bus hs rfl (busAction_of_command .chkBusy hop fun h => if_pos h) rfl (advance_chkBusy_busy hbsy) <|
    .respond hs rfl
  exact ⟨_, hrun.1, hrun.2, rfl, respond_rsp_unclassified (o := .busy) rfl rfl, rfl, rfl⟩

/-- Settles O58: the run is the acceptance, the two checks, the two key writes, which are ignored
(`keyWrite_lockedOut_ignored`), the second lock check and the response. -/
theorem lockedOutCommandFailsToUnlock : Obligations.LockedOutCommandFailsToUnlock := by
  intro s hpowered hmoves hst hpending hbsy hkey hignored hcmd
  have hs : Alone s := ⟨hpowered, hmoves⟩
  have hlocked : s.flash.key ≠ .unlocked := by simp [hkey]
  obtain ⟨op, hop, haccept⟩ := acceptFrame_valid hcmd
  have hrun : RunsTo 7 s [.rdSr, .rdCr, .wrKeyrKey1, .wrKeyrKey2, .rdCr] _ :=
    .accept hs hst hpending haccept <|
    .bus hs rfl (busAction_of_command .chkBusy hop fun h => if_pos h) rfl (advance_chkBusy_free hbsy) <|
    .bus hs rfl (busAction_of_command .chkLock hop fun h => if_pos h) rfl (advance_chkLock_locked hlocked) <|
    .bus hs rfl (busAction_of_command .key1 hop fun h => if_pos h) (keyWrite_lockedOut_ignored _ hkey hignored) rfl <|
    .bus hs rfl (busAction_of_command .key2 hop fun h => if_pos h) (keyWrite_lockedOut_ignored _ hkey hignored) rfl <|
    .bus hs rfl (busAction_of_command .rechkLock hop fun h => if_pos h) rfl (advance_rechkLock_locked hlocked) <|
    .respond hs rfl
  exact ⟨_, hrun.1, hrun.2, rfl, respond_rsp_unclassified (o := .unlockFailed) rfl rfl, rfl, rfl⟩

end Sys2Proof.Machine
end

section
/-! The steps from `SET_EN` to the points of no return (41_erase_page R161 to R163, 42_program_word R181 to R184). -/

namespace Sys2Proof.Machine

/-! ### Actions -/

/-- While unlocked `SET_PER` sets `PER` (44_regif_actions R241). -/
theorem exec_setPer_unlocked {s : State} (hkey : s.flash.key = .unlocked) :
    exec .setPer s = .next (s.setFlash { s.flash with cr := { s.flash.cr with per := true } }) :=
  congrArg (fun f => Host.Outcome.next (s.setFlash f)) (modifyCr_unlocked _ hkey)

/-- While unlocked `SET_PG` sets `PG` (44_regif_actions R241). -/
theorem exec_setPg_unlocked {s : State} (hkey : s.flash.key = .unlocked) :
    exec .setPg s = .next (s.setFlash { s.flash with cr := { s.flash.cr with pg := true } }) :=
  congrArg (fun f => Host.Outcome.next (s.setFlash f)) (modifyCr_unlocked _ hkey)

/-- While unlocked `WR_AR` latches its address (44_regif_actions R243). -/
theorem exec_wrAr_unlocked {s : State} (a : Word) (hkey : s.flash.key = .unlocked) :
    exec (.wrAr a) s = .next (s.setFlash { s.flash with ar := a }) :=
  congrArg (fun f => Host.Outcome.next (s.setFlash f)) (by simp [latchAr, lockOf, hkey])

/-- `SET_STRT` starts the erase of the page that holds `AR` (44_regif_actions R242). -/
theorem exec_setStrt_starts {s : State} (hkey : s.flash.key = .unlocked) (hper : s.flash.cr.per = true)
    (hpg : s.flash.cr.pg = false) (hbsy : s.flash.bsy = false) (har : inArray s.cfg s.flash.ar.toNat = true) :
    exec .setStrt s = .next (s.setFlash { s.flash with
      cr := { s.flash.cr with strt := true }, inflight := .erase (pageOf s.cfg s.flash.ar.toNat), bsy := true }) :=
  congrArg (fun f => Host.Outcome.next (s.setFlash f)) (setStrtFlash_starts hkey hper hpg hbsy har)

/-- Without `PER` `SET_STRT` sets `STRT` only (44_regif_actions R242). -/
theorem exec_setStrt_without_per {s : State} (hkey : s.flash.key = .unlocked) (hper : s.flash.cr.per = false) :
    exec .setStrt s = .next (s.setFlash { s.flash with cr := { s.flash.cr with strt := true } }) :=
  congrArg (fun f => Host.Outcome.next (s.setFlash f)) (setStrtFlash_without_per hkey hper)

/-- `WR_MEM32` starts the program of a word of the array (44_regif_actions R245). -/
theorem exec_wrMem32_starts {s : State} {a : Word} (v : Word) (hvalid : validAddr s.cfg opProgram a = true)
    (hkey : s.flash.key = .unlocked) (hpg : s.flash.cr.pg = true) (hper : s.flash.cr.per = false)
    (hbsy : s.flash.bsy = false) :
    exec (.wrMem32 a v) s = .next (s.setFlash { s.flash with inflight := .program a v, bsy := true }) := by
  obtain ⟨haligned, hlow, hhigh⟩ := (validAddr_program_iff s.cfg a).mp hvalid
  have hinside : s.cfg.contains a.toNat 4 = true := by
    simp only [Config.contains, Bool.and_eq_true, decide_eq_true_eq]
    exact ⟨hlow, hhigh⟩
  exact arrayWrite_admitted haligned hinside (by simp [programAdmitted, lockOf, hkey, hpg, hper, hbsy])

/-! ### Rows of the table that depend on the opcode (43_poll_classify R201) -/

theorem busAction_setEn_erase {c : Config} {f : Fcs} (hop : f.cOp = opErase) : busAction c f .setEn = some .setPer := by
  simp [busAction, pairReachable, hop]

theorem busAction_setEn_program {c : Config} {f : Fcs} (hop : f.cOp = opProgram) :
    busAction c f .setEn = some .setPg := by
  simp [busAction, pairReachable, hop, opErase, opProgram]

theorem busAction_start_erase {c : Config} {f : Fcs} (hop : f.cOp = opErase) :
    busAction c f .start = some .setStrt := by
  simp [busAction, pairReachable, hop]

theorem busAction_start_program {c : Config} {f : Fcs} (hop : f.cOp = opProgram) (hstrt : c.programStrt = true) :
    busAction c f .start = some .setStrt := by
  simp [busAction, pairReachable, hop, hstrt]

theorem busAction_payload {c : Config} {f : Fcs} (hop : f.cOp = opProgram) :
    busAction c f .payload = some (.wrMem32 f.cAddr f.cData) := by
  simp [busAction, pairReachable, hop]

/-! ### Transitions -/

/-- `LATCH_ADDR` of an erase goes to `START` (41_erase_page R162). -/
theorem advance_latchAddr_erase {s : State} (hop : s.fcs.cOp = opErase) : advance .latchAddr s = s.goto .start :=
  if_pos hop

/-- `LATCH_ADDR` of a program goes to `PAYLOAD` (42_program_word R182). -/
theorem advance_latchAddr_program {s : State} (hop : s.fcs.cOp = opProgram) :
    advance .latchAddr s = s.goto .payload :=
  if_neg (by simp [hop, opErase, opProgram])

/-- `PAYLOAD` goes to `START` with `PROGRAM_STRT`, else it enters `POLL` (42_program_word R183). -/
theorem advance_payload (s : State) : advance .payload s =
    s.setFcs (if s.cfg.programStrt = true then { s.fcs with st := Fsm.start.code }
      else { s.fcs with st := Fsm.poll.code, n := 0 }) := by
  simp only [advance, enterPoll, State.goto]
  split <;> rfl

/-! ### Steps -/

/-- Settles O29: each action as its rule has it while unlocked, and a transition that the opcode alone decides. -/
theorem enableAndLatchSteps : Obligations.EnableAndLatchSteps := by
  intro s hnext hkey
  refine ⟨fun hst hop => ?_, fun hst hop => ?_, fun hst hop => ?_, fun hst hop => ?_⟩
  · exact step_of_exec (q := .setEn) hnext hst (busAction_setEn_erase hop) (exec_setPer_unlocked (s := s.taken) hkey)
  · exact step_of_exec (q := .setEn) hnext hst (busAction_setEn_program hop) (exec_setPg_unlocked (s := s.taken) hkey)
  · have hstep := step_of_exec (q := .latchAddr) hnext hst (busAction_of_command _ (.inl hop) fun h => if_pos h)
      (exec_wrAr_unlocked (s := s.taken) _ hkey)
    exact hstep.trans (congrArg _ (advance_latchAddr_erase hop))
  · have hstep := step_of_exec (q := .latchAddr) hnext hst (busAction_of_command _ (.inr hop) fun h => if_pos h)
      (exec_wrAr_unlocked (s := s.taken) _ hkey)
    exact hstep.trans (congrArg _ (advance_latchAddr_program hop))

/-- Settles O30: the start trigger and the payload write start what their rules say, and `POLL` is entered with `n = 0`. -/
theorem startAndPayloadSteps : Obligations.StartAndPayloadSteps := by
  intro s hnext hkey
  refine ⟨fun hst hop hper hpg hbsy hlow hhigh => ?_, fun hst hop hstrt hper => ?_,
    fun hst hop hpg hper hbsy haligned hlow hhigh => ?_⟩
  · have har : inArray s.cfg s.flash.ar.toNat = true := by
      simp only [inArray, Bool.and_eq_true, decide_eq_true_eq]
      exact ⟨hlow, hhigh⟩
    exact step_of_exec (q := .start) hnext hst (busAction_start_erase hop)
      (exec_setStrt_starts (s := s.taken) hkey hper hpg hbsy har)
  · exact step_of_exec (q := .start) hnext hst (busAction_start_program hop hstrt)
      (exec_setStrt_without_per (s := s.taken) hkey hper)
  · have hvalid := (validAddr_program_iff s.cfg s.fcs.cAddr).mpr ⟨haligned, hlow, hhigh⟩
    have hstep := step_of_exec (q := .payload) hnext hst (busAction_payload hop)
      (exec_wrMem32_starts (s := s.taken) _ hvalid hkey hpg hper hbsy)
    exact hstep.trans (congrArg _ (advance_payload _))

end Sys2Proof.Machine
end

section
/-! Runs in parts, and runs of the sequencer under a schedule: the sequencer does not read the schedule, so it runs under one
that gives it the next moves as it runs alone. -/

namespace Sys2Proof.Machine

/-! ### Runs in parts -/

/-- The first step of a run. -/
theorem RunsTo.uncons {k : Nat} {s t : State} {l : List Instr} (h : RunsTo (k + 1) s l t) :
    ∃ u m, step s = .next u ∧ l = (nextAction s).toList ++ m ∧ RunsTo k u m t := by
  obtain ⟨hsteps, htrace⟩ := h
  cases hstep : step s with
  | next u => exact ⟨u, trace k u, rfl, htrace.symm.trans (trace_succ hstep k), (steps_succ hstep k).symm.trans hsteps, rfl⟩
  | fault r => simp [steps, hstep] at hsteps
  | refused r => simp [steps, hstep] at hsteps

/-- A run of no step. -/
theorem RunsTo.of_zero {s t : State} {l : List Instr} (h : RunsTo 0 s l t) : l = [] ∧ t = s := by
  obtain ⟨hsteps, htrace⟩ := h
  cases hsteps
  exact ⟨htrace.symm, rfl⟩

/-- A run and a run from where it leads. -/
theorem RunsTo.append {j k : Nat} {s u t : State} {l m : List Instr} (h : RunsTo j s l u) (h' : RunsTo k u m t) :
    RunsTo (j + k) s (l ++ m) t := by
  induction j generalizing s l with
  | zero =>
    obtain ⟨rfl, rfl⟩ := h.of_zero
    rwa [Nat.zero_add]
  | succ j ih =>
    obtain ⟨v, n, hstep, rfl, hrest⟩ := h.uncons
    rw [Nat.succ_add, List.append_assoc]
    exact .cons hstep (ih hrest)

/-- The next steps issue the bus actions `l`, one in each step, and lead from `s` to `t`. -/
def Issues (s : State) (l : List Instr) (t : State) : Prop := RunsTo l.length s l t

/-- No action is issued in no step. -/
theorem Issues.refl (s : State) : Issues s [] s := RunsTo.refl s

/-- Actions and the actions after them. -/
theorem Issues.append {s u t : State} {l m : List Instr} (h : Issues s l u) (h' : Issues u m t) :
    Issues s (l ++ m) t := by
  unfold Issues
  rw [List.length_append]
  exact RunsTo.append h h'

/-- A bus state's step issues its action. -/
theorem Issues.bus {s u v : State} {q : Fsm} {i : Instr} (hs : Alone s) (hst : s.fcs.st = q.code)
    (hi : busAction s.cfg s.fcs q = some i) (hexec : exec i s = .next u) (hadvance : advance q u = v) : Issues s [i] v :=
  RunsTo.bus hs hst hi hexec hadvance (.refl _)

/-! ### The schedule -/

/-- No instruction reads the schedule. -/
theorem exec_setMoves {i : Instr} {s t : State} (ms : List Move) (h : exec i s = .next t) :
    exec i (s.setMoves ms) = .next (t.setMoves ms) := by
  have hvalidate (u : State) : validateAddr (u.setMoves ms) = (validateAddr u).setMoves ms := by
    simp only [validateAddr, apply_ite (State.setMoves · ms)]
    rfl
  have hkeyWrite {k : Word} (hk : keyWrite k s = .next t) : keyWrite k (s.setMoves ms) = .next (t.setMoves ms) := by
    simp only [keyWrite, State.setMoves_flash, State.setMoves_cfg] at hk ⊢
    split at hk
    · cases hk; rfl
    · cases hk; rfl
    · cases hk; rfl
    · split at hk <;> cases hk
      rfl
  cases i with
  | erasePage a d => cases h; exact congrArg _ (hvalidate (accept opErase a d s))
  | programWord a v => cases h; exact congrArg _ (hvalidate (accept opProgram a v s))
  | wrKeyrKey1 => exact hkeyWrite h
  | wrKeyrKey2 => exact hkeyWrite h
  | wrMem32 a v =>
    obtain ⟨halign, hinside, hadmitted, rfl⟩ := arrayWrite_next h
    exact arrayWrite_admitted (s := s.setMoves ms) halign hinside hadmitted
  | _ => cases h; rfl

/-- No transition reads the schedule. -/
theorem advance_setMoves (q : Fsm) (s : State) (ms : List Move) :
    advance q (s.setMoves ms) = (advance q s).setMoves ms := by
  cases q <;> simp only [advance, afterUnlocked, enterPoll, pollNext, timeOut, classify,
    apply_ite (State.setMoves · ms)] <;> rfl

/-- Acceptance does not read the schedule. -/
theorem acceptFrame_setMoves {s t : State} (ms : List Move) (h : acceptFrame s = .next t) :
    acceptFrame (s.setMoves ms) = .next (t.setMoves ms) := by
  by_cases hlegal : legalCmd s.port.cmd = true
  · obtain ⟨i, hdecode⟩ := (decodeFrame_ok_iff (portFrame s)).mpr hlegal
    rw [acceptFrame_legal hdecode] at h
    exact (acceptFrame_legal (s := s.setMoves ms) hdecode).trans (exec_setMoves ms h)
  · rw [acceptFrame_illegal hlegal] at h
    cases h
    exact acceptFrame_illegal (s := s.setMoves ms) hlegal

/-- The sequencer does not read the schedule. -/
theorem sequencerStep_setMoves {s t : State} (ms : List Move) (h : sequencerStep s = .next t) :
    sequencerStep (s.setMoves ms) = .next (t.setMoves ms) := by
  unfold sequencerStep at h
  split at h
  · rename_i q hq
    rw [sequencerStep_at (s := s.setMoves ms) (Fsm.code_of_ofCode hq)]
    by_cases hidle : q = .idle
    · subst hidle
      simp only [stepIn, idleStep] at h
      split at h
      · rename_i hpending
        exact (if_pos hpending).trans (acceptFrame_setMoves ms h)
      · rename_i hfree
        cases h
        exact if_neg hfree
    by_cases hrespond : q = .respond
    · subst hrespond
      cases h
      rfl
    rw [stepIn_bus hidle hrespond] at h ⊢
    obtain ⟨i, u, hi, hu, rfl⟩ := busStep_next h
    rw [← advance_setMoves]
    exact busStep_of_exec (s := s.setMoves ms) hi (exec_setMoves ms hu)
  · cases h

/-- The sequencer stays alone in its own step. -/
theorem Alone.of_step {s t : State} (hs : Alone s) (h : step s = .next t) : Alone t := by
  obtain ⟨hpowered, hmoves⟩ := hs
  exact ⟨(step_keeps h).2, by rw [step_moves hpowered h, hmoves, List.tail_nil]⟩

/-- The sequencer stays alone in its own run. -/
theorem Alone.of_run {k : Nat} {s t : State} {l : List Instr} (hs : Alone s) (h : RunsTo k s l t) : Alone t :=
  steps_induction (fun _ _ hs hstep => hs.of_step hstep) hs h.1

/-- The sequencer runs under a schedule that gives it the next moves as it runs alone. -/
theorem RunsTo.scheduled {k : Nat} {s t : State} {l : List Instr} (hs : Alone s) (h : RunsTo k s l t) (rest : List Move) :
    RunsTo k (s.setMoves (sequencerRun k ++ rest)) l (t.setMoves rest) := by
  induction k generalizing s l with
  | zero =>
    obtain ⟨rfl, rfl⟩ := h.of_zero
    exact .refl _
  | succ k ih =>
    obtain ⟨u, m, hstep, rfl, hrest⟩ := h.uncons
    have hnext : sequencerIsNext (s.setMoves (sequencerRun (k + 1) ++ rest)) = true := by
      simp [sequencerIsNext, hs.1, sequencerRun, List.replicate_succ]
    have haction : nextAction (s.setMoves (sequencerRun (k + 1) ++ rest)) = nextAction s :=
      (if_pos hnext).trans (if_pos hs.sequencerIsNext).symm
    have hsequencer : sequencerStep s = .next u := by rwa [step_sequencer hs.sequencerIsNext, hs.taken] at hstep
    rw [← haction]
    have hscheduled : step (s.setMoves (sequencerRun (k + 1) ++ rest)) = .next (u.setMoves (sequencerRun k ++ rest)) :=
      (step_sequencer hnext).trans (sequencerStep_setMoves (s := s) (sequencerRun k ++ rest) hsequencer)
    exact .cons hscheduled (ih (hs.of_step hstep) hrest)

/-- The flash macro does not read the schedule. -/
theorem completionStep_setMoves (s : State) (ms : List Move) :
    completionStep (s.setMoves ms) = (completionStep s).setMoves ms := by
  obtain ⟨howed, e⟩ | ⟨howed, hflight, e⟩ | ⟨p, howed, hflight, e⟩ | ⟨a, v, howed, hflight, e⟩ :=
    completionStep_cases s
  · rw [e]
    exact if_neg howed
  all_goals
    rw [e]
    refine (if_pos howed).trans ?_
    simp only [State.setMoves_flash, hflight] <;> rfl

/-- The step of the flash macro issues no bus action of the sequencer. -/
theorem RunsTo.completion {s : State} (hs : Alone s) (rest : List Move) :
    RunsTo 1 (s.setMoves (.completion :: rest)) [] ((completionStep s).setMoves rest) := by
  have hstep : step (s.setMoves (.completion :: rest)) = .next ((completionStep s).setMoves rest) :=
    (step_scheduled (s := s.setMoves (.completion :: rest)) hs.1 rfl).trans
      (congrArg Host.Outcome.next (completionStep_setMoves s rest))
  have haction : nextAction (s.setMoves (.completion :: rest)) = none := by simp [nextAction, sequencerIsNext]
  have hrun := RunsTo.cons hstep (.refl _)
  rwa [haction] at hrun

end Sys2Proof.Machine
end

section
/-! A command from its acceptance to its response, in parts (43_poll_classify R201): the entry, the start of the operation, the
polls, and what follows the poll that reads `BSY = 0`. -/

namespace Sys2Proof.Machine

/-! ### The entry (40_entry_unlock R131 to R145) -/

/-- An erase of a valid page is accepted (40_entry_unlock R131). -/
theorem acceptFrame_erase {s : State} (hcmd : s.port.cmd = 0x1#32) (hvalid : validAddr s.cfg opErase s.port.addr = true) :
    acceptFrame s = .next ((accept opErase s.port.addr s.port.data s).goto .chkBusy) := by
  have hdecode : decodeFrame (portFrame s) = .ok (.erasePage s.port.addr s.port.data) := by
    rw [portFrame, hcmd, decodeFrame_erase]
  exact (acceptFrame_legal hdecode).trans (congrArg _ (validateAddr_accept_valid _ hvalid))

/-- A program of a valid word is accepted (40_entry_unlock R131). -/
theorem acceptFrame_program {s : State} (hcmd : s.port.cmd = 0x2#32)
    (hvalid : validAddr s.cfg opProgram s.port.addr = true) :
    acceptFrame s = .next ((accept opProgram s.port.addr s.port.data s).goto .chkBusy) := by
  have hdecode : decodeFrame (portFrame s) = .ok (.programWord s.port.addr s.port.data) := by
    rw [portFrame, hcmd, decodeFrame_program]
  exact (acceptFrame_legal hdecode).trans (congrArg _ (validateAddr_accept_valid _ hvalid))

/-- `KEY1` from `Locked` (44_regif_actions R236). -/
theorem exec_wrKeyrKey1_locked {s : State} (hkey : s.flash.key = .locked) :
    exec .wrKeyrKey1 s = .next (s.setFlash { s.flash with key := .key1Seen }) := by
  simp [exec, execWrKeyrKey1, keyWrite, hkey, handshakeKey]

/-- `KEY2` after `KEY1` (44_regif_actions R236). -/
theorem exec_wrKeyrKey2_key1Seen {s : State} (hkey : s.flash.key = .key1Seen) :
    exec .wrKeyrKey2 s = .next (s.setFlash { s.flash with key := .unlocked }) := by
  simp [exec, execWrKeyrKey2, keyWrite, hkey, handshakeKey]

/-- `W1C_SR(0x30)` clears `EOP` and `WRPRTERR` (44_regif_actions R239). -/
theorem exec_w1cSrBoth_clears (s : State) :
    exec .w1cSrBoth s = .next (s.setFlash { s.flash with eop := false, wrprterr := false }) :=
  congrArg (fun f => Host.Outcome.next (s.setFlash f)) (by simp [w1cSr])

/-- The accepted command after the lock check that reads `LOCK = 0`: the scrub is next if an operation was abandoned. -/
def State.checked (op : BitVec 2) (s : State) : State :=
  { s with
    fcs := { s.fcs with
      st := if s.fcs.stale = true then Fsm.scrub.code else Fsm.setEn.code
      cOp := op, cAddr := s.port.addr, cData := s.port.data, n := 0, capEop := false, capWrp := false }
    port := { s.port with cmdPending := false, rspValid := false }
    flash := { s.flash with key := .unlocked }
    busData := crWord { s.flash with key := .unlocked } }

/-- The accepted command at `SET_EN`: the register is open, and what an abandoned operation left is scrubbed. -/
def State.entered (op : BitVec 2) (s : State) : State :=
  { s.checked op with
    fcs := { (s.checked op).fcs with st := Fsm.setEn.code, stale := false }
    flash := { s.flash with
      key := .unlocked, eop := s.flash.eop && !s.fcs.stale, wrprterr := s.flash.wrprterr && !s.fcs.stale } }

/-- The busy check and the lock checks, with the handshake if locked (40_entry_unlock R135 to R141). -/
theorem lockChecks_issue {s : State} {op : BitVec 2} (hs : Alone s) (hop : op = opErase ∨ op = opProgram)
    (hbsy : s.flash.bsy = false) (hkey : s.flash.key = .unlocked ∨ s.flash.key = .locked) :
    Issues ((accept op s.port.addr s.port.data s).goto .chkBusy)
      ([.rdSr, .rdCr] ++ if s.flash.key = .unlocked then [] else [.wrKeyrKey1, .wrKeyrKey2, .rdCr]) (s.checked op) := by
  obtain hkey | hkey := hkey
  · have hflash : { s.flash with key := .unlocked } = s.flash := by rw [← hkey]
    rw [if_pos hkey, State.checked, hflash]
    exact RunsTo.bus (k := 1) hs rfl (busAction_of_command .chkBusy hop fun h => if_pos h) rfl (advance_chkBusy_free hbsy) <|
      .bus hs rfl (busAction_of_command .chkLock hop fun h => if_pos h) rfl
        (advance_lockCheck_open (q := .chkLock) (.inl rfl) hkey) (.refl _)
  · have hlocked : s.flash.key ≠ .unlocked := by simp [hkey]
    rw [if_neg hlocked]
    exact RunsTo.bus (k := 4) hs rfl (busAction_of_command .chkBusy hop fun h => if_pos h) rfl (advance_chkBusy_free hbsy) <|
      .bus hs rfl (busAction_of_command .chkLock hop fun h => if_pos h) rfl (advance_chkLock_locked hlocked) <|
      .bus hs rfl (busAction_of_command .key1 hop fun h => if_pos h) (exec_wrKeyrKey1_locked hkey) rfl <|
      .bus hs rfl (busAction_of_command .key2 hop fun h => if_pos h) (exec_wrKeyrKey2_key1Seen rfl) rfl <|
      .bus hs rfl (busAction_of_command .rechkLock hop fun h => if_pos h) rfl
        (advance_lockCheck_open (q := .rechkLock) (.inr rfl) rfl) (.refl _)

/-- The scrub, if an operation was abandoned (40_entry_unlock R144). -/
theorem scrub_issues {s : State} {op : BitVec 2} (hs : Alone s) (hop : op = opErase ∨ op = opProgram) :
    Issues (s.checked op) (if s.fcs.stale = true then [.w1cSrBoth] else []) (s.entered op) := by
  cases hstale : s.fcs.stale with
  | true =>
    have hst : (s.checked op).fcs.st = Fsm.scrub.code := by simp [State.checked, hstale]
    refine .bus (q := .scrub) hs hst (busAction_of_command .scrub hop fun h => if_pos h) (exec_w1cSrBoth_clears _) ?_
    simp [State.entered, hstale, State.checked, advance, State.goto, State.setFcs, State.setFlash]
  | false =>
    have hentered : s.entered op = s.checked op := by simp [State.entered, State.checked, hstale]
    rw [hentered]
    exact .refl _

/-- The entry of a command that finds the peripheral free and the lock open or openable (40_entry_unlock R145). -/
theorem entry_issues {s : State} {op : BitVec 2} (hs : Alone s) (hop : op = opErase ∨ op = opProgram)
    (hbsy : s.flash.bsy = false) (hkey : s.flash.key = .unlocked ∨ s.flash.key = .locked) :
    Issues ((accept op s.port.addr s.port.data s).goto .chkBusy) (entryTrace s) (s.entered op) :=
  (lockChecks_issue hs hop hbsy hkey).append (scrub_issues hs hop)

/-! ### The start of the operation (41_erase_page R161 to R163, 42_program_word R181 to R184) -/

/-- The command at its first poll, with an operation in flight. -/
def State.started (s : State) (cr : ControlReg) (flight : Inflight) : State :=
  { s with
    fcs := { s.fcs with st := Fsm.poll.code, n := 0 }
    flash := { s.flash with cr := cr, ar := s.fcs.cAddr, inflight := flight, bsy := true } }

/-- An erase from `SET_EN` to its first poll (41_erase_page R167). -/
theorem eraseStart_issues {s : State} (hs : Alone s) (hst : s.fcs.st = Fsm.setEn.code) (hop : s.fcs.cOp = opErase)
    (hkey : s.flash.key = .unlocked) (hbsy : s.flash.bsy = false) (hpg : s.flash.cr.pg = false)
    (hvalid : validAddr s.cfg opErase s.fcs.cAddr = true) :
    Issues s [.setPer, .wrAr s.fcs.cAddr, .setStrt]
      (s.started { s.flash.cr with per := true, strt := true } (.erase (pageOf s.cfg s.fcs.cAddr.toNat))) :=
  RunsTo.bus (k := 2) hs hst (busAction_setEn_erase hop) (exec_setPer_unlocked hkey) rfl <|
    .bus hs rfl (busAction_of_command .latchAddr (.inl hop) fun h => if_pos h) (exec_wrAr_unlocked _ hkey)
      (advance_latchAddr_erase hop) <|
    .bus hs rfl (busAction_start_erase hop) (exec_setStrt_starts hkey rfl hpg hbsy (validAddr_erase hvalid).2) rfl
      (.refl _)

/-- A program from `SET_EN` to its first poll (42_program_word R188). -/
theorem programStart_issues {s : State} (hs : Alone s) (hst : s.fcs.st = Fsm.setEn.code) (hop : s.fcs.cOp = opProgram)
    (hkey : s.flash.key = .unlocked) (hbsy : s.flash.bsy = false) (hper : s.flash.cr.per = false)
    (hvalid : validAddr s.cfg opProgram s.fcs.cAddr = true) :
    ∃ cr, Issues s
      ([.setPg, .wrAr s.fcs.cAddr, .wrMem32 s.fcs.cAddr s.fcs.cData] ++ if s.cfg.programStrt = true then [.setStrt] else [])
      (s.started cr (.program s.fcs.cAddr s.fcs.cData)) := by
  cases hstrt : s.cfg.programStrt with
  | true =>
    exact ⟨_, RunsTo.bus (k := 3) hs hst (busAction_setEn_program hop) (exec_setPg_unlocked hkey) rfl <|
      .bus hs rfl (busAction_of_command .latchAddr (.inr hop) fun h => if_pos h) (exec_wrAr_unlocked _ hkey)
        (advance_latchAddr_program hop) <|
      .bus hs rfl (busAction_payload hop) (exec_wrMem32_starts _ hvalid hkey rfl hper hbsy) (if_pos hstrt) <|
      .bus hs rfl (busAction_start_program hop hstrt) (exec_setStrt_without_per hkey hper) rfl (.refl _)⟩
  | false =>
    exact ⟨_, RunsTo.bus (k := 2) hs hst (busAction_setEn_program hop) (exec_setPg_unlocked hkey) rfl <|
      .bus hs rfl (busAction_of_command .latchAddr (.inr hop) fun h => if_pos h) (exec_wrAr_unlocked _ hkey)
        (advance_latchAddr_program hop) <|
      .bus hs rfl (busAction_payload hop) (exec_wrMem32_starts _ hvalid hkey rfl hper hbsy)
        (if_neg (ne_true_of_eq_false hstrt)) (.refl _)⟩

/-! ### The polls (43_poll_classify R202) -/

/-- A poll that reads `BSY = 1` and is not the last one allowed. -/
theorem advance_poll_busy {s : State} (hbsy : s.flash.bsy = true) (hn : s.fcs.n + 1 ≠ s.cfg.pollLimit) :
    advance .poll (s.setBusData (srWord s.flash)) =
      (s.setBusData (srWord s.flash)).setFcs { s.fcs with st := Fsm.poll.code, n := s.fcs.n + 1 } := by
  simp [advance, pollNext, hbsy, hn, State.goto, State.setFcs, State.setBusData]

/-- A poll that reads `BSY = 0`. -/
theorem advance_poll_free {s : State} (hbsy : s.flash.bsy = false) :
    advance .poll (s.setBusData (srWord s.flash)) =
      (s.setBusData (srWord s.flash)).setFcs { s.fcs with st := Fsm.chkEop.code, n := s.fcs.n + 1 } := by
  simp [advance, pollNext, hbsy, State.goto, State.setFcs, State.setBusData]

/-- The command after `k` more polls, the last of which read the word `w`. -/
def State.polled (s : State) (k : Nat) (w : Word) : State :=
  { s with fcs := { s.fcs with n := s.fcs.n + k }, busData := w }

/-- Polls while the operation is in flight, fewer than are allowed. -/
theorem polls_issue {s : State} {k : Nat} (hs : Alone s) (hst : s.fcs.st = Fsm.poll.code)
    (hop : s.fcs.cOp = opErase ∨ s.fcs.cOp = opProgram) (hbsy : s.flash.bsy = true)
    (hk : s.fcs.n + k < s.cfg.pollLimit) : ∃ w, Issues s (pollTrace k) (s.polled k w) := by
  induction k generalizing s with
  | zero => exact ⟨s.busData, .refl s⟩
  | succ k ih =>
    have hpoll : Issues s [.rdSr] ((s.setBusData (srWord s.flash)).setFcs { s.fcs with n := s.fcs.n + 1 }) := by
      have hadvance := advance_poll_busy hbsy (show s.fcs.n + 1 ≠ s.cfg.pollLimit by omega)
      rw [← hst] at hadvance
      exact .bus hs hst (busAction_of_command .poll hop fun h => if_pos h) rfl hadvance
    obtain ⟨w, hrest⟩ := ih (s := (s.setBusData (srWord s.flash)).setFcs { s.fcs with n := s.fcs.n + 1 }) hs hst hop hbsy
      (by simp only [State.setFcs_fcs, State.setFcs_cfg, State.setBusData_cfg]; omega)
    refine ⟨w, ?_⟩
    have hpolled : s.polled (k + 1) w =
        ((s.setBusData (srWord s.flash)).setFcs { s.fcs with n := s.fcs.n + 1 }).polled k w := by
      simp [State.polled, State.setFcs, State.setBusData]
      omega
    rw [hpolled]
    exact hpoll.append hrest

/-! ### After the poll that reads `BSY = 0` (43_poll_classify R207 to R216) -/

/-- The bus action that clears the enable bit of an operation (43_poll_classify R213). -/
def clearEnable (op : BitVec 2) : Instr := if op = opErase then .clrPer else .clrPg

/-- While unlocked the clearing of an enable bit changes `CR` only. -/
theorem exec_clearEnable_unlocked (op : BitVec 2) {s : State} (hkey : s.flash.key = .unlocked) :
    ∃ cr, exec (clearEnable op) s = .next (s.setFlash { s.flash with cr := cr }) := by
  unfold clearEnable
  split
  · exact ⟨_, congrArg (fun f => Host.Outcome.next (s.setFlash f)) (modifyCr_unlocked _ hkey)⟩
  · exact ⟨_, congrArg (fun f => Host.Outcome.next (s.setFlash f)) (modifyCr_unlocked _ hkey)⟩

/-- The command at `CLR_EN`, with the flags of its completion cleared. -/
def State.cleared (s : State) : State := (s.setFlash { s.flash with eop := false, wrprterr := false }).goto .clrEn

/-- The clears of the flags that `CHK_EOP` captured, from the state it went on to. -/
theorem clearFlags_issues {s : State} {x : StatusFlags} (hs : Alone s)
    (hst : s.fcs.st = (classifyNext s.flash.eop s.flash.wrprterr).code) (hcap : s.fcs.capWrp = s.flash.wrprterr)
    (hop : s.fcs.cOp = opErase ∨ s.fcs.cOp = opProgram) (heop : s.flash.eop = x.eop) (hwrp : s.flash.wrprterr = x.wrprterr)
    (hflags : ¬(x.eop = true ∧ x.wrprterr = true)) :
    Issues s (clearTrace x) s.cleared := by
  rw [hwrp] at hcap
  rw [heop, hwrp] at hst
  cases hxeop : x.eop with
  | true =>
    have hxwrp : x.wrprterr = false := by simpa [hxeop] using hflags
    simp only [hxeop, hxwrp, classifyNext, clearTrace, if_true] at hst hcap ⊢
    have haction : busAction s.cfg s.fcs .clrEop = some .w1cSrEop := by
      refine busAction_of_command .clrEop hop fun h => (if_pos h).trans ?_
      simp [hcap]
    exact .bus hs hst haction rfl (by simp [State.cleared, advance, w1cSr, hwrp, hxwrp])
  | false =>
    cases hxwrp : x.wrprterr with
    | true =>
      simp only [hxeop, hxwrp, classifyNext, clearTrace, if_true, Bool.false_eq_true, if_false] at hst hcap ⊢
      exact .bus hs hst (busAction_of_command .clrErr hop fun h => if_pos h) rfl
        (by simp [State.cleared, advance, w1cSr, heop, hxeop])
    | false =>
      simp only [hxeop, hxwrp, classifyNext, clearTrace, Bool.false_eq_true, if_false] at hst hcap ⊢
      have hsame : s.cleared = s := by
        rw [hxeop] at heop
        rw [hxwrp] at hwrp
        calc s.cleared
          _ = (s.setFlash { s.flash with eop := s.flash.eop, wrprterr := s.flash.wrprterr }).setFcs
                { s.fcs with st := s.fcs.st } := by rw [heop, hwrp, hst]; rfl
          _ = s := rfl
      rw [hsame]
      exact .refl s

/-- `CHK_EOP` captures the flags that stand and classifies by them (43_poll_classify R207, R208). -/
theorem advance_chkEop (s : State) : advance .chkEop (s.setBusData (srWord s.flash)) =
    (s.setBusData (srWord s.flash)).setFcs { s.fcs with
      st := (classifyNext s.flash.eop s.flash.wrprterr).code, capEop := s.flash.eop, capWrp := s.flash.wrprterr
      out := classifyOutcome s.flash.eop s.fcs.cOp } := by
  simp [advance, classify, State.conclude, State.setFcs]

/-- The state that the last poll and the classification lead to from `s`, the state before that poll. -/
def State.classified (s : State) : State :=
  { s with
    fcs := { s.fcs with
      st := (classifyNext s.flash.eop s.flash.wrprterr).code
      n := s.fcs.n + 1, capEop := s.flash.eop, capWrp := s.flash.wrprterr
      out := classifyOutcome s.flash.eop s.fcs.cOp }
    busData := srWord s.flash }

/-- The state that the command's response leads to from `s`, the state before its last poll: the flags of the completion are
captured, posted and cleared. -/
def State.answered (s : State) (cr : ControlReg) : State :=
  { s.classified with
    fcs := { s.classified.fcs with st := Fsm.idle.code }
    port := { s.port with
      rsp := rspWord s.flash.wrprterr (classifyOutcome s.flash.eop s.fcs.cOp), rspValid := true }
    flash := { s.flash with eop := false, wrprterr := false, cr := cr } }

/-- The response to an outcome that a completion was classified for has the captured `WRP` (43_poll_classify R216). -/
theorem RunsTo.respond_classified {s : State} {eop : Bool} {op : BitVec 2} (hs : Alone s)
    (hst : s.fcs.st = Fsm.respond.code) (hout : s.fcs.out = classifyOutcome eop op) :
    RunsTo 1 s [] ((s.setPort { s.port with rsp := rspWord s.fcs.capWrp s.fcs.out, rspValid := true }).goto .idle) := by
  have hclassified : s.fcs.out.classified = true := by
    rw [hout, classifyOutcome, failedOutcome]
    split_ifs <;> rfl
  have hwrp : rspWrp s.fcs = s.fcs.capWrp := by simp [rspWrp, hclassified]
  rw [← hwrp]
  exact .respond hs hst

/-- In `IDLE` with no command pending the sequencer holds (40_entry_unlock R130). -/
theorem RunsTo.hold {s : State} (hs : Alone s) (hst : s.fcs.st = Fsm.idle.code) (hfree : s.port.cmdPending = false)
    (k : Nat) : RunsTo k s [] s := by
  have hstep : step s = .next s := by
    rw [step_idle hs.sequencerIsNext hst, hs.taken]
    exact if_neg (ne_true_of_eq_false hfree)
  induction k with
  | zero => exact .refl s
  | succ k ih => exact .silent hs hst rfl hstep ih

/-- From a poll that reads `BSY = 0`, five steps classify the completion, clear the flags it raised and the enable bit, and
post the response; where no flag is to be cleared the last of them holds. -/
theorem RunsTo.answer {s : State} {x : StatusFlags} (hs : Alone s) (hst : s.fcs.st = Fsm.poll.code)
    (hop : s.fcs.cOp = opErase ∨ s.fcs.cOp = opProgram) (hkey : s.flash.key = .unlocked) (hbsy : s.flash.bsy = false)
    (hfree : s.port.cmdPending = false) (heop : s.flash.eop = x.eop) (hwrp : s.flash.wrprterr = x.wrprterr)
    (hflags : ¬(x.eop = true ∧ x.wrprterr = true)) :
    ∃ cr, RunsTo 5 s ([.rdSr, .rdSr] ++ clearTrace x ++ [clearEnable s.fcs.cOp]) (s.answered cr) := by
  have hread : Issues s [.rdSr, .rdSr] s.classified :=
    RunsTo.bus (k := 1) hs hst (busAction_of_command .poll hop fun h => if_pos h) rfl (advance_poll_free hbsy) <|
      .bus hs rfl (busAction_of_command .chkEop hop fun h => if_pos h) rfl (advance_chkEop _) (.refl _)
  have hclear := clearFlags_issues (s := s.classified) hs rfl rfl hop heop hwrp hflags
  obtain ⟨cr, hexec⟩ := exec_clearEnable_unlocked s.fcs.cOp (s := s.classified.cleared) hkey
  have haction := busAction_of_command (c := s.cfg) (f := s.classified.cleared.fcs) .clrEn hop
    fun h => (if_pos h).trans (apply_ite some _ _ _).symm
  have hend : RunsTo 2 s.classified.cleared [clearEnable s.fcs.cOp] (s.answered cr) :=
    .bus hs rfl haction hexec rfl (.respond_classified hs rfl rfl)
  have hhold := RunsTo.hold (s := s.answered cr) hs rfl hfree (1 - (clearTrace x).length)
  have hrun := RunsTo.append (RunsTo.append (hread.append hclear) hend) hhold
  have hlength : (clearTrace x).length ≤ 1 := by
    unfold clearTrace
    split_ifs <;> simp
  have hfive : ([Instr.rdSr, .rdSr] ++ clearTrace x).length + 2 + (1 - (clearTrace x).length) = 5 := by
    simp only [List.length_append, List.length_cons, List.length_nil]
    omega
  refine ⟨cr, ?_⟩
  rwa [hfive, List.append_nil] at hrun

end Sys2Proof.Machine
end

section
/-! Whole commands whose operation completes before a poll: the run, its bus actions and what it leaves (41_erase_page R165,
R167, 42_program_word R185, R188). -/

namespace Sys2Proof.Machine

/-! ### The completion -/

/-- What the completion of an operation in flight does to the array and which flags it raises (44_regif_actions R255). -/
def completionOf (s : State) : Inflight → Completion
  | .none => ⟨s.flash.mem, StatusFlags.clear⟩
  | .erase p => completeErase p s
  | .program a v => completeProgram a v s

/-- A completion does not raise both flags that `CHK_EOP` captures. -/
theorem completionOf_oneFlag (s : State) (flight : Inflight) :
    ¬((completionOf s flight).flags.eop = true ∧ (completionOf s flight).flags.wrprterr = true) := by
  cases flight with
  | none => exact nofun
  | erase p => obtain e | e | e := completeErase_flags p s <;> rw [completionOf, e] <;> exact nofun
  | program a v => obtain e | e | e | e := completeProgram_flags a v s <;> rw [completionOf, e] <;> exact nofun

/-- The state after an atomic completion that found neither `EOP` nor `WRPRTERR` set (44_regif_actions R255). -/
def State.completed (s : State) (r : Completion) : State :=
  { s with
    flash := { s.flash with
      mem := r.mem, bsy := false, cr := { s.flash.cr with strt := false }, inflight := .none
      eop := r.flags.eop, wrprterr := r.flags.wrprterr, pgerr := s.flash.pgerr || r.flags.pgerr }
    draws := s.draws + 2 }

/-- An atomic completion of the operation in flight. -/
theorem completionStep_atomic {s : State} (hc : s.cfg.splitCompletion = false) (howed : s.flash.owed = StatusFlags.clear)
    (hflight : s.flash.inflight ≠ .none) (heop : s.flash.eop = false) (hwrp : s.flash.wrprterr = false) :
    completionStep s = s.completed (completionOf s s.flash.inflight) := by
  have hsettle (r : Completion) : settle r s = s.completed r := by
    simp [settle, raiseOrOwe, hc, raiseFlags, State.completed, State.drawn, State.setFlash, heop, hwrp]
  obtain ⟨h, -⟩ | ⟨-, h, -⟩ | ⟨p, -, h, e⟩ | ⟨a, v, -, h, e⟩ := completionStep_cases s
  · exact absurd howed h
  · exact absurd h hflight
  · rw [e, hsettle, h]; rfl
  · rw [e, hsettle, h]; rfl

/-! ### The run -/

/-- What a command with the opcode `op` leaves whose operation had the completion `r`: the response is classified from the
flags of `r`, the array is that of `r`, and of the flags only a `PGERR` is left. -/
structure Answers (op : BitVec 2) (r : Completion) (s t : State) : Prop where
  moves : t.moves = []
  st : t.fcs.st = Fsm.idle.code
  stale : t.fcs.stale = false
  port : t.port = { s.port with
    cmdPending := false, rspValid := true, rsp := rspWord r.flags.wrprterr (classifyOutcome r.flags.eop op) }
  flash : ∃ cr, t.flash = { s.flash with
    key := .unlocked, bsy := false, eop := false, wrprterr := false, pgerr := s.flash.pgerr || r.flags.pgerr, cr := cr
    ar := s.port.addr, inflight := .none, mem := r.mem }

/-- The command after `k` polls of the operation in flight, the last of which read the word `w`. -/
def State.polling (s : State) (op : BitVec 2) (cr : ControlReg) (flight : Inflight) (k : Nat) (w : Word) : State :=
  ((s.entered op).started cr flight).polled k w

/-- A command up to `k` polls after the actions `l` that start its operation. -/
theorem RunsTo.polls {s : State} {op : BitVec 2} {l : List Instr} {cr : ControlReg} {flight : Inflight} {k : Nat}
    {cmd a d : Word} (hs : Alone s) (hready : readyFor s cmd a d) (hop : op = opErase ∨ op = opProgram)
    (haccept : acceptFrame s = .next ((Machine.accept op s.port.addr s.port.data s).goto .chkBusy))
    (hstart : Issues (s.entered op) l ((s.entered op).started cr flight)) (hk : k < s.cfg.pollLimit) :
    ∃ w, RunsTo (1 + (entryTrace s ++ l).length + k) s (entryTrace s ++ l ++ pollTrace k)
      (s.polling op cr flight k w) := by
  obtain ⟨-, hst, hpending, -, -, -, hbsy, hkey⟩ := hready
  obtain ⟨w, hpolls⟩ := polls_issue (s := (s.entered op).started cr flight) (k := k) hs rfl hop rfl
    (lt_of_eq_of_lt (Nat.zero_add k) hk)
  have hrun := RunsTo.accept hs hst hpending haccept (((entry_issues hs hop hbsy hkey).append hstart).append hpolls)
  have hlength : (entryTrace s ++ l ++ pollTrace k).length + 1 = 1 + (entryTrace s ++ l).length + k := by
    simp only [List.length_append, pollTrace, List.length_replicate]
    omega
  exact ⟨w, hlength ▸ hrun⟩

/-- Without split completion no `EOP` and no `WRPRTERR` stands at rest but what an abandoned operation left
(70_reset_and_hazards R314). -/
theorem InvAt.noFlag {s : State} (h : InvAt .idle s) (hc : s.cfg.splitCompletion = false) :
    (s.flash.eop && !s.fcs.stale) = false ∧ (s.flash.wrprterr && !s.fcs.stale) = false := by
  cases hstale : s.fcs.stale with
  | true => simp
  | false => simpa using h.quiet hc hstale (.inr rfl)

/-- A run of the sequencer under a schedule with one completion in it. -/
theorem RunsTo.through_completion {j k : Nat} {s u v t : State} {l m : List Instr} {ms : List Move} (hs : Alone s)
    (hbefore : RunsTo j s l u) (hcompletion : completionStep u = v) (hafter : RunsTo k v m t)
    (hms : ms = sequencerRun j ++ .completion :: sequencerRun k) :
    RunsTo ms.length (s.setMoves ms) (l ++ m) (t.setMoves []) := by
  have hu := hs.of_run hbefore
  have hv : Alone v := by
    rw [← hcompletion, completionStep_frame]
    exact hu
  have hmacro := RunsTo.completion hu (sequencerRun k)
  have hrest := hafter.scheduled hv []
  rw [hcompletion] at hmacro
  rw [List.append_nil] at hrest
  have hrun := (hbefore.scheduled hs (.completion :: sequencerRun k)).append (hmacro.append hrest)
  have hlength : ms.length = j + (1 + k) := by simp [hms, sequencerRun]; omega
  rwa [hlength, hms]

/-- A command whose operation, started by the actions `l`, completes atomically before poll `k + 1`. -/
theorem command_answers {s : State} {op : BitVec 2} {l : List Instr} {cr : ControlReg} {flight : Inflight} {k : Nat}
    {cmd a d : Word} (hinv : Inv s) (hc : s.cfg.splitCompletion = false) (hready : readyFor s cmd a d)
    (hop : op = opErase ∨ op = opProgram)
    (haccept : acceptFrame s.unscheduled = .next ((accept op s.port.addr s.port.data s.unscheduled).goto .chkBusy))
    (hstart : Issues (s.unscheduled.entered op) l ((s.unscheduled.entered op).started cr flight))
    (hflight : flight ≠ .none) (hk : k + 1 ≤ s.cfg.pollLimit)
    (hmoves : s.moves = sequencerRun (1 + (entryTrace s ++ l).length + k) ++ .completion :: sequencerRun 5) :
    ∃ t, RunsTo s.moves.length s (entryTrace s ++ l ++ pollTrace (k + 1) ++ [.rdSr] ++
        clearTrace (completionOf s flight).flags ++ [clearEnable op]) t ∧
      Answers op (completionOf s flight) s t := by
  have ⟨hpowered, hst, _⟩ := hready
  have hs : Alone s.unscheduled := ⟨hpowered, rfl⟩
  have htrace : entryTrace s ++ l ++ pollTrace (k + 1) ++ [.rdSr] ++ clearTrace (completionOf s flight).flags ++
      [clearEnable op] = entryTrace s ++ l ++ pollTrace k ++
        ([.rdSr, .rdSr] ++ clearTrace (completionOf s flight).flags ++ [clearEnable op]) := by
    simp [pollTrace, List.replicate_succ']
  obtain ⟨w, hbefore⟩ := RunsTo.polls hs hready hop haccept hstart hk
  have hr : completionOf (s.unscheduled.polling op cr flight k w) flight = completionOf s flight := by
    cases flight <;> rfl
  have hidle := hinv.idle hst
  obtain ⟨heop, hwrp⟩ := hidle.noFlag hc
  have hcompletion : completionStep (s.unscheduled.polling op cr flight k w) = .completed _ (completionOf s flight) :=
    (completionStep_atomic (s := s.unscheduled.polling op cr flight k w) hc (hidle.nothingOwed hc) hflight heop hwrp).trans
      (congrArg _ hr)
  obtain ⟨cr', hafter⟩ := RunsTo.answer (x := (completionOf s flight).flags)
    (s := (s.unscheduled.polling op cr flight k w).completed (completionOf s flight))
    hs rfl hop rfl rfl rfl rfl rfl (completionOf_oneFlag s flight)
  have hrun := RunsTo.through_completion (s := s.unscheduled) hs hbefore hcompletion hafter hmoves
  rw [htrace]
  exact ⟨_, hrun, ⟨rfl, rfl, rfl, rfl, cr', rfl⟩⟩

/-- An erase whose operation completes atomically before poll `k + 1` (41_erase_page R167). -/
theorem erase_answers {s : State} {a d : Word} {k : Nat} (hinv : Inv s) (hc : s.cfg.splitCompletion = false)
    (hready : readyFor s 0x1#32 a d) (hvalid : validAddr s.cfg opErase a = true) (hk : k + 1 ≤ s.cfg.pollLimit)
    (hmoves : s.moves = sequencerRun (1 + (eraseTrace s a).length + k) ++ .completion :: sequencerRun 5) :
    ∃ t, RunsTo s.moves.length s (eraseTrace s a ++ pollTrace (k + 1) ++ [.rdSr] ++
        clearTrace (completeErase (pageOf s.cfg a.toNat) s).flags ++ [.clrPer]) t ∧
      Answers opErase (completeErase (pageOf s.cfg a.toNat) s) s t := by
  have ⟨hpowered, hst, _, hcmd, haddr, _, hbsy, _⟩ := hready
  subst haddr
  have hs : Alone s.unscheduled := ⟨hpowered, rfl⟩
  have hpg : s.flash.cr.pg = false := (hinv.idle hst).pgBit
  have hstart := eraseStart_issues (s := s.unscheduled.entered opErase) hs rfl rfl rfl hbsy hpg hvalid
  have hrun := command_answers hinv hc hready (.inl rfl) (acceptFrame_erase hcmd hvalid) hstart nofun hk hmoves
  exact hrun

/-- A program whose operation completes atomically before poll `k + 1` (42_program_word R188). -/
theorem program_answers {s : State} {a v : Word} {k : Nat} (hinv : Inv s) (hc : s.cfg.splitCompletion = false)
    (hready : readyFor s 0x2#32 a v) (hvalid : validAddr s.cfg opProgram a = true) (hk : k + 1 ≤ s.cfg.pollLimit)
    (hmoves : s.moves = sequencerRun (1 + (programTrace s a v).length + k) ++ .completion :: sequencerRun 5) :
    ∃ t, RunsTo s.moves.length s (programTrace s a v ++ pollTrace (k + 1) ++ [.rdSr] ++
        clearTrace (completeProgram a v s).flags ++ [.clrPg]) t ∧
      Answers opProgram (completeProgram a v s) s t := by
  have ⟨hpowered, hst, _, hcmd, haddr, hdata, hbsy, _⟩ := hready
  subst haddr hdata
  have hs : Alone s.unscheduled := ⟨hpowered, rfl⟩
  have hper : s.flash.cr.per = false := (hinv.idle hst).perBit
  rw [show programTrace s s.port.addr s.port.data = entryTrace s ++
    ([.setPg, .wrAr s.port.addr, .wrMem32 s.port.addr s.port.data] ++ if s.cfg.programStrt = true then [.setStrt] else [])
    from List.append_assoc ..] at hmoves ⊢
  obtain ⟨cr, hstart⟩ := programStart_issues (s := s.unscheduled.entered opProgram) hs rfl rfl rfl hbsy hper hvalid
  have hrun := command_answers hinv hc hready (.inr rfl) (acceptFrame_program hcmd hvalid) hstart nofun hk hmoves
  exact hrun

/-! ### What the command leaves -/

section
variable {op : BitVec 2} {r : Completion} {s t : State}

/-- A command that has answered has ended (60_exceptions R286). -/
theorem Answers.commandEnded (h : Answers op r s t) : Machine.commandEnded t = true := by
  simp [Machine.commandEnded, h.port, h.st]

/-- A command that has answered leaves the system quiescent (60_exceptions R286). -/
theorem Answers.quiescent (h : Answers op r s t) : Machine.quiescent t = true := by
  obtain ⟨cr, hflash⟩ := h.flash
  simp [Machine.quiescent, h.commandEnded, h.port, hflash]

/-- A command that has answered was the last one of its host program (60_exceptions R286). -/
theorem Answers.programEnded (h : Answers op r s t) : Machine.programEnded t = true := by
  simp [Machine.programEnded, h.commandEnded, h.port, commandsToCome, h.moves]

/-- The response carries the outcome classified from the flags of the completion, and its `WRPRTERR` (43_poll_classify R216). -/
theorem Answers.rsp_eq (h : Answers op r s t) :
    t.port.rsp = rspWord r.flags.wrprterr (classifyOutcome r.flags.eop op) := by
  rw [h.port]

/-- Of the status flags a command that has answered leaves a `PGERR` only. -/
theorem Answers.srWord_eq (h : Answers op r s t) :
    srWord t.flash = srBits false false (s.flash.pgerr || r.flags.pgerr) false := by
  obtain ⟨cr, hflash⟩ := h.flash
  rw [hflash]
  rfl

end

end Sys2Proof.Machine
end

section
/-! The erase command (41_erase_page R160, R165, R167), and both commands on a protected page (42_program_word R185, R188). -/

namespace Sys2Proof.Machine

/-! ### The erase of an unprotected page -/

/-- The page of a valid erase address begins at that address (00_scope R9, 40_entry_unlock R133). -/
theorem page_of_validAddr {c : Config} {a : Word} (hc : c.wf = true) (hvalid : validAddr c opErase a = true) :
    c.flashBase.toNat + pageOf c a.toNat * 2048 = a.toNat := by
  simp only [Config.wf, Bool.and_eq_true, decide_eq_true_eq] at hc
  obtain ⟨haligned, hlow, -⟩ := (validAddr_erase_iff c a).mp hvalid
  simp only [pageOf, Config.base, Config.pageSize] at hc ⊢
  omega

/-- The erase of an unprotected page raises `EOP`, or nothing if the macro rejects it (44_regif_actions R255). -/
theorem completeErase_flags_unprotected {s : State} {p : Nat} (hp : p ∉ s.cfg.wrpPages) :
    (completeErase p s).flags = ⟨!rejects s, false, false⟩ := by
  rw [completeErase, if_neg (by simpa using hp)]
  cases rejects s <;> rfl

/-- Settles O53: the command runs as `erase_answers` says, with the completion that `completeErase_leaves` describes; only the
flags and the bytes of that completion depend on whether the macro rejects the erase. -/
theorem eraseCommandErasesItsPage : Obligations.EraseCommandErasesItsPage := by
  intro s a d k hinv hc hready hvalid hpage hk hmoves
  have ⟨_, hst, _, _, haddr, _⟩ := hready
  have hidle := hinv.idle hst
  have hunprotected : pageOf s.cfg a.toNat ∉ s.cfg.wrpPages := hpage
  obtain ⟨t, ⟨hsteps, htrace⟩, ht⟩ := erase_answers hinv hc hready hvalid hk hmoves
  obtain ⟨cr, hflash⟩ := ht.flash
  obtain ⟨hper, hpg, -⟩ := noEnableBitAndNoFlagAtRest _ s t hinv hsteps ht.st
  have hleaves := completeErase_leaves (pageOf s.cfg a.toNat) (t := t) hidle.canonical (by rw [hflash])
  have hflags := completeErase_flags_unprotected hunprotected
  rw [eraseLeaves, if_neg hunprotected, page_of_validAddr hidle.config hvalid] at hleaves
  have hsr := ht.srWord_eq
  have hrsp := ht.rsp_eq
  rw [hflags] at htrace hsr hrsp
  have hclear : clearTrace ⟨!rejects s, false, false⟩ = if rejects s = true then [] else [.w1cSrEop] := by
    cases rejects s <;> rfl
  have hcode : rspWord false (classifyOutcome (!rejects s) opErase) = if rejects s = true then 0x2#32 else 0x0#32 := by
    cases rejects s <;> decide
  rw [hclear] at htrace
  refine ⟨t, hsteps, htrace, ht.programEnded, ht.quiescent, hrsp.trans hcode, by rw [hflash]; exact haddr, ?_, hper, hpg,
    by rw [hflash], ht.stale, fun hrejects => ?_, fun hrejects => ?_⟩
  · rw [hsr, Bool.or_false]
  · rw [if_neg (ne_true_of_eq_false hrejects)] at hleaves
    exact hleaves.2
  · rw [if_pos hrejects] at hleaves
    rw [rejects, Bool.and_eq_true] at hrejects
    exact ⟨hrejects.1, hleaves.2⟩

/-! ### Protected pages -/

/-- A command whose operation was write-protected ends with `WRP = 1` and leaves the array as it was. -/
theorem protected_command_fails {s : State} {op : BitVec 2} {l : List Instr} {i : Instr} {w : Word} (hinv : Inv s)
    (hw : rspWord true (classifyOutcome false op) = w)
    (h : ∃ t, RunsTo s.moves.length s (l ++ [.rdSr] ++ clearTrace flagsWrprterr ++ [i]) t ∧
      Answers op ⟨s.flash.mem, flagsWrprterr⟩ s t) :
    ∃ t, steps s.moves.length s = .next t ∧ trace s.moves.length s = l ++ [.rdSr, .w1cSrWrprterr, i] ∧
      commandEnded t = true ∧ quiescent t = true ∧ t.port.rsp = w ∧ t.flash.mem = s.flash.mem ∧
      t.flash.eop = false ∧ t.flash.wrprterr = false ∧ t.flash.cr.per = false ∧ t.flash.cr.pg = false := by
  obtain ⟨t, ⟨hsteps, htrace⟩, ht⟩ := h
  obtain ⟨cr, hflash⟩ := ht.flash
  obtain ⟨hper, hpg, -⟩ := noEnableBitAndNoFlagAtRest _ s t hinv hsteps ht.st
  refine ⟨t, hsteps, ?_, ht.commandEnded, ht.quiescent, ht.rsp_eq.trans hw, by rw [hflash], by rw [hflash], by rw [hflash],
    hper, hpg⟩
  simpa [clearTrace, flagsWrprterr] using htrace

/-- Settles O54: both commands run to their completion, which on a protected page raises `WRPRTERR` only. -/
theorem commandsOnAProtectedPageFail : Obligations.CommandsOnAProtectedPageFail := by
  intro s a d k hinv hc hpage hk
  have hprotected : s.cfg.wrpPages.contains (pageOf s.cfg a.toNat) = true := List.contains_iff_mem.mpr hpage
  refine ⟨fun hready hvalid hmoves => ?_, fun hready hvalid hmoves => ?_⟩
  · have hr : completeErase (pageOf s.cfg a.toNat) s = ⟨s.flash.mem, flagsWrprterr⟩ := if_pos hprotected
    have hrun := erase_answers hinv hc hready hvalid hk hmoves
    rw [hr] at hrun
    exact protected_command_fails hinv (by decide) hrun
  · have hr : completeProgram a d s = ⟨s.flash.mem, flagsWrprterr⟩ := if_pos hprotected
    have hrun := program_answers hinv hc hready hvalid hk hmoves
    rw [hr] at hrun
    exact protected_command_fails hinv (by decide) hrun

end Sys2Proof.Machine
end

section
/-! What a completion does to the bits of the array (44_regif_actions R255, R256): those of an erase rise, those of a program
fall (42_program_word R186). -/

namespace Sys2Proof.Machine

/-- What an erase leaves has no bit that fell. -/
theorem eraseLeaves.rises {s t : State} {p : Nat} {x : StatusFlags} (h : eraseLeaves s t p x) (y : Nat) :
    byteAt s y &&& ~~~(byteAt t y) = 0#8 := by
  unfold eraseLeaves at h
  split at h
  next =>
    obtain ⟨hmem, -⟩ := h
    simp [byteAt, hmem]
  next =>
    split at h
    next => exact (h.2 y).1
    next =>
      rw [h.2 y]
      split
      next => exact BitVec.and_zero
      next => exact BitVec.and_not_self _

/-- What a program leaves has no bit that rose. -/
theorem programLeaves.falls {s t : State} {a v : Word} {x : StatusFlags} (h : programLeaves s t a v x) (y : Nat) :
    byteAt t y &&& ~~~(byteAt s y) = 0#8 := by
  obtain ⟨houtside, hword⟩ := h
  by_cases hy : y < a.toNat ∨ a.toNat + 4 ≤ y
  · simp [houtside y hy]
  obtain ⟨i, rfl⟩ := Nat.exists_eq_add_of_le (show a.toNat ≤ y by omega)
  have hi : i < 4 := by omega
  split at hword
  next =>
    obtain ⟨hmem, -⟩ := hword
    simp [byteAt, hmem]
  next =>
    split at hword
    next => exact (hword.2 i hi).1
    next =>
      split at hword
      next herased =>
        have hbyte : byteAt s (a.toNat + i) = 0xFF#8 := (readWord_erased_iff _ _).mp herased i hi
        rw [hbyte]
        exact BitVec.and_zero
      next =>
        obtain ⟨-, hmem⟩ | ⟨-, hfalls⟩ := hword
        · simp [byteAt, hmem]
        · exact hfalls i hi

/-- The macro's step on an erase lets no bit fall, in whichever of its two steps. -/
theorem completionStep_rises {s : State} {p : Nat} (hw : Memory.wf s.flash.mem = true) (hflight : s.flash.inflight = .erase p)
    (y : Nat) : byteAt s y &&& ~~~(byteAt (completionStep s) y) = 0#8 := by
  obtain ⟨-, e⟩ | ⟨-, -, e⟩ | ⟨q, -, -, e⟩ | ⟨a, v, -, hprogram, -⟩ := completionStep_cases s
  · rw [e]
    exact BitVec.and_not_self _
  · rw [e]
    exact BitVec.and_not_self _
  · rw [e]
    exact (completeErase_leaves q hw (by simp)).rises y
  · simp [hflight] at hprogram

/-- The macro's step on a program lets no bit rise, in whichever of its two steps. -/
theorem completionStep_falls {s : State} {a v : Word} (hw : Memory.wf s.flash.mem = true)
    (hflight : s.flash.inflight = .program a v) (y : Nat) :
    byteAt (completionStep s) y &&& ~~~(byteAt s y) = 0#8 := by
  obtain ⟨-, e⟩ | ⟨-, -, e⟩ | ⟨p, -, herase, -⟩ | ⟨b, w, -, -, e⟩ := completionStep_cases s
  · rw [e]
    exact BitVec.and_not_self _
  · rw [e]
    exact BitVec.and_not_self _
  · simp [hflight] at herase
  · rw [e]
    exact (completeProgram_leaves b w hw (by simp)).falls y

/-- With nothing in flight the macro's step leaves the array as it is. -/
theorem completionStep_mem_of_none {s : State} (hflight : s.flash.inflight = .none) :
    (completionStep s).flash.mem = s.flash.mem := by
  obtain ⟨-, e⟩ | ⟨-, -, e⟩ | ⟨p, -, herase, -⟩ | ⟨a, v, -, hprogram, -⟩ := completionStep_cases s
  · rw [e, payOwed_mem]
  · rw [e]
  · simp [hflight] at herase
  · simp [hflight] at hprogram

/-- Settles O38: the step is the macro's, whose bits `completionStep_rises` and `completionStep_falls` bound and which
`completionStep_outside` keeps to the operation in flight. -/
theorem completionsMoveBitsOneWay : Obligations.CompletionsMoveBitsOneWay := by
  intro s t rest hpowered hmoves hstep hw
  rw [step_scheduled hpowered hmoves] at hstep
  cases hstep
  refine ⟨fun p hflight x => ⟨?_, fun hx => ?_⟩, fun a v hflight x => ⟨?_, fun hx => ?_⟩, fun hflight => ?_⟩
  · exact completionStep_rises (s := s.setMoves rest) hw hflight x
  · refine completionStep_outside (s.setMoves rest) ?_
    rw [State.setMoves_flash, hflight]
    exact hx
  · exact completionStep_falls (s := s.setMoves rest) hw hflight x
  · refine completionStep_outside (s.setMoves rest) ?_
    rw [State.setMoves_flash, hflight]
    exact hx
  · exact completionStep_mem_of_none (s := s.setMoves rest) hflight

end Sys2Proof.Machine
end

section
/-! The program command on an unprotected page (42_program_word R180, R185, R188). -/

namespace Sys2Proof.Machine

/-- The program of a word of an unprotected page raises no `WRPRTERR` (44_regif_actions R255, R256). -/
theorem programLeaves.wrprterr_unprotected {s t : State} {a v : Word} {x : StatusFlags} (h : programLeaves s t a v x)
    (hpage : (a.toNat - s.cfg.flashBase.toNat) / 2048 ∉ s.cfg.wrpPages) : x.wrprterr = false := by
  obtain ⟨-, hword⟩ := h
  rw [if_neg hpage] at hword
  split at hword
  next => rw [hword.1]
  next =>
    split at hword
    next => rw [hword.1]
    next => obtain ⟨hx, -⟩ | ⟨hx, -⟩ := hword <;> rw [hx]

/-- The response to a program that was not write-protected, by the `EOP` of its completion (30_encoding R104). -/
theorem rspWord_program (eop : Bool) :
    rspWord false (classifyOutcome eop opProgram) = if eop = true then 0x0#32 else 0x3#32 := by
  cases eop <;> decide

/-- Settles O55: the command runs as `program_answers` says, with the completion that `completeProgram_leaves` describes, and
response, trace and flags are read off the flags of that completion. -/
theorem programCommandProgramsItsWord : Obligations.ProgramCommandProgramsItsWord := by
  intro s a v k hinv hc hready hvalid hpage hk hmoves
  have ⟨_, hst, _, _, haddr, _⟩ := hready
  obtain ⟨t, ⟨hsteps, htrace⟩, ht⟩ := program_answers hinv hc hready hvalid hk hmoves
  obtain ⟨cr, hflash⟩ := ht.flash
  obtain ⟨hper, hpg, -⟩ := noEnableBitAndNoFlagAtRest _ s t hinv hsteps ht.st
  have hleaves := completeProgram_leaves a v (t := t) (hinv.idle hst).canonical (by rw [hflash])
  have hwrp := hleaves.wrprterr_unprotected hpage
  have hrsp := ht.rsp_eq
  rw [hwrp, rspWord_program] at hrsp
  exact ⟨t, _, hsteps, hleaves, htrace, hwrp, hrsp, ht.programEnded, ht.quiescent, by rw [hflash]; exact haddr,
    ht.srWord_eq, hper, hpg, by rw [hflash], ht.stale, hleaves.falls⟩

end Sys2Proof.Machine
end

section
/-! What the sequencer's step is in `IDLE` and in a bus state (43_poll_classify R200), and the steps from `POLL` to `RESPOND`
(R202 to R216). -/

namespace Sys2Proof.Machine

/-! ### The step of `IDLE` and of a bus state -/

/-- Settles O11: with a command pending the step is its acceptance (`step_pending`), with none it is the hold. -/
theorem idleStepRunsTheDecodedCommandOrHolds : Obligations.IdleStepRunsTheDecodedCommandOrHolds := by
  intro s hnext hst
  refine ⟨fun i hpending hdecode => ?_, fun hfree => ?_⟩
  · exact (step_pending hnext hst hpending).trans (acceptFrame_legal (s := s.taken) hdecode)
  · exact (step_idle hnext hst).trans (if_neg (ne_true_of_eq_false hfree))

/-- A bus state's step is what its action answers, after the transition (43_poll_classify R200). -/
theorem step_bus {s : State} {q : Fsm} {i : Instr} (hnext : sequencerIsNext s = true) (hst : s.fcs.st = q.code)
    (hi : busAction s.cfg s.fcs q = some i) : step s = thenAdvance q (exec i s.taken) := by
  have hidle : q ≠ .idle := by rintro rfl; cases hi
  have hrespond : q ≠ .respond := by rintro rfl; cases hi
  rw [step_sequencer hnext, sequencerStep_at (s := s.taken) hst, stepIn_bus hidle hrespond, busStep,
    show busAction s.taken.cfg s.taken.fcs q = some i from hi]

/-- No instruction is refused. -/
theorem exec_not_refused (i : Instr) (s : State) (r : Refusal) : exec i s ≠ .refused r := by
  have hkeyWrite (k : Word) : keyWrite k s ≠ .refused r := by
    obtain ⟨t, e⟩ | ⟨-, -, e⟩ := keyWrite_total k s <;> rw [e] <;> exact nofun
  cases i with
  | wrKeyrKey1 => exact hkeyWrite _
  | wrKeyrKey2 => exact hkeyWrite _
  | wrMem32 a v =>
    simp only [exec, execWrMem32, arrayWrite]
    split <;> exact nofun
  | _ => exact nofun

/-- Settles O12: the step is the transition after what the action answers (`step_bus`), and no action is refused. -/
theorem busStepRunsTheIssuedAction : Obligations.BusStepRunsTheIssuedAction := by
  intro s q i hnext hst hi
  rw [step_bus hnext hst hi]
  exact ⟨fun u hu => by rw [hu]; rfl, fun r hr => by rw [hr]; rfl, exec_not_refused i s.taken⟩

/-! ### Polling and classification -/

/-- The command at `CLR_EN` after the last poll allowed, which read `BSY = 1`: its operation is abandoned
(43_poll_classify R203). -/
def State.abandoned (s : State) : State :=
  (s.setBusData (srWord s.flash)).setFcs
    { s.fcs with st := Fsm.clrEn.code, n := s.fcs.n + 1, out := .timeout, stale := true }

/-- The last poll allowed, where it reads `BSY = 1`. -/
theorem advance_poll_last {s : State} (hbsy : s.flash.bsy = true) (hn : s.fcs.n + 1 = s.cfg.pollLimit) :
    advance .poll (s.setBusData (srWord s.flash)) = s.abandoned := by
  simp [advance, pollNext, hbsy, hn, timeOut, State.abandoned, State.conclude, State.setFcs, State.setBusData]

/-- Settles O31: the transition after `RD_SR`, by the `BSY` it read and the count of reads. -/
theorem pollCountsAndTimesOut : Obligations.PollCountsAndTimesOut := by
  intro s hnext hst hop
  have hstep := step_of_exec (q := .poll) hnext hst (busAction_of_command _ hop fun h => if_pos h) rfl
  exact ⟨fun hbsy => hstep.trans (congrArg _ (advance_poll_free (s := s.taken) hbsy)),
    fun hbsy hn => hstep.trans (congrArg _ (advance_poll_last (s := s.taken) hbsy hn)),
    fun hbsy hn => hstep.trans (congrArg _ (advance_poll_busy (s := s.taken) hbsy hn))⟩

/-- The codes of the states that the classification table leads to (43_poll_classify R208). -/
theorem classifyNext_code (eop wrp : Bool) :
    (classifyNext eop wrp).code = if eop = true then 13#5 else if wrp = true then 14#5 else 15#5 := by
  cases eop <;> cases wrp <;> rfl

/-- Settles O32: the transition after `RD_SR`, by the two flags it read. -/
theorem classifierFollowsTheTable : Obligations.ClassifierFollowsTheTable := by
  intro s hnext hst hop
  have hstep := step_of_exec (q := .chkEop) hnext hst (busAction_of_command _ hop fun h => if_pos h) rfl
  rw [hstep, advance_chkEop, classifyNext_code]
  rfl

/-! ### Clean-up and response -/

/-- `W1C_SR(0x20)` clears `EOP` (44_regif_actions R239). -/
theorem exec_w1cSrEop_clears (s : State) :
    exec .w1cSrEop s = .next (s.setFlash { s.flash with eop := false }) :=
  congrArg (fun f => Host.Outcome.next (s.setFlash f)) (by simp [w1cSr])

/-- `W1C_SR(0x10)` clears `WRPRTERR` (44_regif_actions R239). -/
theorem exec_w1cSrWrprterr_clears (s : State) :
    exec .w1cSrWrprterr s = .next (s.setFlash { s.flash with wrprterr := false }) :=
  congrArg (fun f => Host.Outcome.next (s.setFlash f)) (by simp [w1cSr])

/-- While unlocked `CLR_PER` clears `PER` (44_regif_actions R241). -/
theorem exec_clrPer_unlocked {s : State} (hkey : s.flash.key = .unlocked) :
    exec .clrPer s = .next (s.setFlash { s.flash with cr := { s.flash.cr with per := false } }) :=
  congrArg (fun f => Host.Outcome.next (s.setFlash f)) (modifyCr_unlocked _ hkey)

/-- While unlocked `CLR_PG` clears `PG` (44_regif_actions R241). -/
theorem exec_clrPg_unlocked {s : State} (hkey : s.flash.key = .unlocked) :
    exec .clrPg s = .next (s.setFlash { s.flash with cr := { s.flash.cr with pg := false } }) :=
  congrArg (fun f => Host.Outcome.next (s.setFlash f)) (modifyCr_unlocked _ hkey)

/-- `CLR_EOP` writes 1 to the flags that `CHK_EOP` captured (43_poll_classify R209). -/
theorem busAction_clrEop {c : Config} {f : Fcs} (hop : f.cOp = opErase ∨ f.cOp = opProgram) :
    busAction c f .clrEop = some (if f.capWrp = true then .w1cSrBoth else .w1cSrEop) :=
  busAction_of_command .clrEop hop fun h => (if_pos h).trans (apply_ite some _ _ _).symm

/-- `CLR_EN` clears the enable bit of the operation (43_poll_classify R213). -/
theorem busAction_clrEn {c : Config} {f : Fcs} (hop : f.cOp = opErase ∨ f.cOp = opProgram) :
    busAction c f .clrEn = some (clearEnable f.cOp) :=
  busAction_of_command .clrEn hop fun h => (if_pos h).trans (apply_ite some _ _ _).symm

/-- Settles O33: each action as its rule has it, and a transition that tests nothing. -/
theorem cleanupSteps : Obligations.CleanupSteps := by
  intro s hnext hop
  refine ⟨fun hst => ?_, fun hst => ?_, fun hst hkey herase => ?_, fun hst hkey hprogram => ?_⟩
  · have haction := busAction_clrEop (c := s.cfg) hop
    cases hcap : s.fcs.capWrp with
    | true =>
      rw [if_pos hcap] at haction
      rw [Bool.not_true, Bool.and_false]
      exact step_of_exec (q := .clrEop) hnext hst haction (exec_w1cSrBoth_clears _)
    | false =>
      rw [if_neg (ne_true_of_eq_false hcap)] at haction
      rw [Bool.not_false, Bool.and_true]
      exact step_of_exec (q := .clrEop) hnext hst haction (exec_w1cSrEop_clears _)
  · exact step_of_exec (q := .clrErr) hnext hst (busAction_of_command _ hop fun h => if_pos h)
      (exec_w1cSrWrprterr_clears _)
  · have haction := busAction_clrEn (c := s.cfg) hop
    rw [herase] at haction
    exact step_of_exec (q := .clrEn) hnext hst haction (exec_clrPer_unlocked (s := s.taken) hkey)
  · have haction := busAction_clrEn (c := s.cfg) hop
    rw [hprogram] at haction
    exact step_of_exec (q := .clrEn) hnext hst haction (exec_clrPg_unlocked (s := s.taken) hkey)

/-- `CHK_EOP` classifies a success and the two failures (43_poll_classify R216). -/
theorem CmdOutcome.classified_iff (o : CmdOutcome) :
    o.classified = true ↔ o = .success ∨ o = .eraseFailed ∨ o = .programFailed := by
  cases o <;> decide

/-- Settles O34: the step posts `rspWord`, whose outcome code and `WRP` are those of `rspWord_toNat`. -/
theorem respondPostsTheOutcome : Obligations.RespondPostsTheOutcome := by
  intro s hnext hst
  refine ⟨rspWord (rspWrp s.fcs) s.fcs.out, ?_, ?_⟩
  · rw [step_sequencer hnext, sequencerStep_at (s := s.taken) (q := .respond) hst]
    rfl
  · rw [rspWord_toNat]
    congr 1
    · cases s.fcs.out <;> rfl
    · simp only [← CmdOutcome.classified_iff, rspWrp]
      cases s.fcs.capWrp <;> cases s.fcs.out.classified <;> rfl

end Sys2Proof.Machine
end

section
/-! Whole commands whose operation never completes (43_poll_classify R203, R205, 41_erase_page R167, 42_program_word R188). -/

namespace Sys2Proof.Machine

/-- What a command leaves that gave up on its operation `flight`: the response `Timeout`, the operation still in flight and the
array as it was, the abandonment marked by `stale`, and no enable bit set. -/
structure TimedOut (flight : Inflight) (s t : State) : Prop where
  ended : commandEnded t = true
  rsp : t.port.rsp = 0x5#32
  stale : t.fcs.stale = true
  busy : t.flash.bsy = true
  inflight : t.flash.inflight = flight
  mem : t.flash.mem = s.flash.mem
  perBit : t.flash.cr.per = false
  pgBit : t.flash.cr.pg = false

/-- From the last poll allowed, three steps abandon the operation, clear the enable bit and post the response. -/
theorem RunsTo.giveUp {s : State} (hs : Alone s) (hst : s.fcs.st = Fsm.poll.code)
    (hop : s.fcs.cOp = opErase ∨ s.fcs.cOp = opProgram) (hkey : s.flash.key = .unlocked) (hbsy : s.flash.bsy = true)
    (hn : s.fcs.n + 1 = s.cfg.pollLimit) :
    ∃ cr, RunsTo 3 s [.rdSr, clearEnable s.fcs.cOp]
      (Machine.respond ((s.abandoned.setFlash { s.flash with cr := cr }).goto .respond)) := by
  obtain ⟨cr, hexec⟩ := exec_clearEnable_unlocked s.fcs.cOp (s := s.abandoned) hkey
  exact ⟨cr, .bus hs hst (busAction_of_command .poll hop fun h => if_pos h) rfl (advance_poll_last hbsy hn) <|
    .bus hs rfl (busAction_clrEn hop) hexec rfl <|
    .respond hs rfl⟩

/-- A command whose operation, started by the actions `l`, never completes: all polls allowed read `BSY = 1`, the last of them
gives up, and the enable bit is cleared before the response. -/
theorem command_timesOut {s : State} {op : BitVec 2} {l : List Instr} {cr : ControlReg} {flight : Inflight}
    {cmd a d : Word} (hinv : Inv s) (hmoves : s.moves = []) (hready : readyFor s cmd a d)
    (hop : op = opErase ∨ op = opProgram)
    (haccept : acceptFrame s = .next ((accept op s.port.addr s.port.data s).goto .chkBusy))
    (hstart : Issues (s.entered op) l ((s.entered op).started cr flight)) :
    ∃ t, RunsTo (1 + (entryTrace s ++ l).length + s.cfg.pollLimit + 2) s
        (entryTrace s ++ l ++ pollTrace s.cfg.pollLimit ++ [clearEnable op]) t ∧ TimedOut flight s t := by
  have ⟨hpowered, hst, _⟩ := hready
  have hs : Alone s := ⟨hpowered, hmoves⟩
  obtain ⟨k, hlimit⟩ := Nat.exists_eq_succ_of_ne_zero (pollLimit_pos (hinv.idle hst).config).ne'
  obtain ⟨w, hpolls⟩ := RunsTo.polls (k := k) hs hready hop haccept hstart (by omega)
  obtain ⟨cr', hend⟩ := RunsTo.giveUp (s := s.polling op cr flight k w) hs rfl hop rfl rfl
    (show 0 + k + 1 = s.cfg.pollLimit by omega)
  have hrun : RunsTo _ s (entryTrace s ++ l ++ pollTrace k ++ [.rdSr, clearEnable op]) _ := hpolls.append hend
  have htrace : entryTrace s ++ l ++ pollTrace k ++ [.rdSr, clearEnable op] =
      entryTrace s ++ l ++ pollTrace s.cfg.pollLimit ++ [clearEnable op] := by
    simp [hlimit, pollTrace, List.replicate_succ']
  rw [htrace, show 1 + (entryTrace s ++ l).length + k + 3 = 1 + (entryTrace s ++ l).length + s.cfg.pollLimit + 2 by omega]
    at hrun
  obtain ⟨hper, hpg, -⟩ := noEnableBitAndNoFlagAtRest _ s _ hinv hrun.1 rfl
  exact ⟨_, hrun, rfl, respond_rsp_unclassified (o := .timeout) rfl rfl, rfl, rfl, rfl, rfl, hper, hpg⟩

/-- An erase whose operation never completes (41_erase_page R167). -/
theorem erase_timesOut {s : State} {a d : Word} (hinv : Inv s) (hmoves : s.moves = []) (hready : readyFor s 0x1#32 a d)
    (hvalid : validAddr s.cfg opErase a = true) :
    ∃ t, RunsTo (1 + (eraseTrace s a).length + s.cfg.pollLimit + 2) s
        (eraseTrace s a ++ pollTrace s.cfg.pollLimit ++ [.clrPer]) t ∧
      TimedOut (.erase (pageOf s.cfg a.toNat)) s t := by
  have ⟨hpowered, hst, _, hcmd, haddr, _, hbsy, _⟩ := hready
  subst haddr
  have hpg : s.flash.cr.pg = false := (hinv.idle hst).pgBit
  have hstart := eraseStart_issues (s := s.entered opErase) ⟨hpowered, hmoves⟩ rfl rfl rfl hbsy hpg hvalid
  exact command_timesOut hinv hmoves hready (.inl rfl) (acceptFrame_erase hcmd hvalid) hstart

/-- A program whose operation never completes (42_program_word R188). -/
theorem program_timesOut {s : State} {a v : Word} (hinv : Inv s) (hmoves : s.moves = []) (hready : readyFor s 0x2#32 a v)
    (hvalid : validAddr s.cfg opProgram a = true) :
    ∃ t, RunsTo (1 + (programTrace s a v).length + s.cfg.pollLimit + 2) s
        (programTrace s a v ++ pollTrace s.cfg.pollLimit ++ [.clrPg]) t ∧
      TimedOut (.program a v) s t := by
  have ⟨hpowered, hst, _, hcmd, haddr, hdata, hbsy, _⟩ := hready
  subst haddr hdata
  have hper : s.flash.cr.per = false := (hinv.idle hst).perBit
  have htrace : programTrace s s.port.addr s.port.data = entryTrace s ++
      ([.setPg, .wrAr s.port.addr, .wrMem32 s.port.addr s.port.data] ++
        if s.cfg.programStrt = true then [.setStrt] else []) := List.append_assoc ..
  obtain ⟨cr, hstart⟩ := programStart_issues (s := s.entered opProgram) ⟨hpowered, hmoves⟩ rfl rfl rfl hbsy hper hvalid
  rw [htrace]
  exact command_timesOut hinv hmoves hready (.inr rfl) (acceptFrame_program hcmd hvalid) hstart

/-- Settles O56: both commands run to the poll that gives up (`erase_timesOut`, `program_timesOut`), and `TimedOut` says what
they leave. -/
theorem uncompletedOperationTimesOut : Obligations.UncompletedOperationTimesOut := by
  intro s a d hinv hmoves
  refine ⟨fun hready hvalid => ?_, fun hready hvalid => ?_⟩
  · obtain ⟨t, ⟨hsteps, htrace⟩, h⟩ := erase_timesOut hinv hmoves hready hvalid
    exact ⟨t, hsteps, htrace, h.ended, h.rsp, h.stale, h.busy, h.inflight, h.mem, h.perBit, h.pgBit⟩
  · obtain ⟨t, ⟨hsteps, htrace⟩, h⟩ := program_timesOut hinv hmoves hready hvalid
    exact ⟨t, hsteps, htrace, h.ended, h.rsp, h.stale, h.busy, h.inflight, h.mem, h.perBit, h.pgBit⟩

end Sys2Proof.Machine
end

section
/-! The bound on a command (43_poll_classify R204): every step of the sequencer shortens the longest way to the response, and
no other agent lengthens it. -/

namespace Sys2Proof.Machine

/-! ### The longest way to the response -/

/-- The most steps of the sequencer from a state to the command's response, after `n` of `limit` polls (43_poll_classify R201).
In `IDLE` it is the bound of 43_poll_classify R204. -/
def Fsm.stepsLeft (limit n : Nat) : Fsm → Nat
  | .idle => 15 + limit
  | .chkBusy => 14 + limit
  | .chkLock => 13 + limit
  | .key1 => 12 + limit
  | .key2 => 11 + limit
  | .rechkLock => 10 + limit
  | .scrub => 9 + limit
  | .setEn => 8 + limit
  | .latchAddr => 7 + limit
  | .payload => 6 + limit
  | .start => 5 + limit
  | .poll => 4 + (limit - n)
  | .chkEop => 4
  | .clrEop => 3
  | .clrErr => 3
  | .clrEn => 2
  | .respond => 1

/-- The response is at least one step ahead. -/
theorem Fsm.stepsLeft_pos (limit n : Nat) (q : Fsm) : 0 < q.stepsLeft limit n := by
  cases q <;> simp [Fsm.stepsLeft]

/-- A command is pending or in progress, and its response is at most `b` steps of the sequencer ahead. -/
def UnderWay (b : Nat) (s : State) : Prop :=
  ∃ q : Fsm, s.fcs.st = q.code ∧ (q = .idle → s.port.cmdPending = true) ∧ q.stepsLeft s.cfg.pollLimit s.fcs.n ≤ b

/-- A command is under way in every state of the sequencer but `IDLE`. -/
theorem UnderWay.of_st {b : Nat} {s : State} (q : Fsm) (hst : s.fcs.st = q.code) (hq : q ≠ .idle)
    (hb : q.stepsLeft s.cfg.pollLimit s.fcs.n ≤ b) : UnderWay b s :=
  ⟨q, hst, fun h => absurd h hq, hb⟩

/-- The command has ended and no other is pending (60_exceptions R286). -/
def Responded (s : State) : Prop := commandEnded s = true ∧ s.port.cmdPending = false

/-! ### The sequencer -/

/-- A transition of a command leads at least one step closer to the response (43_poll_classify R201). -/
theorem advance_underWay {b : Nat} {q : Fsm} {s : State} (hq : q.inCommand = true)
    (hn : q = .poll → s.fcs.n < s.cfg.pollLimit) (hb : q.stepsLeft s.cfg.pollLimit s.fcs.n ≤ b + 1) :
    UnderWay b (advance q s) := by
  have closer {t : State} (r : Fsm) (hst : t.fcs.st = r.code) (hr : r ≠ .idle)
      (hless : r.stepsLeft t.cfg.pollLimit t.fcs.n < q.stepsLeft s.cfg.pollLimit s.fcs.n) : UnderWay b t :=
    .of_st r hst hr (by omega)
  have hopen (hless : 9 + s.cfg.pollLimit < q.stepsLeft s.cfg.pollLimit s.fcs.n) : UnderWay b (afterUnlocked s) := by
    unfold afterUnlocked
    split
    · exact closer .scrub rfl nofun hless
    · exact closer .setEn rfl nofun (Nat.lt_trans (by simp [Fsm.stepsLeft]) hless)
  cases q with
  | idle | respond => cases hq
  | chkBusy =>
    simp only [advance]
    split
    · exact closer .respond rfl nofun (show 1 < 14 + s.cfg.pollLimit by omega)
    · exact closer .chkLock rfl nofun (by simp [Fsm.stepsLeft])
  | chkLock =>
    simp only [advance]
    split
    · exact closer .key1 rfl nofun (by simp [Fsm.stepsLeft])
    · exact hopen (by simp [Fsm.stepsLeft])
  | key1 => exact closer .key2 rfl nofun (by simp [advance, Fsm.stepsLeft])
  | key2 => exact closer .rechkLock rfl nofun (by simp [advance, Fsm.stepsLeft])
  | rechkLock =>
    simp only [advance]
    split
    · exact closer .respond rfl nofun (show 1 < 10 + s.cfg.pollLimit by omega)
    · exact hopen (by simp [Fsm.stepsLeft])
  | scrub => exact closer .setEn rfl nofun (by simp [advance, Fsm.stepsLeft])
  | setEn => exact closer .latchAddr rfl nofun (by simp [advance, Fsm.stepsLeft])
  | latchAddr =>
    simp only [advance]
    split
    · exact closer .start rfl nofun (by simp [Fsm.stepsLeft])
    · exact closer .payload rfl nofun (by simp [Fsm.stepsLeft])
  | start => exact closer .poll rfl nofun (by simp [advance, enterPoll, Fsm.stepsLeft])
  | payload =>
    simp only [advance]
    split
    · exact closer .start rfl nofun (by simp [Fsm.stepsLeft])
    · exact closer .poll rfl nofun (by simp [enterPoll, Fsm.stepsLeft])
  | poll =>
    have hleft := hn rfl
    simp only [advance, pollNext]
    split
    · exact closer .chkEop rfl nofun (show 4 < 4 + (s.cfg.pollLimit - s.fcs.n) by omega)
    · split
      · exact closer .clrEn rfl nofun (show 2 < 4 + (s.cfg.pollLimit - s.fcs.n) by omega)
      · exact closer .poll rfl nofun (show 4 + (s.cfg.pollLimit - (s.fcs.n + 1)) < 4 + (s.cfg.pollLimit - s.fcs.n) by omega)
  | chkEop =>
    refine closer (classifyNext _ _) rfl ?_ ?_
    · unfold classifyNext
      split_ifs <;> decide
    · unfold classifyNext
      split_ifs <;> simp [Fsm.stepsLeft]
  | clrEop | clrErr => exact closer .clrEn rfl nofun (by simp [Fsm.stepsLeft])
  | clrEn => exact closer .respond rfl nofun (by simp [Fsm.stepsLeft])

/-- An acceptance leads to `CHK_BUSY`, or to the response at once (40_entry_unlock R131). -/
theorem acceptFrame_underWay {b : Nat} {s t : State} (h : acceptFrame s = .next t) (hb : 14 + s.cfg.pollLimit ≤ b) :
    UnderWay b t := by
  have hfinish (op : BitVec 2) (addr data : Word) (o : CmdOutcome) : UnderWay b ((accept op addr data s).finish o) :=
    .of_st .respond rfl nofun (show 1 ≤ b by omega)
  have hvalidate (op : BitVec 2) (addr data : Word) : UnderWay b (validateAddr (accept op addr data s)) := by
    unfold validateAddr
    split
    · exact .of_st .chkBusy rfl nofun hb
    · exact hfinish op addr data _
  unfold acceptFrame at h
  split at h
  · rename_i i hdecode
    have hcommand : i.isCommand = true := decodeFrame_isCommand hdecode
    cases i with
    | erasePage => cases h; exact hvalidate _ _ _
    | programWord => cases h; exact hvalidate _ _ _
    | _ => cases hcommand
  · cases h
    exact hfinish _ _ _ _

/-- A step of the sequencer answers the command, or leads at least one step closer to its response. -/
theorem sequencerStep_underWay {b : Nat} {s t : State} (hinv : Inv s) (hway : UnderWay (b + 1) s)
    (h : sequencerStep s = .next t) : Responded t ∨ UnderWay b t := by
  obtain ⟨r, hr, hat⟩ := hinv
  obtain ⟨q, hst, hpending, hb⟩ := hway
  obtain rfl : r = q := Fsm.code_inj.mp (hr.symm.trans hst)
  rw [sequencerStep_at hst] at h
  by_cases hidle : r = .idle
  · subst hidle
    rw [show stepIn .idle s = acceptFrame s from if_pos (hpending rfl)] at h
    refine .inr (acceptFrame_underWay h ?_)
    simp only [Fsm.stepsLeft] at hb
    omega
  by_cases hrespond : r = .respond
  · subst hrespond
    cases h
    have hfree : s.port.cmdPending = false := eq_false_of_ne_true (mt hat.pending nofun)
    exact .inl ⟨rfl, hfree⟩
  · rw [stepIn_bus hidle hrespond] at h
    obtain ⟨i, u, hi, hu, rfl⟩ := busStep_next h
    obtain ⟨hfcs, -, hcfg, -⟩ := exec_bus_frame (busAction_isCommand hi) hu
    rw [← hfcs, ← hcfg] at hb
    refine .inr (advance_underWay ?_ (fun hpoll => ?_) hb)
    · cases r with
      | idle => exact absurd rfl hidle
      | respond => exact absurd rfl hrespond
      | _ => rfl
    · rw [hfcs, hcfg]
      exact hat.pollsLeft hpoll

/-! ### The other agents -/

/-- A move of another agent that is no issue and no device reset leaves the sequencer and its ports. -/
theorem applyMove_leaves_sequencer {m : Move} {s t : State} (h : applyMove m s = .next t) (hsequencer : m ≠ .sequencer)
    (hreset : m ≠ .deviceReset) (hissue : m.command? = none) : t.fcs = s.fcs ∧ t.port = s.port := by
  cases m with
  | sequencer => exact absurd rfl hsequencer
  | deviceReset => exact absurd rfl hreset
  | issue => cases hissue
  | completion => cases h; rw [completionStep_frame]; exact ⟨rfl, rfl⟩
  | pollValid => cases h; exact ⟨rfl, rfl⟩
  | collect =>
    simp only [applyMove, hostCollect] at h
    split at h <;> cases h
    exact ⟨rfl, rfl⟩
  | readRsp =>
    cases h
    simp only [hostReadRsp]
    split <;> exact ⟨rfl, rfl⟩
  | readFlash a w =>
    simp only [applyMove, readFlash] at h
    split at h
    · split at h <;> cases h <;> exact ⟨rfl, rfl⟩
    · cases h
  | foreignRead r =>
    simp only [applyMove, foreignAccess] at h
    split at h <;> cases h
    cases r <;> exact ⟨rfl, rfl⟩
  | foreignWrite r v =>
    simp only [applyMove, foreignAccess] at h
    split at h
    · cases h
    · cases r with
      | keyr => rw [keyWrite_next h]; exact ⟨rfl, rfl⟩
      | sr | cr | ar => cases h; exact ⟨rfl, rfl⟩
  | foreignArrayWrite a w v =>
    simp only [applyMove, foreignAccess] at h
    split at h <;> cases h

/-- While a command is pending or in progress the host cannot issue another (60_exceptions R285). -/
theorem UnderWay.issue_faults {b : Nat} {s : State} (h : UnderWay b s) (cmd addr data : Word) :
    hostIssue cmd addr data s = .fault .hostProtocolViolation := by
  obtain ⟨q, hst, hpending, -⟩ := h
  refine if_pos ?_
  by_cases hidle : q = .idle
  · exact .inl (hpending hidle)
  · exact .inr (by simpa [commandInProgress, hst] using hidle)

/-- A move of another agent leads no further from the response. -/
theorem applyMove_underWay {b : Nat} {m : Move} {s t : State} (h : applyMove m s = .next t) (hsequencer : m ≠ .sequencer)
    (hreset : m ≠ .deviceReset) (hway : UnderWay b s) : UnderWay b t := by
  have hissue : m.command? = none := by
    cases m with
    | issue c a d => exact absurd ((hway.issue_faults c a d).symm.trans h) nofun
    | _ => rfl
  obtain ⟨hfcs, hport⟩ := applyMove_leaves_sequencer h hsequencer hreset hissue
  obtain ⟨hcfg, -⟩ := applyMove_keeps h
  unfold UnderWay
  rwa [hfcs, hport, hcfg]

/-! ### Runs -/

/-- Taking a move off the schedule keeps the invariant. -/
theorem Inv.taken {s : State} (h : Inv s) : Inv s.taken := by
  obtain ⟨q, hst, hat⟩ := h
  have howners : exclusiveOwnership s.taken.moves = true :=
    List.all_eq_true.mpr fun m hm => List.all_eq_true.mp hat.owners m (List.mem_of_mem_tail hm)
  exact ⟨q, hst, { hat with owners := howners }⟩

/-- The sequencer's moves among the next ones, by the first of them. -/
theorem sequencerMoves_succ {m : Move} {ms : List Move} (h : (ms = [] ∧ m = .sequencer) ∨ ∃ rest, ms = m :: rest)
    (k : Nat) : sequencerMoves (k + 1) ms = (if m = .sequencer then 1 else 0) + sequencerMoves k ms.tail := by
  obtain ⟨rfl, rfl⟩ | ⟨rest, rfl⟩ := h
  · exact Nat.add_comm _ _
  · rfl

/-- A step of the machine answers the command, or brings it closer to its response by the step that the sequencer made. -/
theorem step_underWay {b : Nat} {m : Move} {s t : State} (hinv : Inv s) (hreset : m ≠ .deviceReset)
    (hmove : applyMove m s = .next t) (hway : UnderWay (b + if m = .sequencer then 1 else 0) s) :
    Responded t ∨ UnderWay b t := by
  by_cases hsequencer : m = .sequencer
  · subst hsequencer
    exact sequencerStep_underWay hinv hway hmove
  · rw [if_neg hsequencer] at hway
    exact .inr (applyMove_underWay hmove hsequencer hreset hway)

/-- A run that gives the sequencer as many moves as the response is steps ahead goes through the response. -/
theorem steps_respond {k : Nat} {s t : State} (hp : s.poweredUp = true) (hinv : Inv s)
    (hreset : ∀ m ∈ s.moves, m ≠ .deviceReset) (hway : UnderWay (sequencerMoves k s.moves) s)
    (hrun : steps k s = .next t) : ∃ j u, j ≤ k ∧ steps j s = .next u ∧ Responded u := by
  induction k generalizing s with
  | zero =>
    obtain ⟨q, -, -, hq⟩ := hway
    exact absurd (q.stepsLeft_pos _ _) (Nat.not_lt.mpr hq)
  | succ k ih =>
    cases hstep : step s with
    | fault r => simp [steps, hstep] at hrun
    | refused r => simp [steps, hstep] at hrun
    | next v =>
      obtain ⟨m, hm, hmove⟩ := step_inversion hp hstep
      have hm' : m ≠ .deviceReset := by
        obtain ⟨-, rfl⟩ | ⟨rest, hcons⟩ := hm
        · exact nofun
        · exact hreset m (by simp [hcons])
      rw [sequencerMoves_succ hm, Nat.add_comm] at hway
      obtain hresponded | hway' := step_underWay hinv.taken hm' hmove hway
      · exact ⟨1, v, by omega, steps_succ hstep 0, hresponded⟩
      · rw [steps_succ hstep] at hrun
        rw [← step_moves hp hstep] at hway'
        have hreset' : ∀ m ∈ v.moves, m ≠ .deviceReset := fun m hm =>
          hreset m (List.mem_of_mem_tail (step_moves hp hstep ▸ hm))
        obtain ⟨j, u, hj, hsteps, hresponded⟩ :=
          ih (step_keeps hstep).2 (stepsKeepTheInvariant s v hinv hstep) hreset' hway' hrun
        exact ⟨j + 1, u, Nat.succ_le_succ hj, (steps_succ hstep j).trans hsteps, hresponded⟩

/-- A move issues no command exactly if it is no issue move. -/
theorem Move.command?_eq_none_iff (m : Move) : m.command? = none ↔ ∀ c a d, m ≠ .issue c a d := by
  cases m <;> simp [Move.command?]

/-- Where a command has ended and no other is pending, the host program has ended if no command is left to issue
(60_exceptions R286). -/
theorem Responded.programEnded_iff {s : State} (h : Responded s) :
    programEnded s = true ↔ ∀ m ∈ s.moves, ∀ c a d, m ≠ .issue c a d := by
  obtain ⟨hended, hfree⟩ := h
  simp [programEnded, hended, hfree, commandsToCome, Move.command?_eq_none_iff]

/-- Settles O52: the pending command is `15 + POLL_LIMIT` steps of the sequencer at most from its response, and the run goes
through that response (`steps_respond`). -/
theorem everyCommandEndsWithinTheBound : Obligations.EveryCommandEndsWithinTheBound := by
  intro k s t hinv hpending hreset hrun hbound
  obtain ⟨q, hst, hat⟩ := hinv
  have hp : s.poweredUp = true := by
    by_contra hp
    obtain ⟨-, hfree, -⟩ := hat.unpowered (eq_false_of_ne_true hp)
    exact absurd (hfree.symm.trans hpending) nofun
  have hway : UnderWay (sequencerMoves k s.moves) s := by
    obtain rfl := hat.pending hpending
    exact ⟨.idle, hst, fun _ => hpending, hbound⟩
  obtain ⟨j, u, hj, hsteps, hresponded⟩ := steps_respond hp ⟨q, hst, hat⟩ hreset hway hrun
  exact ⟨j, u, hj, hsteps, hresponded.1, hresponded.2, hresponded.programEnded_iff⟩

end Sys2Proof.Machine
end

section
/-! The flash macro's step (44_regif_actions R255 to R257): the completion of an erase and of a program, atomic or in two
steps. -/

namespace Sys2Proof.Machine

/-! ### The end of an operation -/

/-- With nothing owed the macro's step ends the operation in flight (44_regif_actions R255). -/
theorem completionStep_settles {s : State} (howed : s.flash.owed = StatusFlags.clear)
    (hflight : s.flash.inflight ≠ .none) : completionStep s = settle (completionOf s s.flash.inflight) s := by
  obtain ⟨h, -⟩ | ⟨-, h, -⟩ | ⟨p, -, h, e⟩ | ⟨a, v, -, h, e⟩ := completionStep_cases s
  · exact absurd howed h
  · exact absurd h hflight
  · rw [e, h]; rfl
  · rw [e, h]; rfl

/-- A scheduled completion ends the operation in flight and leaves the sequencer and the ports. -/
theorem step_completion {s : State} {rest : List Move} (hp : s.poweredUp = true) (hmoves : s.moves = .completion :: rest)
    (howed : s.flash.owed = StatusFlags.clear) (hflight : s.flash.inflight ≠ .none) :
    ∃ t, step s = .next t ∧ t.fcs = s.fcs ∧ t.port = s.port ∧
      t.flash = raiseOrOwe s.cfg (completionOf s s.flash.inflight).flags { s.flash with
        mem := (completionOf s s.flash.inflight).mem
        bsy := false, cr := { s.flash.cr with strt := false }, inflight := .none } := by
  have htaken : completionOf s.taken s.flash.inflight = completionOf s s.flash.inflight := by
    cases s.flash.inflight <;> rfl
  have hsettle := completionStep_settles (s := s.taken) howed hflight
  refine ⟨_, (step_eq_applyMove hp (.inr ⟨rest, hmoves⟩)).trans (congrArg Host.Outcome.next hsettle), rfl, rfl, ?_⟩
  rw [← htaken]
  rfl

/-- An atomic completion raises its flags at once (44_regif_actions R255). -/
theorem raiseOrOwe_atomic {c : Config} (hc : c.splitCompletion = false) (x : StatusFlags) (f : Flash) :
    raiseOrOwe c x f = raiseFlags x f :=
  if_neg (ne_true_of_eq_false hc)

/-- A split completion owes its flags (44_regif_actions R257). -/
theorem raiseOrOwe_split {c : Config} (hc : c.splitCompletion = true) (x : StatusFlags) (f : Flash) :
    raiseOrOwe c x f = { f with owed := x } :=
  if_pos hc

/-! ### Atomic completions -/

/-- Settles O35: the step raises the flags of `completeErase`, whose array and flags `completeErase_leaves` describes. -/
theorem eraseCompletes : Obligations.EraseCompletes := by
  intro s rest p hp hmoves hflight howed hc hw
  obtain ⟨t, hstep, hfcs, hport, hflash⟩ := step_completion hp hmoves howed (by simp [hflight])
  rw [hflight, raiseOrOwe_atomic hc] at hflash
  have hleaves := completeErase_leaves p (t := t) hw (by rw [hflash]; rfl)
  refine ⟨t, (completeErase p s).flags, hstep, hfcs, hport, ?_⟩
  rw [hflash]
  exact ⟨rfl, rfl, rfl, rfl, rfl, howed, hleaves, rfl, rfl, rfl⟩

/-- Settles O36: the step raises the flags of `completeProgram`, whose array and flags `completeProgram_leaves` describes. -/
theorem programCompletes : Obligations.ProgramCompletes := by
  intro s rest a v hp hmoves hflight howed hc hw
  obtain ⟨t, hstep, hfcs, hport, hflash⟩ := step_completion hp hmoves howed (by simp [hflight])
  rw [hflight, raiseOrOwe_atomic hc] at hflash
  have hleaves := completeProgram_leaves a v (t := t) hw (by rw [hflash]; rfl)
  refine ⟨t, (completeProgram a v s).flags, hstep, hfcs, hport, ?_⟩
  rw [hflash]
  exact ⟨rfl, rfl, rfl, rfl, rfl, howed, hleaves, rfl, rfl, rfl⟩

/-- The program of an unprotected word that is not erased raises `PGERR` over an unchanged array, or `EOP`, or, rejected,
nothing (44_regif_actions R256). -/
theorem programLeaves.flags_not_erased {s t : State} {a v : Word} {x : StatusFlags} (h : programLeaves s t a v x)
    (hpage : (a.toNat - s.cfg.flashBase.toNat) / 2048 ∉ s.cfg.wrpPages)
    (hold : Memory.readWord s.flash.mem a.toNat ≠ 0xFFFFFFFF#32) :
    (x = flagsPgerr ∧ t.flash.mem = s.flash.mem) ∨ x = flagsEop ∨
      (s.cfg.macroMayReject = true ∧ x = StatusFlags.clear) := by
  obtain ⟨-, hword⟩ := h
  rw [if_neg hpage] at hword
  by_cases hrejects : rejects s = true
  · rw [if_pos hrejects] at hword
    obtain ⟨hallowed, -⟩ := Bool.and_eq_true_iff.mp hrejects
    exact .inr (.inr ⟨hallowed, hword.1⟩)
  · rw [if_neg hrejects, if_neg hold] at hword
    exact hword.imp_right fun heop => .inl heop.1

/-- Settles O37: the step is that of O36, and its flags are those that `programLeaves.flags_not_erased` admits. -/
theorem programOfAWordNotErasedIsADraw : Obligations.ProgramOfAWordNotErasedIsADraw := by
  intro s rest a v hp hmoves hflight howed hc hw hpage ⟨i, hi, hbyte⟩
  obtain ⟨t, x, hstep, -, -, -, -, hcr, hbsy, hnone, -, hleaves, heop, hwrprterr, hpgerr⟩ :=
    programCompletes s rest a v hp hmoves hflight howed hc hw
  have hold : Memory.readWord s.flash.mem a.toNat ≠ 0xFFFFFFFF#32 :=
    fun h => hbyte ((readWord_erased_iff _ _).mp h i hi)
  refine ⟨t, hstep, hbsy, hnone, hcr, ?_, hleaves.falls, hleaves.1, ?_⟩
  · rw [hwrprterr, hleaves.wrprterr_unprotected hpage, Bool.or_false]
  · obtain ⟨rfl, hmem⟩ | rfl | ⟨hreject, rfl⟩ := hleaves.flags_not_erased hpage hold
    · exact .inl ⟨hpgerr.trans (Bool.or_true _), heop.trans (Bool.or_false _), hmem⟩
    · exact .inr (.inl ⟨heop.trans (Bool.or_true _), hpgerr.trans (Bool.or_false _)⟩)
    · exact .inr (.inr ⟨hreject, heop.trans (Bool.or_false _), hpgerr.trans (Bool.or_false _)⟩)

/-! ### Split completions -/

/-- Settles O39: with nothing owed the step owes the flags of the same completion as an atomic one, and otherwise it sets the
flags owed. -/
theorem splitCompletionRaisesItsFlagsLater : Obligations.SplitCompletionRaisesItsFlagsLater := by
  intro s rest hp hmoves hc
  refine ⟨fun howed hflight hw => ?_, fun howed => ?_⟩
  · obtain ⟨t, hstep, hfcs, hport, hflash⟩ := step_completion hp hmoves howed hflight
    rw [raiseOrOwe_split hc] at hflash
    have hmem : t.flash.mem = (completionOf s s.flash.inflight).mem := by rw [hflash]
    refine ⟨t, hstep, hfcs, hport, ?_⟩
    rw [hflash]
    refine ⟨rfl, rfl, rfl, rfl, rfl, rfl, rfl, rfl, fun p herase => ?_, fun a v hprogram => ?_⟩
    · rw [herase] at hmem ⊢
      exact completeErase_leaves p hw hmem
    · rw [hprogram] at hmem ⊢
      exact completeProgram_leaves a v hw hmem
  · have hpay : completionStep s.taken = payOwed s.taken := if_neg howed
    exact (step_eq_applyMove hp (.inr ⟨rest, hmoves⟩)).trans (congrArg Host.Outcome.next hpay)

end Sys2Proof.Machine
end

section
/-! The bus actions (44_regif_actions R231 to R246): what each does in every state it is executed in. -/

namespace Sys2Proof.Machine

/-! ### The status register -/

/-- `SR` bit by bit (10_state R45). -/
theorem srBits_getLsbD (e w p b : Bool) (i : Nat) : (srBits e w p b).getLsbD i =
    (if i = 5 then e else if i = 4 then w else if i = 2 then p else if i = 0 then b else false) := by
  by_cases hi : i < 6
  · interval_cases i <;> revert e w p b <;> decide
  · have hhigh : (srBits e w p b).getLsbD i = false := by
      simp only [srBits, BitVec.getLsbD_setWidth, BitVec.getLsbD_of_ge _ _ (Nat.le_of_not_lt hi), Bool.and_false]
    rw [hhigh, if_neg (by omega), if_neg (by omega), if_neg (by omega), if_neg (by omega)]

/-- Settles O15: `RD_SR` reads the word `srWord`, whose bits `srBits_getLsbD` gives. -/
theorem rdSrReturnsTheStatusFlags : Obligations.RdSrReturnsTheStatusFlags :=
  fun s => ⟨srWord s.flash, rfl, srBits_getLsbD _ _ _ _⟩

/-- Settles O18: each clear as its rule has it. -/
theorem statusClearsClearTheirFlags : Obligations.StatusClearsClearTheirFlags :=
  fun s => ⟨exec_w1cSrEop_clears s, exec_w1cSrWrprterr_clears s, exec_w1cSrBoth_clears s⟩

/-! ### The key port -/

/-- Before the lock is open or locked out a key write moves `key` by the handshake (44_regif_actions R236). -/
theorem keyWrite_handshake {s : State} (k : Word) (hkey : s.flash.key = .locked ∨ s.flash.key = .key1Seen) :
    keyWrite k s = .next (s.setFlash { s.flash with key := handshakeKey s.flash.key k }) := by
  obtain hkey | hkey := hkey <;> simp [keyWrite, hkey]

/-- A key write while `Unlocked` draws between `Unlocked` and `LockedOut` (44_regif_actions R236). -/
theorem keyWrite_unlocked {s : State} (k : Word) (hkey : s.flash.key = .unlocked) :
    ∃ q, (q = .unlocked ∨ q = .lockedOut) ∧ keyWrite k s = .next ((s.setFlash { s.flash with key := q }).drawn 1) := by
  refine ⟨if s.nextBool 0 = true then .unlocked else .lockedOut, ?_, by simp [keyWrite, hkey]⟩
  split
  · exact .inl rfl
  · exact .inr rfl

/-- While locked out a key write that is not ignored faults (44_regif_actions R238). -/
theorem keyWrite_lockedOut_faults {s : State} (k : Word) (hkey : s.flash.key = .lockedOut)
    (hfault : s.cfg.keyrLockoutWrite = .fault) : keyWrite k s = .fault .keyWriteWhileLockedOut := by
  simp [keyWrite, hkey, hfault]

/-- Any key but `KEY1` locks out while `Locked` (44_regif_actions R236). -/
theorem handshakeKey_locked_other {k : Word} (hk : k ≠ Config.key1) : handshakeKey .locked k = .lockedOut :=
  if_neg hk

/-- Any key but `KEY2` locks out after `KEY1` (44_regif_actions R236). -/
theorem handshakeKey_key1Seen_other {k : Word} (hk : k ≠ Config.key2) : handshakeKey .key1Seen k = .lockedOut :=
  if_neg hk

/-- A key write that does not continue the handshake locks out (44_regif_actions R236). -/
theorem keyWrite_locksOut {s : State} {k : Word} (h : (s.flash.key = .locked ∧ k ≠ Config.key1) ∨
    (s.flash.key = .key1Seen ∧ k ≠ Config.key2)) :
    keyWrite k s = .next (s.setFlash { s.flash with key := .lockedOut }) := by
  obtain ⟨hkey, hk⟩ | ⟨hkey, hk⟩ := h
  · rw [keyWrite_handshake k (.inl hkey), hkey, handshakeKey_locked_other hk]
  · rw [keyWrite_handshake k (.inr hkey), hkey, handshakeKey_key1Seen_other hk]

/-- Both key writes are writes of the key port. -/
theorem exec_keyWrite {i : Instr} (hi : i ∈ [Instr.wrKeyrKey1, .wrKeyrKey2]) (s : State) :
    ∃ k, exec i s = keyWrite k s := by
  simp only [List.mem_cons, List.not_mem_nil, or_false] at hi
  obtain rfl | rfl := hi
  · exact ⟨Config.key1, rfl⟩
  · exact ⟨Config.key2, rfl⟩

/-- Settles O17: the four key states, by what a write of the key port does in each. -/
theorem keyWritesFollowTheTable : Obligations.KeyWritesFollowTheTable := by
  intro s
  refine ⟨fun hkey => ⟨?_, ?_⟩, fun hkey => ⟨?_, ?_⟩, fun hkey i hi => ?_, fun hkey i hi => ?_⟩
  · exact exec_wrKeyrKey1_locked hkey
  · exact keyWrite_locksOut (.inl ⟨hkey, by decide⟩)
  · exact keyWrite_locksOut (.inr ⟨hkey, by decide⟩)
  · exact exec_wrKeyrKey2_key1Seen hkey
  · obtain ⟨k, hexec⟩ := exec_keyWrite hi s
    rw [hexec]
    exact keyWrite_unlocked k hkey
  · obtain ⟨k, hexec⟩ := exec_keyWrite hi s
    rw [hexec]
    exact ⟨keyWrite_lockedOut_ignored k hkey, keyWrite_lockedOut_faults k hkey⟩

/-! ### The control register and the start trigger -/

/-- `LOCK` is 1 in every key state but `Unlocked` (10_state R41). -/
theorem lockOf_of_ne_unlocked {k : KeyState} (h : k ≠ .unlocked) : lockOf k = true := by
  simp [lockOf_eq_decide, h]

/-- While locked a start trigger changes nothing (44_regif_actions R242). -/
theorem setStrtFlash_locked {c : Config} {f : Flash} (hkey : f.key ≠ .unlocked) : setStrtFlash c f = f :=
  if_pos (lockOf_of_ne_unlocked hkey)

/-- While locked no modify of `CR` changes anything (44_regif_actions R240). -/
theorem exec_modify_locked {i : Instr} {s : State} (hkey : s.flash.key ≠ .unlocked)
    (hi : i ∈ [Instr.setPer, .setPg, .clrPer, .clrPg, .setStrt]) : exec i s = .next s := by
  have hmodify (g : ControlReg → ControlReg) : s.setFlash (modifyCr g s.flash) = s :=
    congrArg s.setFlash (modifyCr_locked g hkey)
  simp only [List.mem_cons, List.not_mem_nil, or_false] at hi
  obtain rfl | rfl | rfl | rfl | rfl := hi
  · exact congrArg Host.Outcome.next (hmodify _)
  · exact congrArg Host.Outcome.next (hmodify _)
  · exact congrArg Host.Outcome.next (hmodify _)
  · exact congrArg Host.Outcome.next (hmodify _)
  · exact congrArg (fun f => Host.Outcome.next (s.setFlash f)) (setStrtFlash_locked hkey)

/-- Settles O19: each modify while unlocked as its rule has it, and `exec_modify_locked`. -/
theorem modifiesChangeTheirFieldOrNothing : Obligations.ModifiesChangeTheirFieldOrNothing :=
  fun _ => ⟨fun hkey => ⟨exec_setPer_unlocked hkey, exec_setPg_unlocked hkey, exec_clrPer_unlocked hkey,
    exec_clrPg_unlocked hkey⟩, fun hkey _ hi => exec_modify_locked hkey hi⟩

/-- The addresses of the array (44_regif_actions R242). -/
theorem inArray_iff (c : Config) (a : Nat) : inArray c a = true ↔
    c.flashBase.toNat ≤ a ∧ a < c.flashBase.toNat + c.flashSize := by
  simp only [inArray, Bool.and_eq_true, decide_eq_true_eq]
  rfl

/-- When a start trigger starts an erase (44_regif_actions R242). -/
theorem eraseStarts_iff (c : Config) (f : Flash) : eraseStarts c f = true ↔
    f.cr.per = true ∧ f.cr.pg = false ∧ f.bsy = false ∧
      c.flashBase.toNat ≤ f.ar.toNat ∧ f.ar.toNat < c.flashBase.toNat + c.flashSize := by
  simp only [eraseStarts, Bool.and_eq_true, Bool.not_eq_true', inArray_iff, and_assoc]

/-- A start trigger that starts no erase sets `STRT` only (44_regif_actions R242). -/
theorem setStrtFlash_idle {c : Config} {f : Flash} (hkey : f.key = .unlocked) (h : ¬eraseStarts c f = true) :
    setStrtFlash c f = { f with cr := { f.cr with strt := true } } := by
  have hopen : ¬lockOf f.key = true := by simp [lockOf, hkey]
  exact (if_neg hopen).trans (if_neg h)

/-- Settles O21: the trigger while unlocked, by whether it starts an erase (`eraseStarts_iff`), and while locked. -/
theorem setStrtStartsAnEraseOrNothing : Obligations.SetStrtStartsAnEraseOrNothing := by
  intro s
  refine ⟨fun hkey ⟨hper, hpg, hbsy, har⟩ => ?_, fun hkey hidle => ?_, fun hkey => ?_⟩
  · exact exec_setStrt_starts hkey hper hpg hbsy ((inArray_iff ..).mpr har)
  · exact congrArg (fun f => Host.Outcome.next (s.setFlash f))
      (setStrtFlash_idle hkey (mt (eraseStarts_iff s.cfg s.flash).mp hidle))
  · exact exec_modify_locked hkey (by decide)

/-! ### The address latch and the payload write -/

/-- While locked an address latch changes nothing (92_eei_decisions D39). -/
theorem latchAr_locked (a : Word) {f : Flash} (hkey : f.key ≠ .unlocked) : latchAr a f = f :=
  if_pos (lockOf_of_ne_unlocked hkey)

/-- Settles O22: the latch while unlocked (`exec_wrAr_unlocked`) and while locked (`latchAr_locked`). -/
theorem wrArLatchesTheAddress : Obligations.WrArLatchesTheAddress :=
  fun s a => ⟨exec_wrAr_unlocked a,
    fun hkey => congrArg (fun f => Host.Outcome.next (s.setFlash f)) (latchAr_locked a hkey)⟩

/-- Settles O23: the address is that of a word of the array, so the write starts its program (`exec_wrMem32_starts`). -/
theorem wrMem32StartsTheProgram : Obligations.WrMem32StartsTheProgram := by
  intro s a v hkey hpg hper hbsy haligned hlow hhigh
  exact exec_wrMem32_starts v ((validAddr_program_iff s.cfg a).mpr ⟨haligned, hlow, hhigh⟩) hkey hpg hper hbsy

/-- The state of the environment in which a payload write is admitted (44_regif_actions R245). -/
theorem programAdmitted_iff (f : Flash) : programAdmitted f = true ↔
    f.key = .unlocked ∧ f.cr.pg = true ∧ f.cr.per = false ∧ f.bsy = false := by
  simp only [programAdmitted, Bool.and_eq_true, Bool.not_eq_true', lockOf_eq_false, and_assoc]

/-- The fault of a write to the array that is not admitted (20_memory R74, 44_regif_actions R246). -/
theorem arrayWrite_faults {a : Word} (v : Word) {s : State} (h : ¬(a.toNat % 4 = 0 ∧ s.cfg.contains a.toNat 4 = true ∧
    programAdmitted s.flash = true)) : exec (.wrMem32 a v) s =
      .fault (if a.toNat % 4 ≠ 0 then .misalignedFlashWrite else .unexpectedFlashWrite) := by
  have hfault : arrayWriteFault a Config.wordBytes =
      if a.toNat % 4 ≠ 0 then .misalignedFlashWrite else .unexpectedFlashWrite := by
    simp [arrayWriteFault, Config.wordBytes]
  rw [← hfault]
  exact if_neg h

/-- Which bytes lie in the array (10_state R48). -/
theorem contains_iff (c : Config) (a len : Nat) : c.contains a len = true ↔
    c.flashBase.toNat ≤ a ∧ a + len ≤ c.flashBase.toNat + c.flashSize := by
  simp only [Config.contains, Bool.and_eq_true, decide_eq_true_eq]
  rfl

/-- Settles O24: in none of the cases is the write admitted (`arrayWrite_faults`), and its alignment decides the fault. -/
theorem wrMem32FaultsWhereNotAdmitted : Obligations.WrMem32FaultsWhereNotAdmitted := by
  intro s a v
  refine ⟨fun hmisaligned => ?_, fun haligned hclosed => ?_, fun haligned houtside => ?_⟩
  · rw [arrayWrite_faults v fun h => hmisaligned h.1, if_pos hmisaligned]
  · rw [arrayWrite_faults v ?_, if_neg (not_not_intro haligned)]
    rintro ⟨-, -, hadmitted⟩
    obtain ⟨hkey, hpg, hper, hbsy⟩ := (programAdmitted_iff s.flash).mp hadmitted
    simp [hkey, hpg, hper, hbsy] at hclosed
  · rw [arrayWrite_faults v ?_, if_neg (not_not_intro haligned)]
    rintro ⟨-, hinside, -⟩
    obtain ⟨hlow, hhigh⟩ := (contains_iff s.cfg a.toNat 4).mp hinside
    omega

end Sys2Proof.Machine
end

section
/-! Register writes by an agent other than the sequencer (44_regif_actions R236, R237, R239, R240) at the times at which
60_exceptions R285 admits them. -/

namespace Sys2Proof.Machine

/-- In `IDLE` with `stale = 0` a scheduled register write by another agent is made (60_exceptions R285). -/
theorem step_foreignWrite {s : State} {r : Reg} {v : Word} {rest : List Move} (hp : s.poweredUp = true)
    (hst : s.fcs.st = Fsm.idle.code) (hstale : s.fcs.stale = false) (hmoves : s.moves = .foreignWrite r v :: rest) :
    step s = regWrite r v s.taken := by
  have hfree : sequencerOwns s.taken = false := by simp [sequencerOwns, commandInProgress, State.taken, hst, hstale]
  exact (step_eq_applyMove hp (.inr ⟨rest, hmoves⟩)).trans (if_neg (ne_true_of_eq_false hfree))

/-- While locked a write of `CR` changes nothing (44_regif_actions R240). -/
theorem crWrite_locked (c : Config) (v : Word) {f : Flash} (hkey : f.key ≠ .unlocked) : crWrite c v f = f :=
  if_pos (lockOf_of_ne_unlocked hkey)

/-- While unlocked a write of `CR` relocks by its bit 7 (44_regif_actions R237). -/
theorem crWrite_key_unlocked (c : Config) (v : Word) {f : Flash} (hkey : f.key = .unlocked) :
    (crWrite c v f).key = if v.getLsbD 7 = true then .locked else .unlocked := by
  rw [crWrite, hkey, if_neg (by decide)]

/-- Write-1-to-clear by the bits of the value (44_regif_actions R239). -/
theorem w1cSr_eq (v : Word) (f : Flash) : w1cSr v f = { f with
    eop := if v.getLsbD 5 = true then false else f.eop
    wrprterr := if v.getLsbD 4 = true then false else f.wrprterr
    pgerr := if v.getLsbD 2 = true then false else f.pgerr } := by
  have hclear (b w : Bool) : (b && !w) = if w = true then false else b := by cases w <;> simp
  simp only [w1cSr, hclear]

/-- Settles O43: the step is the register write, which `keyWrite_locksOut`, `crWrite_locked`, `crWrite_key_unlocked` and
`w1cSr_eq` describe. -/
theorem foreignRegisterWrites : Obligations.ForeignRegisterWrites := by
  intro s rest v hp hst hstale
  refine ⟨fun hmoves => ⟨fun hkey hv => ?_, fun hkey hv => ?_⟩, fun hmoves => ⟨fun hkey => ?_, fun hkey => ?_⟩,
    fun hmoves => ?_⟩
  · exact (step_foreignWrite hp hst hstale hmoves).trans (keyWrite_locksOut (s := s.taken) (.inl ⟨hkey, hv⟩))
  · exact (step_foreignWrite hp hst hstale hmoves).trans (keyWrite_locksOut (s := s.taken) (.inr ⟨hkey, hv⟩))
  · exact ⟨_, step_foreignWrite hp hst hstale hmoves, crWrite_key_unlocked s.cfg v hkey⟩
  · exact (step_foreignWrite hp hst hstale hmoves).trans
      (congrArg (fun f => Host.Outcome.next (s.taken.setFlash f)) (crWrite_locked s.cfg v hkey))
  · exact (step_foreignWrite hp hst hstale hmoves).trans
      (congrArg (fun f => Host.Outcome.next (s.taken.setFlash f)) (w1cSr_eq v s.flash))

end Sys2Proof.Machine
end

section
/-! The sequencer and the flash macro alone never fault (60_exceptions R277): where the invariant holds each of their moves
answers a next state. -/

namespace Sys2Proof.Machine

/-! ### The sequencer's step -/

/-- With `KEYR_LOCKOUT_WRITE = ignored` every key write answers a next state (44_regif_actions R238). -/
theorem keyWrite_answers (k : Word) {s : State} (hignored : s.cfg.keyrLockoutWrite = .ignored) :
    ∃ t, keyWrite k s = .next t := by
  obtain h | ⟨-, hfault, -⟩ := keyWrite_total k s
  · exact h
  · exact absurd (hignored.symm.trans hfault) nofun

/-- Every instruction but the payload write answers a next state where no key write faults. -/
theorem exec_answers {i : Instr} {s : State} (hignored : s.cfg.keyrLockoutWrite = .ignored)
    (hi : ∀ a v, i ≠ .wrMem32 a v) : ∃ t, exec i s = .next t := by
  cases i with
  | wrKeyrKey1 | wrKeyrKey2 => exact keyWrite_answers _ hignored
  | wrMem32 a v => exact absurd rfl (hi a v)
  | _ => exact ⟨_, rfl⟩

/-- The payload write of a program in `PAYLOAD` is admitted: the register is open, `PG` alone is set, and nothing is in flight
(42_program_word R183, 44_regif_actions R245). -/
theorem InvAt.payload_answers {s : State} (h : InvAt .payload s) :
    ∃ t, exec (.wrMem32 s.fcs.cAddr s.fcs.cData) s = .next t := by
  have hop : s.fcs.cOp = opProgram := by simpa [pairReachable] using h.pair
  have hvalid := h.address rfl
  have hper := h.perBit
  have hpg := h.pgBit
  rw [hop] at hvalid hper hpg
  exact ⟨_, exec_wrMem32_starts s.fcs.cData hvalid (h.opened rfl) hpg hper (h.settled rfl)⟩

/-- A state of a command issues an action at every reachable pair (43_poll_classify R201). -/
theorem busAction_reachable {c : Config} {f : Fcs} {q : Fsm} (hq : q.inCommand = true)
    (hpair : pairReachable c q f.cOp = true) : ∃ i, busAction c f q = some i := by
  simp only [busAction, if_pos hpair]
  cases q with
  | idle | respond => cases hq
  | setEn | clrEop | clrEn => exact ⟨_, (apply_ite some _ _ _).symm⟩
  | _ => exact ⟨_, rfl⟩

/-- The payload write is issued in `PAYLOAD` only, with the command's operands (43_poll_classify R201). -/
theorem state_of_wrMem32 {c : Config} {f : Fcs} {q : Fsm} {a v : Word} (h : busAction c f q = some (.wrMem32 a v)) :
    q = .payload ∧ a = f.cAddr ∧ v = f.cData := by
  simp only [busAction] at h
  split at h
  · cases q with
    | payload => cases h; exact ⟨rfl, rfl, rfl⟩
    | setEn | clrEop | clrEn =>
      dsimp only at h
      split at h <;> cases h
    | _ => cases h
  · cases h

/-- In a state of a command the sequencer's step answers a next state. -/
theorem busStep_answers {q : Fsm} {s : State} (h : InvAt q s) (hq : q.inCommand = true)
    (hignored : s.cfg.keyrLockoutWrite = .ignored) : ∃ t, busStep q s = .next t := by
  obtain ⟨i, hi⟩ := busAction_reachable hq h.pair
  have hexec : ∃ u, exec i s = .next u := by
    by_cases hpayload : ∃ a v, i = .wrMem32 a v
    · obtain ⟨a, v, rfl⟩ := hpayload
      obtain ⟨rfl, rfl, rfl⟩ := state_of_wrMem32 hi
      exact h.payload_answers
    · exact exec_answers hignored fun a v he => hpayload ⟨a, v, he⟩
  obtain ⟨u, hu⟩ := hexec
  exact ⟨_, busStep_of_exec hi hu⟩

/-- `IDLE` answers a next state: the decoder reads no payload write off the command port (40_entry_unlock R130, R131). -/
theorem idleStep_answers {s : State} (hignored : s.cfg.keyrLockoutWrite = .ignored) : ∃ t, idleStep s = .next t := by
  unfold idleStep
  split
  · unfold acceptFrame
    split
    · rename_i i hdecode
      refine exec_answers hignored fun a v hi => ?_
      subst hi
      exact absurd (decodeFrame_isCommand hdecode) nofun
    · exact ⟨_, rfl⟩
  · exact ⟨_, rfl⟩

/-- Where the invariant holds the sequencer's step answers a next state (60_exceptions R277). -/
theorem sequencerStep_answers {s : State} (hinv : Inv s) (hignored : s.cfg.keyrLockoutWrite = .ignored) :
    ∃ t, sequencerStep s = .next t := by
  obtain ⟨q, hst, h⟩ := hinv
  rw [sequencerStep_at hst]
  cases q with
  | idle => exact idleStep_answers hignored
  | respond => exact ⟨_, rfl⟩
  | _ => exact busStep_answers h rfl hignored

/-! ### Runs -/

/-- Where the invariant holds a move of the sequencer or of the macro answers a next state. -/
theorem applyMove_inner_answers {m : Move} {s : State} (hm : m.isInner = true) (hinv : Inv s)
    (hignored : s.cfg.keyrLockoutWrite = .ignored) : ∃ t, applyMove m s = .next t := by
  cases m with
  | sequencer => exact sequencerStep_answers hinv hignored
  | completion => exact ⟨_, rfl⟩
  | _ => cases hm

/-- A step of a run that only the sequencer and the macro take part in answers a next state. -/
theorem step_inner_answers {s : State} (hinv : Inv s) (hignored : s.cfg.keyrLockoutWrite = .ignored)
    (hinner : ∀ m ∈ s.moves.head?, m.isInner = true) : ∃ t, step s = .next t := by
  cases hp : s.poweredUp with
  | false => exact ⟨_, step_unpowered hp⟩
  | true =>
    cases hmoves : s.moves with
    | nil =>
      rw [step_eq_applyMove hp (.inl ⟨hmoves, rfl⟩)]
      exact applyMove_inner_answers rfl hinv.taken hignored
    | cons m rest =>
      rw [step_eq_applyMove hp (.inr ⟨rest, hmoves⟩)]
      exact applyMove_inner_answers (hinner m (by simp [hmoves])) hinv.taken hignored

/-- A step leaves no move on the schedule that was not there. -/
theorem step_moves_subset {s t : State} (h : step s = .next t) : t.moves ⊆ s.moves := by
  cases hp : s.poweredUp with
  | false =>
    rw [step_unpowered hp] at h
    cases h
    exact List.Subset.refl _
  | true =>
    rw [step_moves hp h]
    exact List.tail_subset _

/-- Settles O50: each step answers a next state (`step_inner_answers`), where the invariant, the parameter and the schedule are
again as they have to be. -/
theorem sequencerAndMacroNeverFault : Obligations.SequencerAndMacroNeverFault := by
  intro k
  induction k with
  | zero => exact fun s _ _ _ => ⟨s, rfl⟩
  | succ k ih =>
    intro s hinv hignored hinner
    have hmoves : ∀ m ∈ s.moves, m.isInner = true := List.all_eq_true.mp hinner
    obtain ⟨u, hstep⟩ := step_inner_answers hinv hignored fun m hm => hmoves m (List.mem_of_mem_head? hm)
    have hcfg : u.cfg = s.cfg := (step_keeps hstep).1
    have hinner' : onlyInner u.moves = true := List.all_eq_true.mpr fun m hm => hmoves m (step_moves_subset hstep hm)
    obtain ⟨t, hsteps⟩ := ih u (stepsKeepTheInvariant s u hinv hstep) (by rwa [hcfg]) hinner'
    exact ⟨t, (steps_succ hstep k).trans hsteps⟩

end Sys2Proof.Machine
end

section
/-! The moves of the host and of other agents (60_exceptions R285): issue, collect, and the accesses that the sequencer's
ownership excludes. -/

namespace Sys2Proof.Machine

/-! ### The host -/

/-- The host issues a command where none is pending or in progress. -/
theorem hostIssue_idle {s : State} (hfree : s.port.cmdPending = false) (hst : s.fcs.st = Fsm.idle.code)
    (cmd addr data : Word) : hostIssue cmd addr data s =
      .next (s.setPort { s.port with cmd := cmd, addr := addr, data := data, cmdPending := true }) :=
  if_neg (by simp [hfree, commandInProgress, hst])

/-- An issue while a command is pending or in progress faults. -/
theorem hostIssue_busy {s : State} (h : s.port.cmdPending = true ∨ s.fcs.st ≠ Fsm.idle.code) (cmd addr data : Word) :
    hostIssue cmd addr data s = .fault .hostProtocolViolation :=
  if_pos (h.imp_right fun hst => bne_iff_ne.mpr hst)

/-- Settles O40: the step is the host's move, an issue by `hostIssue_idle` and `hostIssue_busy`, a collect by its test of
`rsp_valid`. -/
theorem hostIssuesAndCollectsInTurn : Obligations.HostIssuesAndCollectsInTurn := by
  intro s rest hp
  refine ⟨fun c a d hmoves => ?_, fun hmoves => ?_⟩
  · rw [step_eq_applyMove hp (.inr ⟨rest, hmoves⟩)]
    exact ⟨fun hfree hst => hostIssue_idle (s := s.taken) hfree hst c a d, fun h => hostIssue_busy (s := s.taken) h c a d⟩
  · rw [step_eq_applyMove hp (.inr ⟨rest, hmoves⟩)]
    exact ⟨fun hvalid => if_pos hvalid, fun hvalid => if_neg (ne_true_of_eq_false hvalid)⟩

/-! ### Other agents -/

/-- When the sequencer owns the register interface and the array (60_exceptions R285). -/
theorem sequencerOwns_iff (s : State) : sequencerOwns s = true ↔
    s.fcs.st ≠ Fsm.idle.code ∨ (s.fcs.stale = true ∧ s.flash.inflight ≠ .none) := by
  simp [sequencerOwns, commandInProgress]

/-- Any access of another agent faults while the sequencer owns the interface. -/
theorem applyMove_foreign_owned {m : Move} {s : State} (hm : m.isForeign = true) (howns : sequencerOwns s = true) :
    applyMove m s = .fault .hostProtocolViolation := by
  cases m with
  | foreignRead | foreignWrite | foreignArrayWrite => exact if_pos howns
  | _ => cases hm

/-- Settles O42: the step is the access, which faults by `applyMove_foreign_owned` while the sequencer owns the interface
(`sequencerOwns_iff`), and an array write is a fault at every other time. -/
theorem foreignAccessesAreExcluded : Obligations.ForeignAccessesAreExcluded := by
  intro s m rest hp hmoves hm
  rw [step_eq_applyMove hp (.inr ⟨rest, hmoves⟩)]
  refine ⟨fun howned => applyMove_foreign_owned hm ((sequencerOwns_iff s.taken).mpr howned), ?_⟩
  rintro hfree a w v rfl
  have hwrite : applyMove (.foreignArrayWrite a w v) s.taken = .fault (arrayWriteFault a w) :=
    if_neg (mt (sequencerOwns_iff s.taken).mp hfree)
  exact hwrite

end Sys2Proof.Machine
end

section
/-! Host programs (60_exceptions R286): every command of a program whose waits are long enough is answered before the next is
issued, and with the last of them the program has ended. -/

namespace Sys2Proof.Machine

/-! ### The commands of a program -/

/-- A move of the sequencer or of the macro issues no command. -/
theorem Move.command?_of_isInner {m : Move} (h : m.isInner = true) : m.command? = none := by
  cases m with
  | sequencer | completion => rfl
  | _ => cases h

/-- The issue moves of a program's schedule are its commands, in order. -/
theorem commands_programMoves {prog : List (Frame × List Move)} (h : ∀ x ∈ prog, onlyInner x.2 = true) :
    (programMoves prog).filterMap Move.command? = prog.map Prod.fst := by
  induction prog with
  | nil => rfl
  | cons x rest ih =>
    obtain ⟨f, wait⟩ := x
    obtain ⟨hwait, hrest⟩ := List.forall_mem_cons.mp h
    have hnone : wait.filterMap Move.command? = [] :=
      List.filterMap_eq_nil_iff.mpr fun m hm => Move.command?_of_isInner (List.all_eq_true.mp hwait m hm)
    calc (programMoves ((f, wait) :: rest)).filterMap Move.command?
        = f :: (wait.filterMap Move.command? ++ (programMoves rest).filterMap Move.command?) := by
          simp [programMoves, Move.command?]
      _ = ((f, wait) :: rest).map Prod.fst := by simp [hnone, ih hrest]

/-! ### One command -/

/-- What a host program needs of the machine in every state of its run: it is powered up, meets the invariant, and ignores a
key write while locked out. -/
structure Sound (s : State) : Prop where
  powered : s.poweredUp = true
  inv : Inv s
  ignored : s.cfg.keyrLockoutWrite = .ignored

/-- A step keeps the machine sound, and makes it powered up. -/
theorem Sound.of_step {s t : State} (hinv : Inv s) (hignored : s.cfg.keyrLockoutWrite = .ignored) (h : step s = .next t) :
    Sound t := by
  obtain ⟨hcfg, hpowered⟩ := step_keeps h
  exact ⟨hpowered, stepsKeepTheInvariant s t hinv h, by rwa [hcfg]⟩

/-- No command is pending or in progress. -/
def AtRest (s : State) : Prop := s.fcs.st = Fsm.idle.code ∧ s.port.cmdPending = false

/-- A machine whose last command has ended is at rest. -/
theorem Responded.atRest {s : State} (h : Responded s) : AtRest s := by
  obtain ⟨hended, hfree⟩ := h
  simp only [commandEnded, Bool.and_eq_true, beq_iff_eq] at hended
  exact ⟨hended.2, hfree⟩

/-- Where a command has ended and none is pending, a move of the sequencer or of the macro leaves it so. -/
theorem Responded.of_inner {m : Move} {s t : State} (h : Responded s) (hm : m.isInner = true)
    (hmove : applyMove m s = .next t) : Responded t := by
  cases m with
  | sequencer =>
    obtain ⟨hst, hfree⟩ := h.atRest
    have hhold : sequencerStep s = .next s := (sequencerStep_at hst).trans (if_neg (ne_true_of_eq_false hfree))
    obtain rfl : s = t := Host.Outcome.next.inj (hhold.symm.trans hmove)
    exact h
  | completion =>
    obtain ⟨hfcs, hport⟩ := applyMove_leaves_sequencer hmove nofun nofun rfl
    unfold Responded commandEnded
    rwa [hfcs, hport]
  | _ => cases hm

/-- A wait that gives the sequencer as many moves as the response of the command under way is steps ahead ends with that
response (43_poll_classify R204). -/
theorem wait_responds {wait rest : List Move} {s : State} (hs : Sound s) (hmoves : s.moves = wait ++ rest)
    (hwait : onlyInner wait = true) (hway : Responded s ∨ UnderWay (sequencerMoves wait.length wait) s) :
    ∃ t, steps wait.length s = .next t ∧ Sound t ∧ t.cfg = s.cfg ∧ t.moves = rest ∧ Responded t := by
  induction wait generalizing s with
  | nil =>
    refine ⟨s, rfl, hs, rfl, hmoves, hway.resolve_right ?_⟩
    rintro ⟨q, -, -, hq⟩
    exact absurd (q.stepsLeft_pos _ _) (Nat.not_lt.mpr hq)
  | cons m wait ih =>
    obtain ⟨hm, hwait⟩ : m.isInner = true ∧ onlyInner wait = true := by simpa [onlyInner] using hwait
    have hreset : m ≠ .deviceReset := by rintro rfl; cases hm
    obtain ⟨u, hmove⟩ := applyMove_inner_answers hm hs.inv.taken hs.ignored
    have hstep : step s = .next u := (step_eq_applyMove hs.powered (.inr ⟨wait ++ rest, hmoves⟩)).trans hmove
    have hway' : Responded u ∨ UnderWay (sequencerMoves wait.length wait) u := by
      obtain hresponded | hway := hway
      · exact .inl (hresponded.of_inner (s := s.taken) hm hmove)
      · rw [List.length_cons, sequencerMoves_succ (.inr ⟨wait, rfl⟩), Nat.add_comm] at hway
        exact step_underWay hs.inv.taken hreset hmove hway
    have hmoves' : u.moves = wait ++ rest := by rw [step_moves hs.powered hstep, hmoves]; rfl
    obtain ⟨t, hsteps, ht, hcfg, h⟩ := ih (.of_step hs.inv hs.ignored hstep) hmoves' hwait hway'
    exact ⟨t, (steps_succ hstep _).trans hsteps, ht, hcfg.trans (step_keeps hstep).1, h⟩

/-- A command issued at rest and waited for has ended. -/
theorem command_ends {f : Frame} {wait rest : List Move} {s : State} (hs : Sound s) (hrest : AtRest s)
    (hmoves : s.moves = .issue f.cmd f.addr f.data :: wait ++ rest) (hwait : onlyInner wait = true)
    (hbound : 15 + s.cfg.pollLimit ≤ sequencerMoves wait.length wait) :
    ∃ t, steps (1 + wait.length) s = .next t ∧ Sound t ∧ t.cfg = s.cfg ∧ t.moves = rest ∧ Responded t := by
  obtain ⟨hst, hfree⟩ := hrest
  have hstep : step s = .next (s.taken.setPort
      { s.port with cmd := f.cmd, addr := f.addr, data := f.data, cmdPending := true }) :=
    (step_eq_applyMove hs.powered (.inr ⟨wait ++ rest, hmoves⟩)).trans
      (hostIssue_idle (s := s.taken) hfree hst f.cmd f.addr f.data)
  have hissued : s.taken.moves = wait ++ rest := by simp [State.taken, hmoves]
  obtain ⟨t, hsteps, h⟩ := wait_responds (.of_step hs.inv hs.ignored hstep) hissued hwait
    (.inr ⟨.idle, hst, fun _ => rfl, hbound⟩)
  exact ⟨t, (steps_add (steps_succ hstep 0) wait.length).trans hsteps, h⟩

/-! ### The program -/

/-- Each wait of a host program holds moves of the sequencer and the macro alone, with as many of the sequencer's as a command
takes at most. -/
def WaitsSuffice (c : Config) (prog : List (Frame × List Move)) : Prop :=
  ∀ x ∈ prog, onlyInner x.2 = true ∧ 15 + c.pollLimit ≤ sequencerMoves x.2.length x.2

/-- The last command of a host program issued at rest has ended when the schedule is used up. -/
theorem program_ends {prog : List (Frame × List Move)} {s : State} (hs : Sound s) (hmoves : s.moves = programMoves prog)
    (hrest : AtRest s) (hlast : prog = [] → Responded s) (hwaits : WaitsSuffice s.cfg prog) :
    ∃ t, steps s.moves.length s = .next t ∧ t.moves = [] ∧ Responded t := by
  induction prog generalizing s with
  | nil => exact ⟨s, by rw [hmoves]; rfl, hmoves, hlast rfl⟩
  | cons x rest ih =>
    obtain ⟨f, wait⟩ := x
    obtain ⟨⟨hwait, hbound⟩, hwaits⟩ := List.forall_mem_cons.mp hwaits
    obtain ⟨u, hsteps, hu, hcfg, humoves, hresponded⟩ := command_ends hs hrest hmoves hwait hbound
    rw [← hcfg] at hwaits
    obtain ⟨t, hrun, h⟩ := ih hu humoves hresponded.atRest (fun _ => hresponded) hwaits
    have hlength : s.moves.length = 1 + wait.length + u.moves.length := by
      simp only [hmoves, humoves, programMoves, List.cons_append, List.length_cons, List.length_append]
      omega
    exact ⟨t, by rw [hlength, steps_add hsteps, hrun], h⟩

/-- The program runs as `program_ends` says, after the first power-up where that is still to come (log entry 3). -/
theorem program_ends_from_reset {prog : List (Frame × List Move)} {s : State} (hinv : Inv s)
    (hignored : s.cfg.keyrLockoutWrite = .ignored) (hmoves : s.moves = programMoves prog) (hrest : AtRest s)
    (hprog : prog ≠ []) (hwaits : WaitsSuffice s.cfg prog) :
    ∃ t, steps (s.moves.length + if s.poweredUp = true then 0 else 1) s = .next t ∧ t.moves = [] ∧ Responded t := by
  by_cases hp : s.poweredUp = true
  · rw [if_pos hp]
    exact program_ends ⟨hp, hinv, hignored⟩ hmoves hrest (fun h => absurd h hprog) hwaits
  · have hstep : step s = .next (powerUp s) := step_unpowered (eq_false_of_ne_true hp)
    rw [if_neg hp, steps_succ hstep]
    exact program_ends (s := powerUp s) (.of_step hinv hignored hstep) hmoves ⟨rfl, rfl⟩ (fun h => absurd h hprog) hwaits

/-- Settles O60: the commands to come are the program's (`commands_programMoves`), so it has not ended before, and it has with
the response to the last of them (`program_ends_from_reset`). -/
theorem hostProgramsEnd : Obligations.HostProgramsEnd := by
  intro s prog hinv hst hfree hignored hmoves hprog hwaits
  have hcommands : commandsToCome s = prog.map Prod.fst := by
    rw [commandsToCome, hmoves, commands_programMoves fun x hx => (hwaits x hx).1]
  obtain ⟨t, hsteps, hnone, hresponded⟩ := program_ends_from_reset hinv hignored hmoves ⟨hst, hfree⟩ hprog hwaits
  refine ⟨hcommands, fun lines hlines => ?_, ?_, t, hsteps, ?_⟩
  · simp [issuesProgram, hcommands, hlines]
  · simp [programEnded, hcommands, hprog]
  · rw [hresponded.programEnded_iff, hnone]
    exact fun m hm => absurd hm List.not_mem_nil

end Sys2Proof.Machine
end

section
/-! Reset (70_reset_and_hazards R300 to R303): what a device reset and the first power-up leave, and that nothing but a device
reset ends a lock-out (R301). -/

namespace Sys2Proof.Machine

/-! ### The reset step -/

/-- A machine that is powered up already stays as it is when it is marked so. -/
theorem State.setPowered_of_powered {s : State} (hp : s.poweredUp = true) : s.setPowered = s := by
  rw [State.setPowered, ← hp]

/-- The step of a device reset and the first power-up are one reset, and differ in what it leaves in the array
(70_reset_and_hazards R300, 10_state R52). -/
theorem step_resets {s : State} {rest : List Move}
    (h : (s.poweredUp = true ∧ s.moves = .deviceReset :: rest) ∨ (s.poweredUp = false ∧ s.moves = rest)) :
    step s = .next (resetTo (if s.poweredUp = true then resetMem s else powerUpMem s) (s.setMoves rest)).setPowered := by
  obtain ⟨hp, hmoves⟩ | ⟨hp, rfl⟩ := h
  · rw [step_scheduled hp hmoves, if_pos hp,
      State.setPowered_of_powered (s := resetTo (resetMem s) (s.setMoves rest)) hp]
    rfl
  · rw [step_unpowered hp, if_neg (ne_true_of_eq_false hp)]
    rfl

/-- After reset no bit of `SR` is set (10_state R51). -/
theorem srWord_reset (mem : Memory) : srWord (Flash.reset mem) = 0#32 := by
  change srBits false false false false = 0#32
  decide

/-- After reset `CR` holds `LOCK` alone (10_state R51). -/
theorem crWord_reset (mem : Memory) : crWord (Flash.reset mem) = 0x80#32 := by
  change crBits ControlReg.clear (lockOf .locked) = 0x80#32
  decide

/-- Settles O2: the step is the one reset of `step_resets`, whose values are read off it; its array is that of `resetMem` on a
machine that is powered up, by what the operation in flight covers, and else that of `powerUpMem`. -/
theorem deviceResetResetsAllButTheArray : Obligations.DeviceResetResetsAllButTheArray := by
  intro s rest hreset
  refine ⟨_, step_resets hreset, rfl, rfl, rfl, rfl, rfl, rfl, rfl, rfl, rfl, rfl, rfl, rfl, rfl, srWord_reset _,
    crWord_reset _, rfl, rfl, rfl, fun hp => ?_, fun hp x hlow hhigh => ?_⟩
  · rw [if_pos hp]
    refine ⟨fun x hflight => ?_, fun p x hflight hx => ?_, fun a v x hflight hx => ?_, fun p x hflight hw hlow hhigh => ?_,
      fun a v x hflight hw hlow hhigh => ?_⟩
    · exact resetMem_outside s (by rw [hflight]; exact .inr (Nat.zero_le x))
    · exact resetMem_outside s (by rw [hflight]; exact hx)
    · exact resetMem_outside s (by rw [hflight]; exact hx)
    · exact resetMem_inside hw (by rw [hflight]; exact hlow) (by rw [hflight]; exact hhigh)
    · exact resetMem_inside hw (by rw [hflight]; exact hlow) (by rw [hflight]; exact hhigh)
  · rw [if_neg (ne_true_of_eq_false hp)]
    exact powerUpMem_inside s hlow hhigh

/-! ### The lock-out -/

/-- A key write that answers keeps the lock-out (44_regif_actions R236, R238). -/
theorem keyWrite_keeps_lockedOut {k : Word} {s t : State} (hkey : s.flash.key = .lockedOut) (h : keyWrite k s = .next t) :
    t.flash.key = .lockedOut := by
  obtain ⟨hopen, -⟩ | ⟨-, hnext⟩ := keyWrite_key h
  · rw [hkey] at hopen
    cases hopen
  · rw [hnext, hkey, handshakeKey]

/-- No instruction ends a lock-out: the key writes are ignored or fault, the writes of `CR` and `AR` change nothing while
locked, and the other instructions do not touch `key` (44_regif_actions R236, R240, 92_eei_decisions D39). -/
theorem exec_keeps_lockedOut {i : Instr} {s t : State} (hkey : s.flash.key = .lockedOut) (h : exec i s = .next t) :
    t.flash.key = .lockedOut := by
  have hlocked : s.flash.key ≠ .unlocked := by simp [hkey]
  cases i with
  | erasePage | programWord => rwa [(exec_command_frame rfl h).1]
  | rdSr | rdCr | w1cSrEop | w1cSrWrprterr | w1cSrBoth => cases h; exact hkey
  | wrKeyrKey1 | wrKeyrKey2 => exact keyWrite_keeps_lockedOut hkey h
  | setPer | setPg | clrPer | clrPg | setStrt =>
    rw [exec_modify_locked hlocked (by decide)] at h
    cases h
    exact hkey
  | wrAr a =>
    cases h
    rwa [State.setFlash_flash, latchAr_locked a hlocked]
  | wrMem32 a v =>
    obtain ⟨-, -, -, rfl⟩ := arrayWrite_next h
    exact hkey

/-- The sequencer never ends a lock-out: its bus actions do not, and its transitions leave the environment. -/
theorem sequencerStep_keeps_lockedOut {s t : State} (hkey : s.flash.key = .lockedOut) (h : sequencerStep s = .next t) :
    t.flash.key = .lockedOut := by
  unfold sequencerStep at h
  split at h
  next q _ =>
    by_cases hidle : q = .idle
    · subst hidle
      simp only [stepIn, idleStep, acceptFrame] at h
      split at h
      · split at h
        · exact exec_keeps_lockedOut hkey h
        · cases h; exact hkey
      · cases h; exact hkey
    by_cases hrespond : q = .respond
    · subst hrespond
      cases h
      exact hkey
    rw [stepIn_bus hidle hrespond] at h
    obtain ⟨i, u, -, hexec, rfl⟩ := busStep_next h
    rw [advance_flash]
    exact exec_keeps_lockedOut hkey hexec
  next => cases h

/-- No register write by another agent ends a lock-out (44_regif_actions R236, R237, R240). -/
theorem regWrite_keeps_lockedOut {r : Reg} {v : Word} {s t : State} (hkey : s.flash.key = .lockedOut)
    (h : regWrite r v s = .next t) : t.flash.key = .lockedOut := by
  have hlocked : s.flash.key ≠ .unlocked := by simp [hkey]
  cases r with
  | keyr => exact keyWrite_keeps_lockedOut hkey h
  | sr => cases h; exact hkey
  | cr =>
    cases h
    rwa [State.setFlash_flash, crWrite_locked _ v hlocked]
  | ar =>
    cases h
    rwa [State.setFlash_flash, latchAr_locked v hlocked]

/-- The host's moves and the reads of other agents leave the environment. -/
theorem applyMove_leaves_flash {m : Move} {s t : State} (h : applyMove m s = .next t) (hsequencer : m ≠ .sequencer)
    (hcompletion : m ≠ .completion) (hreset : m ≠ .deviceReset) (hwrite : ∀ r v, m ≠ .foreignWrite r v) :
    t.flash = s.flash := by
  cases m with
  | sequencer => exact absurd rfl hsequencer
  | completion => exact absurd rfl hcompletion
  | deviceReset => exact absurd rfl hreset
  | foreignWrite r v => exact absurd rfl (hwrite r v)
  | issue => simp only [applyMove, hostIssue] at h; split at h <;> cases h; rfl
  | pollValid => cases h; rfl
  | collect => simp only [applyMove, hostCollect] at h; split at h <;> cases h; rfl
  | readRsp => cases h; simp only [hostReadRsp]; split <;> rfl
  | readFlash =>
    simp only [applyMove, readFlash] at h
    split at h
    · split at h <;> cases h <;> rfl
    · cases h
  | foreignRead r => simp only [applyMove, foreignAccess] at h; split at h <;> cases h; cases r <;> rfl
  | foreignArrayWrite => simp only [applyMove, foreignAccess] at h; split at h <;> cases h

/-- No move but a device reset ends a lock-out (70_reset_and_hazards R301). -/
theorem applyMove_keeps_lockedOut {m : Move} {s t : State} (hkey : s.flash.key = .lockedOut) (hreset : m ≠ .deviceReset)
    (h : applyMove m s = .next t) : t.flash.key = .lockedOut := by
  cases m with
  | sequencer => exact sequencerStep_keeps_lockedOut hkey h
  | completion => cases h; rwa [completionStep_key]
  | deviceReset => exact absurd rfl hreset
  | foreignWrite r v =>
    simp only [applyMove, foreignAccess] at h
    split at h
    · cases h
    · exact regWrite_keeps_lockedOut hkey h
  | _ => rwa [applyMove_leaves_flash h nofun nofun nofun nofun]

/-- Settles O44: the step is one move, which keeps the lock-out (`applyMove_keeps_lockedOut`) or is a device reset, and that
leaves `Locked`. -/
theorem onlyDeviceResetLeavesLockedOut : Obligations.OnlyDeviceResetLeavesLockedOut := by
  intro s t hp hkey hstep
  obtain ⟨m, hsource, hmove⟩ := step_inversion hp hstep
  by_cases hreset : m = .deviceReset
  · subst hreset
    cases hmove
    obtain ⟨-, hm⟩ | ⟨rest, hmoves⟩ := hsource
    · cases hm
    · exact .inr ⟨rest, hmoves, rfl⟩
  · exact .inl (applyMove_keeps_lockedOut (s := s.taken) hkey hreset hmove)

end Sys2Proof.Machine
end
